-- ==== Sys2Proof/Word.lean ====
section
/-! DEFINITION. The word type, the index types of the four index spaces (20_memory.md R60), and the
types of numbers (00_scope.md R11). Operations on numbers are in Machine/Num.lean. -/

namespace Sys2Proof

/-- A word is 32 bits (00_scope.md R8). -/
abbrev Word := BitVec 32

/-- A byte of a byte-carried program (20_memory.md R63). -/
abbrev Byte := BitVec 8

/-- A voice index as the 8-bit field `a` encodes it, 0..255 (00_scope.md R14). -/
abbrev VoiceIx := Fin 256

/-- An operator index, 0..5 (00_scope.md R9). -/
abbrev OpIx := Fin 6

/-- A note number, 0..127 (00_scope.md R6, `NNOTES`). -/
abbrev Note := Fin 128

/-- A velocity, 0..127 (00_scope.md R14). -/
abbrev Velocity := Fin 128

/-- An algorithm index as encoded, 0..255 (00_scope.md R14). -/
abbrev AlgIx := Fin 256

/-- The modulation type register `modType` (10_state.md R21). -/
inductive ModType where
  | pm
  | fm
deriving DecidableEq, Repr, Inhabited

/-- A number of IEEE 754 binary32, the default of `CFG.NUM` (00_scope.md R11; log entry 3).
`fin neg mag` is the finite number whose sign bit is `neg` and whose other 31 bits, read as one integer, are `mag`:
finite magnitudes in rising order are exactly 0, 1, …, 0x7F7FFFFF. Both zeros are kept apart.
There is one `nan`: which NaN bit pattern an operation delivers is not part of the number (log entry 4). -/
inductive Num32 where
  | nan
  | inf (neg : Bool)
  | fin (neg : Bool) (mag : Fin 0x7F800000)
deriving DecidableEq, Repr, Inhabited

namespace Num32

/-- The number 0, with positive sign. -/
def zero : Num32 := .fin false ⟨0, by decide⟩

/-- The number 1 (bit pattern 0x3F800000). -/
def one : Num32 := .fin false ⟨0x3F800000, by decide⟩

end Num32

/-- A value of the type `Num` of `CFG.NUM` (00_scope.md R11), whatever the format: a binary32 number, or a number of
another format under a code that only that format's own operations read (log entry 3). -/
inductive Number where
  | b32 (x : Num32)
  | other (code : Nat)
deriving DecidableEq, Repr, Inhabited

end Sys2Proof
end

