-- ==== Sys2Proof/Config.lean ====
section
/-! DEFINITION. The configuration record `CFG` of 00_scope.md R6: its open fields as plain data, what makes an algorithm
table admissible, the candidate algorithm table of 43_algorithm.md R174, and the open functions and values that have no
body at all. `CFG.NVOICES` is the length of the voice pool (log entry 1). -/

namespace Sys2Proof

/-- One `AlgorithmDescription`, indices 1-based as in the source's data (43_algorithm.md R170, R171). -/
structure AlgDesc where
  /-- (modulated, modulator) -/
  edges : List (Int × Int)
  carriers : List Int
  feedback : Option Int
deriving DecidableEq, Repr, Inhabited

/-- A 1-based operator slot 1..6 as a 0-based operator index; none for an index that names no slot
(43_algorithm.md R171 and the validity test of R175). -/
def slotIndex (k : Int) : Option OpIx :=
  if h : 1 ≤ k ∧ k ≤ 6 then some ⟨(k - 1).toNat, by omega⟩ else none

namespace AlgDesc

/-- One round of removing every edge whose modulator is itself modulated by nothing. -/
def peel (es : List (Int × Int)) : List (Int × Int) :=
  es.filter fun e => es.any fun f => f.1 == e.2

/-- The edges hold no cycle and no self-edge: with six operators, six rounds of `peel` remove every edge exactly when
no edge lies on a cycle or leads into one (43_algorithm.md R172 (c)). -/
def acyclic (d : AlgDesc) : Bool :=
  (peel (peel (peel (peel (peel (peel d.edges)))))).isEmpty

/-- Every index names a slot 1..6 (43_algorithm.md R172 (a)). -/
def slotsValid (d : AlgDesc) : Bool :=
  (d.edges.all fun e => (slotIndex e.1).isSome && (slotIndex e.2).isSome) &&
    (d.carriers.all fun c => (slotIndex c).isSome) &&
    (match d.feedback with
     | none => true
     | some f => (slotIndex f).isSome)

/-- The constraints of 43_algorithm.md R172 on one description, and R170's "carriers ... no repeats". -/
def admissible (d : AlgDesc) : Bool :=
  d.slotsValid && !d.carriers.isEmpty && d.acyclic && decide d.carriers.Nodup

end AlgDesc

/-- `CFG.ALG_TABLE`: 32 descriptions, indexed 0..31 (43_algorithm.md R170). -/
structure AlgTable where
  rows : List AlgDesc
  size : rows.length = 32
deriving DecidableEq, Repr

namespace AlgTable

/-- The description at an index 0..31. -/
def get (t : AlgTable) (idx : Fin 32) : AlgDesc := t.rows[idx.val]'(by have := t.size; omega)

/-- The table whose row `k` is `f k`. -/
def ofFn (f : Nat → AlgDesc) : AlgTable := ⟨(List.range 32).map f, by simp⟩

/-- Every row meets 43_algorithm.md R172. -/
def admissible (t : AlgTable) : Bool := t.rows.all AlgDesc.admissible

/-- A table of one bare carrier in every row: it stands in for an open table that is not admissible, so that the
table of the reset state is admissible whatever the open value is (log entry 2). -/
def oneCarrier : AlgTable := ofFn fun _ => ⟨[], [1], none⟩

/-- Rows 0 to 15 of the candidate table `ALG_TABLE_DX7` (43_algorithm.md R174, from general knowledge, not
normative). -/
def dx7Low : List AlgDesc :=
  [⟨[(1, 2), (3, 4), (4, 5), (5, 6)], [1, 3], some 6⟩,
   ⟨[(1, 2), (3, 4), (4, 5), (5, 6)], [1, 3], some 2⟩,
   ⟨[(1, 2), (2, 3), (4, 5), (5, 6)], [1, 4], some 6⟩,
   ⟨[(1, 2), (2, 3), (4, 5), (5, 6)], [1, 4], some 6⟩,
   ⟨[(1, 2), (3, 4), (5, 6)], [1, 3, 5], some 6⟩,
   ⟨[(1, 2), (3, 4), (5, 6)], [1, 3, 5], some 6⟩,
   ⟨[(1, 2), (3, 4), (3, 5), (5, 6)], [1, 3], some 6⟩,
   ⟨[(1, 2), (3, 4), (3, 5), (5, 6)], [1, 3], some 4⟩,
   ⟨[(1, 2), (3, 4), (3, 5), (5, 6)], [1, 3], some 2⟩,
   ⟨[(1, 2), (2, 3), (4, 5), (4, 6)], [1, 4], some 3⟩,
   ⟨[(1, 2), (2, 3), (4, 5), (4, 6)], [1, 4], some 6⟩,
   ⟨[(1, 2), (3, 4), (3, 5), (3, 6)], [1, 3], some 2⟩,
   ⟨[(1, 2), (3, 4), (3, 5), (3, 6)], [1, 3], some 6⟩,
   ⟨[(1, 2), (3, 4), (4, 5), (4, 6)], [1, 3], some 6⟩,
   ⟨[(1, 2), (3, 4), (4, 5), (4, 6)], [1, 3], some 2⟩,
   ⟨[(1, 2), (1, 3), (1, 5), (3, 4), (5, 6)], [1], some 6⟩]

/-- Rows 16 to 31 of the candidate table `ALG_TABLE_DX7`. -/
def dx7High : List AlgDesc :=
  [⟨[(1, 2), (1, 3), (1, 5), (3, 4), (5, 6)], [1], some 2⟩,
   ⟨[(1, 2), (1, 3), (1, 4), (4, 5), (5, 6)], [1], some 3⟩,
   ⟨[(1, 2), (2, 3), (4, 6), (5, 6)], [1, 4, 5], some 6⟩,
   ⟨[(1, 3), (2, 3), (4, 5), (4, 6)], [1, 2, 4], some 3⟩,
   ⟨[(1, 3), (2, 3), (4, 6), (5, 6)], [1, 2, 4, 5], some 3⟩,
   ⟨[(1, 2), (3, 6), (4, 6), (5, 6)], [1, 3, 4, 5], some 6⟩,
   ⟨[(2, 3), (4, 6), (5, 6)], [1, 2, 4, 5], some 6⟩,
   ⟨[(3, 6), (4, 6), (5, 6)], [1, 2, 3, 4, 5], some 6⟩,
   ⟨[(4, 6), (5, 6)], [1, 2, 3, 4, 5], some 6⟩,
   ⟨[(2, 3), (4, 5), (4, 6)], [1, 2, 4], some 6⟩,
   ⟨[(2, 3), (4, 5), (4, 6)], [1, 2, 4], some 3⟩,
   ⟨[(1, 2), (3, 4), (4, 5)], [1, 3, 6], some 5⟩,
   ⟨[(3, 4), (5, 6)], [1, 2, 3, 5], some 6⟩,
   ⟨[(3, 4), (4, 5)], [1, 2, 3, 6], some 5⟩,
   ⟨[(5, 6)], [1, 2, 3, 4, 5], some 6⟩,
   ⟨[], [1, 2, 3, 4, 5, 6], some 6⟩]

/-- The candidate table of 43_algorithm.md R174: a value the parameter may be given for a test, never the value of the
reset state. -/
def dx7 : AlgTable := ⟨dx7Low ++ dx7High, by decide⟩

end AlgTable

/-! ### `CFG.NUM` -/

/-- `CFG.NUM`, the record of total functions on `Num` and of constants that 00_scope.md R11 lists. `sin2piOpen` and
`exp2Open` are the two functions of R12 before their named properties are put on them (`NumOps.sin2pi`,
`NumOps.exp2`). -/
structure NumOps where
  add : Number → Number → Number
  sub : Number → Number → Number
  mul : Number → Number → Number
  div : Number → Number → Number
  max : Number → Number → Number
  lt : Number → Number → Bool
  le : Number → Number → Bool
  ge : Number → Number → Bool
  gt : Number → Number → Bool
  eq : Number → Number → Bool
  ofInt : Int → Number
  ofBits : Word → Number
  toBits : Number → Word
  floor : Number → Number
  isFinite : Number → Bool
  sin2piOpen : Number → Number
  exp2Open : Number → Number
  /-- 0 -/
  zero : Number
  /-- 0.25, `CFG.FB_GAIN` among its uses -/
  quarter : Number
  /-- 0.5 -/
  half : Number
  /-- 0.75 -/
  threeQuarters : Number
  /-- 1 -/
  one : Number
  /-- -1 -/
  negOne : Number
  /-- 2 -/
  two : Number
  /-- 12 -/
  twelve : Number
  /-- 100 -/
  hundred : Number
  /-- 127, `CFG.VEL_FULL` -/
  velFull : Number
  /-- 440, `CFG.A4_HZ` -/
  a4Hz : Number
  /-- `TWO_PI` -/
  twoPi : Number
deriving Inhabited

/-- Which value the open parameter `CFG.NUM` has (92_eei_decisions.md D5): its default binary32, or any other
(log entry 3). `NumFormat.ops` is the record it stands for. -/
inductive NumFormat where
  | binary32
  | other (k : Nat)
deriving DecidableEq, Repr, Inhabited

/-- The open fields of `CFG` that are plain data (00_scope.md R6). A machine's configuration is part of its state
record, where no command writes it, so that a claim about every state is a claim about every configuration
(log entry 1). -/
structure Config where
  /-- `NUM` (00_scope.md R11) -/
  num : NumFormat
  /-- `SMOOTH_COEF` (42_operator.md R147) -/
  smoothCoef : Number
  /-- `ALG_TABLE` (43_algorithm.md R172, R173) -/
  algTable : AlgTable
  /-- `ENV_SETPARAM_REARMS_RELEASE` (40_envelope.md R112) -/
  rearmsRelease : Bool
deriving DecidableEq, Repr

/-- The number formats other than binary32: any operations and constants at all, on any numbering of the format's
numbers (93_implementation_defined.md U3). -/
opaque Config.numOpen : Nat → NumOps

/-- `SIN2PI` of binary32 before the named properties of 00_scope.md R12 are put on it: any function at all. -/
opaque Config.sin2piOpen : Num32 → Num32

/-- `EXP2` of binary32 before the named properties of 00_scope.md R12 are put on it: any function at all. -/
opaque Config.exp2Open : Num32 → Num32

/-- Which bit pattern carries a NaN (log entry 4): any word; `Num32.toBits` keeps it a NaN pattern. -/
opaque Config.nanWordOpen : Word

/-- The 32 descriptions of `CFG.ALG_TABLE`, which the source does not contain (43_algorithm.md R173): any data. -/
opaque Config.algTableOpen : Nat → AlgDesc

/-- What `FWORD` captures when the command pointer stands where the stream holds no whole header word, from the
fragment's bytes (20_memory.md R64; log entry 7): the spec names no value. -/
opaque Config.noHeaderWord : List Byte → Word

/-- The algorithm table of the reset state: the open one where it meets 43_algorithm.md R172, which is all a model may
assume of it. -/
def Config.algTable32 : AlgTable :=
  if (AlgTable.ofFn Config.algTableOpen).admissible then AlgTable.ofFn Config.algTableOpen else AlgTable.oneCarrier

/-- The configuration of the reset state: the spec's defaults (00_scope.md R6: binary32, `SMOOTH_COEF`
1/32, `ENV_SETPARAM_REARMS_RELEASE` false) and the open table. -/
def Config.default : Config :=
  ⟨.binary32, .b32 (.fin false ⟨0x3D000000, by decide⟩), Config.algTable32, false⟩

/-- `CFG.NVOICES` of the reset state: the spec's default (00_scope.md R6). -/
def Config.defaultVoices : Nat := 8

end Sys2Proof
end

