-- ==== Sys2Proof/Machine/Num.lean ====
section
/-! DEFINITION. Numbers (00_scope.md R11 to R13): the operations of IEEE 754 binary32 with round-to-nearest-even, the
default of `CFG.NUM`; the record a format stands for; and what R12 and R13 build on any format's record. A finite
binary32 number is an integer multiple of 2^-149; an operation computes its exact result and rounds it once
(`roundRatio`). -/

namespace Sys2Proof

namespace Num32

/-- The word that carries a number: sign bit 31, exponent bits 30:23, fraction bits 22:0 (00_scope.md R11). -/
def ofBits (w : Word) : Num32 :=
  let neg := decide (2 ^ 31 ≤ w.toNat)
  let m := w.toNat % 2 ^ 31
  if h : m < 0x7F800000 then .fin neg ⟨m, h⟩
  else if m = 0x7F800000 then .inf neg
  else .nan

/-- A word is a NaN pattern: exponent all ones, fraction not zero. -/
def isNanWord (w : Word) : Bool := decide (0x7F800000 < w.toNat % 2 ^ 31)

/-- The pattern a NaN travels as: the open word where that is a NaN pattern (log entry 4). -/
def nanWord : Word := if isNanWord Config.nanWordOpen then Config.nanWordOpen else 0x7FC00000#32

/-- `NUM.toBits` (00_scope.md R11). -/
def toBits : Num32 → Word
  | .nan => nanWord
  | .inf neg => BitVec.ofNat 32 (0x7F800000 + (if neg then 2 ^ 31 else 0))
  | .fin neg mag => BitVec.ofNat 32 (mag.val + (if neg then 2 ^ 31 else 0))

/-- A magnitude code as a multiple of 2^-149. -/
def magUnits (mag : Nat) : Nat :=
  if mag < 2 ^ 23 then mag else (2 ^ 23 + mag % 2 ^ 23) <<< (mag / 2 ^ 23 - 1)

/-- The magnitude code nearest to `num / den` units of 2^-149, ties to the even code; a code of 0x7F800000 or more is
an overflow. `k` is the weight of the last place. -/
def roundRatio (num den : Nat) : Nat :=
  let k := Nat.log2 (num / den) - 23
  let d := den <<< k
  let m := num / d
  let r := num % d
  k * 2 ^ 23 + (if d < 2 * r ∨ (2 * r = d ∧ m % 2 = 1) then m + 1 else m)

/-- The number with a sign and a magnitude code, infinite on overflow. -/
def ofMag (neg : Bool) (code : Nat) : Num32 :=
  if h : code < 0x7F800000 then .fin neg ⟨code, h⟩ else .inf neg

/-- One unit is 2^-149: `onePow` units are 1. -/
def onePow : Nat := 1 <<< 149

/-- The exact value of a finite number, in units of 2^-149. -/
def signedUnits (neg : Bool) (mag : Fin 0x7F800000) : Int :=
  if neg then -(magUnits mag.val : Int) else (magUnits mag.val : Int)

/-- Change of sign. -/
def neg : Num32 → Num32
  | .nan => .nan
  | .inf s => .inf (!s)
  | .fin s m => .fin (!s) m

/-- Sum; an exact zero is positive unless both operands are negative. -/
def add : Num32 → Num32 → Num32
  | .nan, _ => .nan
  | _, .nan => .nan
  | .inf s, .inf t => if s = t then .inf s else .nan
  | .inf s, .fin _ _ => .inf s
  | .fin _ _, .inf t => .inf t
  | .fin s m, .fin t n =>
    let x := signedUnits s m + signedUnits t n
    if x = 0 then .fin (s && t) ⟨0, by decide⟩
    else ofMag (decide (x < 0)) (roundRatio x.natAbs 1)

/-- Difference. -/
def sub (a b : Num32) : Num32 := a.add b.neg

/-- Product. -/
def mul : Num32 → Num32 → Num32
  | .nan, _ => .nan
  | _, .nan => .nan
  | .inf s, .inf t => .inf (s != t)
  | .inf s, .fin t n => if n.val = 0 then .nan else .inf (s != t)
  | .fin s m, .inf t => if m.val = 0 then .nan else .inf (s != t)
  | .fin s m, .fin t n => ofMag (s != t) (roundRatio (magUnits m.val * magUnits n.val) onePow)

/-- Quotient. -/
def div : Num32 → Num32 → Num32
  | .nan, _ => .nan
  | _, .nan => .nan
  | .inf _, .inf _ => .nan
  | .inf s, .fin t _ => .inf (s != t)
  | .fin s _, .inf t => .fin (s != t) ⟨0, by decide⟩
  | .fin s m, .fin t n =>
    if n.val = 0 then (if m.val = 0 then .nan else .inf (s != t))
    else ofMag (s != t) (roundRatio (magUnits m.val <<< 149) (magUnits n.val))

/-- The place of a number in the order; none for a NaN. Both zeros have the place 0. -/
def key : Num32 → Option Int
  | .nan => none
  | .inf s => some (if s then -0x7F800000 else 0x7F800000)
  | .fin s m => some (if s then -(m.val : Int) else (m.val : Int))

/-- `a < b`; false where either is a NaN. -/
def lt (a b : Num32) : Bool :=
  match a.key, b.key with
  | some x, some y => decide (x < y)
  | _, _ => false

/-- `a <= b`. -/
def le (a b : Num32) : Bool :=
  match a.key, b.key with
  | some x, some y => decide (x ≤ y)
  | _, _ => false

/-- `a > b`. -/
def gt (a b : Num32) : Bool := b.lt a

/-- `a >= b`. -/
def ge (a b : Num32) : Bool := b.le a

/-- `a = b` as numbers: the two zeros are equal, a NaN equals nothing. -/
def eq (a b : Num32) : Bool :=
  match a.key, b.key with
  | some x, some y => decide (x = y)
  | _, _ => false

/-- `max(a,b)` is `a` if `a >= b` else `b` (00_scope.md R11). -/
def max (a b : Num32) : Num32 := if a.ge b then a else b

/-- `NUM.isFinite`. -/
def isFinite : Num32 → Bool
  | .fin _ _ => true
  | _ => false

/-- The nearest number to an integer; exact for every integer the rules compute (00_scope.md R14). -/
def ofInt (n : Int) : Num32 := ofMag (decide (n < 0)) (roundRatio (n.natAbs <<< 149) 1)

/-- The greatest integer not above the number, exact; the sign of a zero is kept. -/
def floor : Num32 → Num32
  | .nan => .nan
  | .inf s => .inf s
  | .fin s m =>
    let q := magUnits m.val / onePow
    let n := if s = true ∧ magUnits m.val % onePow ≠ 0 then q + 1 else q
    ofMag s (roundRatio (n <<< 149) 1)

/-! ### Constants (00_scope.md R11); 0 and 1 are in Word.lean -/

/-- -1 -/
def negOne : Num32 := ofBits 0xBF800000#32
/-- 0.25, `CFG.FB_GAIN` among its uses -/
def quarter : Num32 := ofBits 0x3E800000#32
/-- 0.5 -/
def half : Num32 := ofBits 0x3F000000#32
/-- 0.75 -/
def threeQuarters : Num32 := ofBits 0x3F400000#32
/-- 2 -/
def two : Num32 := ofBits 0x40000000#32
/-- 12 -/
def twelve : Num32 := ofBits 0x41400000#32
/-- 100 -/
def hundred : Num32 := ofBits 0x42C80000#32
/-- 127, `CFG.VEL_FULL` -/
def velFull : Num32 := ofBits 0x42FE0000#32
/-- 440, `CFG.A4_HZ` -/
def a4Hz : Num32 := ofBits 0x43DC0000#32
/-- `TWO_PI`, the binary32 number nearest to 2π -/
def twoPi : Num32 := ofBits 0x40C90FDB#32

end Num32

/-! ### The record of a format -/

namespace NumOps

/-- A binary32 function of one number on `Num`; a number of another format is no number to it. -/
def lift1 (f : Num32 → Num32) : Number → Number
  | .b32 a => .b32 (f a)
  | .other _ => .b32 .nan

/-- A binary32 function of two numbers on `Num`. -/
def lift2 (f : Num32 → Num32 → Num32) : Number → Number → Number
  | .b32 a, .b32 b => .b32 (f a b)
  | _, _ => .b32 .nan

/-- A binary32 comparison on `Num`. -/
def liftRel (f : Num32 → Num32 → Bool) : Number → Number → Bool
  | .b32 a, .b32 b => f a b
  | _, _ => false

/-- `CFG.NUM` at its default (00_scope.md R11). -/
def binary32 : NumOps where
  add := lift2 Num32.add
  sub := lift2 Num32.sub
  mul := lift2 Num32.mul
  div := lift2 Num32.div
  max := lift2 Num32.max
  lt := liftRel Num32.lt
  le := liftRel Num32.le
  ge := liftRel Num32.ge
  gt := liftRel Num32.gt
  eq := liftRel Num32.eq
  ofInt n := .b32 (.ofInt n)
  ofBits w := .b32 (.ofBits w)
  toBits
    | .b32 a => a.toBits
    | .other _ => Num32.nanWord
  floor := lift1 Num32.floor
  isFinite
    | .b32 a => a.isFinite
    | .other _ => false
  sin2piOpen := lift1 Config.sin2piOpen
  exp2Open := lift1 Config.exp2Open
  zero := .b32 .zero
  quarter := .b32 .quarter
  half := .b32 .half
  threeQuarters := .b32 .threeQuarters
  one := .b32 .one
  negOne := .b32 .negOne
  two := .b32 .two
  twelve := .b32 .twelve
  hundred := .b32 .hundred
  velFull := .b32 .velFull
  a4Hz := .b32 .a4Hz
  twoPi := .b32 .twoPi

/-- `SIN2PI`: 0, 1, 0, -1 at the quarter turns; within [-1, 1] at every finite operand; any value otherwise. Every
function with these properties is this one for some `sin2piOpen` (00_scope.md R12; log entries 3 and 12). -/
def sin2pi (N : NumOps) (p : Number) : Number :=
  if N.eq p N.zero then N.zero
  else if N.eq p N.quarter then N.one
  else if N.eq p N.half then N.zero
  else if N.eq p N.threeQuarters then N.negOne
  else if N.isFinite p && !(N.le N.negOne (N.sin2piOpen p) && N.le (N.sin2piOpen p) N.one) then N.zero
  else N.sin2piOpen p

/-- `EXP2`: 1, 2, 0.5 at 0, 1, -1; above 0 at every operand; any value otherwise. Every function with these properties
is this one for some `exp2Open` (00_scope.md R12; log entries 3 and 12). -/
def exp2 (N : NumOps) (e : Number) : Number :=
  if N.eq e N.zero then N.one
  else if N.eq e N.one then N.two
  else if N.eq e N.negOne then N.half
  else if N.gt (N.exp2Open e) N.zero then N.exp2Open e
  else N.one

/-- `wrap01(x)` is `x - floor(x)`, with a result that rounds to 1 replaced by 0 (00_scope.md R13). -/
def wrap01 (N : NumOps) (x : Number) : Number :=
  let y := N.sub x (N.floor x)
  if N.eq y N.one then N.zero else y

end NumOps

/-- The record that a value of `CFG.NUM` stands for. -/
def NumFormat.ops : NumFormat → NumOps
  | .binary32 => NumOps.binary32
  | .other k => Config.numOpen k

end Sys2Proof
end

