-- ==== Sys2Proof/Machine/State.lean ====
section
/-! DEFINITION. The state of the machine as plain data: every register, flag and array of 10_state.md (R20 to R44), the
configuration and the command stream a run is given (R48, log entries 1 and 5), the two observation traces (R41, R42),
and the state after power-on (R47, 70_reset_and_hazards.md R260). -/

namespace Sys2Proof.Machine

/-- The envelope state register (10_state.md R26). -/
inductive EnvState where
  | idle | attack | decay | sustain | release
deriving DecidableEq, Repr

/-- An envelope `o.env` (10_state.md R22, R25, R26). -/
structure Envelope where
  /-- parameters, seconds and a level (R22) -/
  attack : Number
  decay : Number
  sustain : Number
  release : Number
  /-- rates, level per sample (R25) -/
  attackRate : Number
  decayRate : Number
  relBaseRate : Number
  /-- dynamic state (R26) -/
  state : EnvState
  level : Number
  relStart : Number
  relRate : Number
deriving DecidableEq, Repr

/-- An oscillator `o.osc` (10_state.md R27). -/
structure Oscillator where
  /-- turns, in [0,1) -/
  phase : Number
  /-- turns per sample -/
  inc : Number
  /-- the velocity scale, stored and not applied by the oscillator -/
  amplitude : Number
deriving DecidableEq, Repr

/-- An operator `V[v].op[i]` (10_state.md R21 to R30). -/
structure Operator where
  ratio : Number
  tuning : Number
  level : Number
  modType : ModType
  modIndex : Number
  env : Envelope
  /-- modulators, indices of operators of the same voice, in list order (R23) -/
  mods : List OpIx
  carrier : Bool
  feedback : Bool
  /-- the last MIDI note; `none` is the spec's −1 (R24) -/
  note : Option Note
  baseFreq : Number
  osc : Oscillator
  smoothAmp : Number
  cached : Bool
  cachedSample : Number
  lastSample : Number
  inProgress : Bool
deriving DecidableEq, Repr

/-- The six operators of a voice, indices 0..5 (10_state.md R20). -/
structure Six (α : Type) where
  x0 : α
  x1 : α
  x2 : α
  x3 : α
  x4 : α
  x5 : α
deriving DecidableEq, Repr

/-- A voice `V[v]` (10_state.md R20, R32). -/
structure Voice where
  /-- the assigned MIDI note; `none` is the spec's −1 -/
  note : Option Note
  op : Six Operator
deriving DecidableEq, Repr

/-- The note map `MAP[0..127]`, note number to voice index (10_state.md R33). -/
structure NoteMap where
  cells : List (Option Nat)
  size : cells.length = 128
deriving DecidableEq, Repr

/-- Why the machine would stop with a fault: never. Every fault of the spec sets a sticky bit and execution goes on
(60_exceptions.md R233), and the spec gives every command an effect, so this type has no constructor: no step answers
`fault`. The spec's four faults are `Cause`. -/
inductive Fault where
deriving DecidableEq, Repr

/-- Why a step could be refused. -/
inductive Refusal where
  /-- Raised by `exec` for a command that has no meaning in this model, and by nothing else; safe. No arm of `exec`
  raises it: all thirteen commands have their meaning. -/
  | notModelled (mnemonic : String)
deriving DecidableEq, Repr

/-- The four faults of 60_exceptions.md R231, in the order of their codes 1..4. -/
inductive Cause where
  | illegal | notInitialised | algIndex | noCarrier
deriving DecidableEq, Repr

/-- The whole state (10_state.md R20). -/
structure State where
  /-- the open fields of `CFG`, constant for the life of the hardware (00_scope.md R6; the model's own field) -/
  cfg : Config
  /-- the command stream `prog` (10_state.md R43; a parameter of the run) -/
  prog : List Word
  /-- the 0 to 3 bytes after the last whole word of a byte-carried stream (20_memory.md R64; parameter of the run) -/
  progFrag : List Byte
  /-- the command pointer, a word index into `prog` (R43) -/
  pc : Nat
  /-- the sample rate `FS` in hertz (R40) -/
  fs : Number
  /-- `INIT` (R40) -/
  init : Bool
  /-- `OUT`, the last mixed sample (R41) -/
  out : Number
  /-- the trace of every value written to `OUT`, oldest first (R41, an observation) -/
  outS : List Number
  /-- `QOUT`, the last activity answer (R42) -/
  qout : Bool
  /-- the trace of every activity answer, oldest first (R42, an observation) -/
  outQ : List (VoiceIx × Bool)
  /-- `FAULT`: bit 0 ILLEGAL, bit 1 NOINIT, bit 2 ALGIDX, bit 3 NOCARRIER (R44) -/
  fault : BitVec 4
  /-- `FFIRST`: cause code of the first fault since power-on, 0 = none (R44) -/
  ffirst : Fin 5
  /-- `FPC` (R44) -/
  fpc : Nat
  /-- `FWORD` (R44) -/
  fword : Word
  /-- `MAP` (R33) -/
  noteMap : NoteMap
  /-- the pool `V[0 .. NVOICES-1]`; `CFG.NVOICES` is its length (R20) -/
  voices : List Voice
deriving DecidableEq, Repr

/-- `CFG.NVOICES` (00_scope.md R6). -/
def State.numVoices (s : State) : Nat := s.voices.length

/-- The map with no note mapped. -/
def NoteMap.empty : NoteMap := ⟨List.replicate 128 none, by simp⟩

/-- The functions and constants of the configured number format, `CFG.NUM` (00_scope.md R11). -/
def State.num (s : State) : NumOps := s.cfg.num.ops

/-- The envelope at power-on: parameters attack 0, decay 0, sustain 1, release 0 (10_state.md R47); the dynamic fields,
which have no value then, at what RESET gives them (log entry 6). -/
def Envelope.powerOn (N : NumOps) : Envelope where
  attack := N.zero
  decay := N.zero
  sustain := N.one
  release := N.zero
  attackRate := N.one
  decayRate := N.one
  relBaseRate := N.one
  state := .idle
  level := N.zero
  relStart := N.zero
  relRate := N.zero

/-- The operator at power-on: ratio 1, tuning 0, level 1, PM, index 1, no routing (10_state.md R47); the dynamic fields
at what RESET gives them (log entry 6). -/
def Operator.powerOn (N : NumOps) : Operator where
  ratio := N.one
  tuning := N.zero
  level := N.one
  modType := .pm
  modIndex := N.one
  env := Envelope.powerOn N
  mods := []
  carrier := false
  feedback := false
  note := none
  baseFreq := N.zero
  osc := ⟨N.zero, N.zero, N.zero⟩
  smoothAmp := N.zero
  cached := false
  cachedSample := N.zero
  lastSample := N.zero
  inProgress := false

/-- The voice at power-on. -/
def Voice.powerOn (N : NumOps) : Voice :=
  ⟨none, ⟨.powerOn N, .powerOn N, .powerOn N, .powerOn N, .powerOn N, .powerOn N⟩⟩

/-- The hardware reset of a machine with configuration `cfg` and a pool of `nv` voices (10_state.md R47, second column;
70_reset_and_hazards.md R260). -/
def State.powerOn (cfg : Config) (nv : Nat) : State where
  cfg := cfg
  prog := []
  progFrag := []
  pc := 0
  fs := cfg.num.ops.zero
  init := false
  out := cfg.num.ops.zero
  outS := []
  qout := false
  outQ := []
  fault := 0#4
  ffirst := 0
  fpc := 0
  fword := 0#32
  noteMap := NoteMap.empty
  voices := List.replicate nv (Voice.powerOn cfg.num.ops)

/-- The machine right after power-on, with the spec's default configuration and no command in the stream. -/
def State.reset : State := State.powerOn Config.default Config.defaultVoices

end Sys2Proof.Machine
end

