-- ==== Sys2Proof/Machine/Flags.lean ====
section
/-! DEFINITION. The flags of the machine. It has no condition codes (10_state.md R45); its status register is the sticky
`FAULT` with the first-fault registers (R44), described in 60_exceptions.md R231. -/

namespace Sys2Proof.Machine

/-- The cause code of a fault (60_exceptions.md R231). -/
def Cause.code : Cause → Fin 5
  | .illegal => 1
  | .notInitialised => 2
  | .algIndex => 3
  | .noCarrier => 4

/-- The `FAULT` bit of a fault, bit `code - 1` (60_exceptions.md R231, R233). -/
def Cause.mask : Cause → BitVec 4
  | .illegal => 0b0001#4
  | .notInitialised => 0b0010#4
  | .algIndex => 0b0100#4
  | .noCarrier => 0b1000#4

/-- The sticky bit of a cause, as the host reads it. -/
def State.faultBit (s : State) (c : Cause) : Bool := decide (s.fault &&& c.mask ≠ 0#4)

/-- `FAULT` with the bit of a cause set; a bit already set stays set (60_exceptions.md R234). -/
def setFaultBit (f : BitVec 4) (c : Cause) : BitVec 4 := f ||| c.mask

end Sys2Proof.Machine
end

