-- ==== Sys2Proof/Machine/Operands.lean ====
section
/-! DEFINITION. Reaching the state by operand: operator slots, note map cells, voices and operators of the pool
(20_memory.md R60), and payload numbers (30_encoding.md R82). -/

namespace Sys2Proof.Machine

/-! ### Operator slots 0..5 -/

namespace Six

variable {α β : Type}

/-- The element in slot `i`. -/
def get (x : Six α) (i : OpIx) : α :=
  match i with
  | 0 => x.x0
  | 1 => x.x1
  | 2 => x.x2
  | 3 => x.x3
  | 4 => x.x4
  | 5 => x.x5

/-- The same six with slot `i` replaced. -/
def set (x : Six α) (i : OpIx) (a : α) : Six α :=
  match i with
  | 0 => { x with x0 := a }
  | 1 => { x with x1 := a }
  | 2 => { x with x2 := a }
  | 3 => { x with x3 := a }
  | 4 => { x with x4 := a }
  | 5 => { x with x5 := a }

/-- Slot `i` changed by `f`. -/
def modify (x : Six α) (i : OpIx) (f : α → α) : Six α := x.set i (f (x.get i))

/-- Every slot changed by `f`. -/
def map (f : α → β) (x : Six α) : Six β := ⟨f x.x0, f x.x1, f x.x2, f x.x3, f x.x4, f x.x5⟩

/-- The six in ascending index. -/
def toList (x : Six α) : List α := [x.x0, x.x1, x.x2, x.x3, x.x4, x.x5]

end Six

/-- The operator indices 0..5 in ascending order. -/
def opIndices : List OpIx := [0, 1, 2, 3, 4, 5]

/-! ### The note map (10_state.md R33) -/

namespace NoteMap

/-- `MAP[n]`. -/
def get (m : NoteMap) (n : Note) : Option Nat := m.cells[n.val]'(by have := m.size; omega)

/-- `MAP[n] <- x`. -/
def set (m : NoteMap) (n : Note) (x : Option Nat) : NoteMap := ⟨m.cells.set n.val x, by simp [m.size]⟩

/-- The eviction loop of 45_voicehandler.md R202: every note but `keep` that is mapped to voice `v` is unmapped. -/
def evict (m : NoteMap) (keep : Note) (v : Nat) : NoteMap :=
  ⟨m.cells.mapIdx fun n c => if n ≠ keep.val ∧ c = some v then none else c, by simp [m.size]⟩

end NoteMap

/-! ### Voices and operators of the pool -/

/-- Voice `v` changed by `f`; the pool keeps its size. -/
def State.modifyVoice (s : State) (v : Nat) (f : Voice → Voice) : State :=
  { s with voices := s.voices.modify v f }

/-- Operator `i` of a voice changed by `f`. -/
def Voice.modifyOp (v : Voice) (i : OpIx) (f : Operator → Operator) : Voice :=
  { v with op := v.op.modify i f }

/-- Every operator of a voice changed by `f`. -/
def Voice.mapOps (v : Voice) (f : Operator → Operator) : Voice :=
  { v with op := v.op.map f }

/-- Operator `V[v].op[i]` changed by `f`. -/
def State.modifyOp (s : State) (v : Nat) (i : OpIx) (f : Operator → Operator) : State :=
  s.modifyVoice v fun vc => vc.modifyOp i f

/-- Every voice changed by `f`. -/
def State.mapVoices (s : State) (f : Voice → Voice) : State :=
  { s with voices := s.voices.map f }

/-- `V[v]`, if the pool has a voice `v`. -/
def State.voice? (s : State) (v : Nat) : Option Voice := s.voices[v]?

/-- `V[v].op[i]`, if the pool has a voice `v`. -/
def State.operator? (s : State) (v : Nat) (i : OpIx) : Option Operator :=
  (s.voice? v).map fun vc => vc.op.get i

/-- A voice operand that names a voice of the pool (30_encoding.md R90). -/
def State.hasVoice (s : State) (v : VoiceIx) : Bool := decide (v.val < s.numVoices)

end Sys2Proof.Machine
end

