-- ==== Sys2Proof/Machine/Ops.lean ====
section
/-! DEFINITION. The operations every command shares: advancing the command pointer (10_state.md R43), raising a fault
(60_exceptions.md R233; there is no handler to enter and nothing to return from, R234, R243), and the checks a command
makes before its own rule (30_encoding.md R94). -/

namespace Sys2Proof.Machine

/-- The answer of a command or a step in this machine. -/
abbrev Outcome := Host.Outcome State Fault Refusal

/-- `pc <- pc + L` (10_state.md R43). -/
def State.advance (s : State) (len : Nat) : State := { s with pc := s.pc + len }

/-- The header word of the command at `pc`, for `FWORD`; open where the stream holds no whole word there
(log entry 7). -/
def State.headerWord (s : State) : Word :=
  match s.prog[s.pc]? with
  | some h => h
  | none => Config.noHeaderWord s.progFrag

/-- `raise F`: the first fault since power-on is recorded, the sticky bit is set, and execution goes on
(60_exceptions.md R233). -/
def State.raise (s : State) (c : Cause) : State :=
  { s with
    ffirst := if s.ffirst = 0 then c.code else s.ffirst
    fpc := if s.ffirst = 0 then s.pc else s.fpc
    fword := if s.ffirst = 0 then s.headerWord else s.fword
    fault := setFaultBit s.fault c }

/-- A command of length `len` after its header was accepted: check (4) for the voice operand, if it has one, then check
(5) of 30_encoding.md R94, then the command's own rule `body`, then the advance of `pc`. A command that fails a check
does nothing else but advance `pc`. -/
def runCommand (len : Nat) (voiceOk : Bool) (body : State → State) (s : State) : Outcome :=
  if voiceOk = false then .next ((s.raise .illegal).advance len)
  else if s.init = false then .next ((s.raise .notInitialised).advance len)
  else .next ((body s).advance len)

end Sys2Proof.Machine
end

