-- ==== Sys2Proof/Machine/Envelope.lean ====
section
/-! DEFINITION. The Envelope unit (40_envelope.md) and the command SETENV. `N` is `CFG.NUM` and `fs`
the global sample rate `FS`. -/

namespace Sys2Proof.Machine

namespace Envelope

/-- `rateAttack` (40_envelope.md R111). -/
def rateAttack (N : NumOps) (fs : Number) (e : Envelope) : Number :=
  if N.gt e.attack N.zero then N.div N.one (N.mul e.attack fs) else N.one

/-- `rateDecay` (40_envelope.md R111). -/
def rateDecay (N : NumOps) (fs : Number) (e : Envelope) : Number :=
  if N.gt e.decay N.zero then N.div (N.sub N.one e.sustain) (N.mul e.decay fs) else N.one

/-- `rateRelBase` (40_envelope.md R111). -/
def rateRelBase (N : NumOps) (fs : Number) (e : Envelope) : Number :=
  if N.gt e.release N.zero then N.div N.one (N.mul e.release fs) else N.one

/-- `envRecompute`; `rearms` is `CFG.ENV_SETPARAM_REARMS_RELEASE` (40_envelope.md R112). -/
def recompute (N : NumOps) (rearms : Bool) (fs : Number) (e : Envelope) : Envelope :=
  { e with
    attackRate := e.rateAttack N fs
    decayRate := e.rateDecay N fs
    relBaseRate := e.rateRelBase N fs
    relRate := if rearms then e.rateRelBase N fs else e.relRate }

/-- `envSetParameters` (40_envelope.md R112). -/
def setParameters (N : NumOps) (rearms : Bool) (fs : Number) (e : Envelope) (a d s r : Number) : Envelope :=
  recompute N rearms fs { e with attack := a, decay := d, sustain := s, release := r }

/-- `envNoteOn` (40_envelope.md R113). -/
def noteOn (N : NumOps) (e : Envelope) : Envelope :=
  if N.gt e.attack N.zero then
    { e with state := .attack, level := if e.state = .idle then N.zero else e.level }
  else if N.gt e.decay N.zero then { e with state := .decay, level := N.one }
  else { e with state := .sustain, level := e.sustain }

/-- `envNoteOff` (40_envelope.md R114). -/
def noteOff (N : NumOps) (fs : Number) (e : Envelope) : Envelope :=
  if e.state = .idle then e
  else if N.gt e.release N.zero then
    { e with relStart := e.level, state := .release, relRate := N.div e.level (N.mul e.release fs) }
  else { e with relStart := e.level, state := .idle, level := N.zero }

/-- `envNext` (40_envelope.md R115); the value it returns is the level afterwards. Each Attack, Decay and Release step
is the one rounded sum or difference of R115's pseudocode, so in binary32 a long stage can end further from its stated
time than R118 (a)'s "± one sample"; the model follows R115 there (DESIGN CHOICE, log entry 19). -/
def next (N : NumOps) (e : Envelope) : Envelope :=
  match e.state with
  | .idle => { e with level := N.zero }
  | .attack =>
    let l := N.add e.level e.attackRate
    if N.ge l N.one then { e with level := N.one, state := if N.gt e.decay N.zero then .decay else .sustain }
    else { e with level := l }
  | .decay =>
    let l := N.sub e.level e.decayRate
    if N.le l e.sustain then { e with level := e.sustain, state := .sustain }
    else { e with level := l }
  | .sustain => { e with level := e.sustain }
  | .release =>
    let l := N.sub e.level e.relRate
    if N.le l N.zero then { e with level := N.zero, state := .idle }
    else { e with level := l }

/-- `envIsActive` (40_envelope.md R116). -/
def isActive (e : Envelope) : Bool := decide (e.state ≠ .idle)

/-- `envReset` (40_envelope.md R117). -/
def reset (N : NumOps) (rearms : Bool) (fs : Number) (e : Envelope) : Envelope :=
  recompute N rearms fs { e with state := .idle, level := N.zero, relStart := N.zero, relRate := N.zero }

end Envelope

/-- The effect of SETENV on the addressed operator (40_envelope.md R119). -/
def setEnvelope (N : NumOps) (rearms : Bool) (fs a d s r : Number) (o : Operator) : Operator :=
  { o with env := o.env.setParameters N rearms fs a d s r }

/-- SETENV `v`, `i`, `attack`, `decay`, `sustain`, `release` (40_envelope.md R119). -/
def execSetenv (v : VoiceIx) (i : OpIx) (attack decay sustain release : Word) (s : State) : Outcome :=
  runCommand 5 (s.hasVoice v)
    (fun s => s.modifyOp v.val i
      (setEnvelope s.num s.cfg.rearmsRelease s.fs (s.num.ofBits attack) (s.num.ofBits decay) (s.num.ofBits sustain)
        (s.num.ofBits release))) s

end Sys2Proof.Machine
end

