-- ==== Sys2Proof/Machine/Oscillator.lean ====
section
/-! DEFINITION. The Oscillator unit (41_oscillator.md): phase accumulator with phase modulation. `N` is
`CFG.NUM`. -/

namespace Sys2Proof.Machine.Oscillator

/-- `oscSetFrequency` (41_oscillator.md R130). -/
def setFrequency (N : NumOps) (fs : Number) (osc : Oscillator) (f : Number) : Oscillator :=
  { osc with inc := N.div f fs }

/-- The value `oscNext` returns for a phase offset in radians (41_oscillator.md R131). -/
def read (N : NumOps) (osc : Oscillator) (off : Number) : Number :=
  N.sin2pi (N.wrap01 (N.add osc.phase (N.div off N.twoPi)))

/-- The phase advance of `oscNext` (41_oscillator.md R131). -/
def step (N : NumOps) (osc : Oscillator) : Oscillator :=
  { osc with phase := N.wrap01 (N.add osc.phase osc.inc) }

/-- `oscNext`: the modulated read, then the advance of the unmodulated phase (41_oscillator.md R131, R132). -/
def next (N : NumOps) (osc : Oscillator) (off : Number) : Number × Oscillator := (osc.read N off, osc.step N)

/-- `oscReset` (41_oscillator.md R134). -/
def reset (N : NumOps) : Oscillator := ⟨N.zero, N.zero, N.zero⟩

end Sys2Proof.Machine.Oscillator
end

