-- ==== Sys2Proof/Machine/Operator.lean ====
section
/-! DEFINITION. The Operator unit (42_operator.md): base frequency, notes, retuning, the modulation-graph evaluator, and
the commands SETRATIO, SETLEVEL, SETTUNE, SETMODE, SETMIDX. `N` is `CFG.NUM` and `fs` the global sample rate `FS`. -/

namespace Sys2Proof.Machine

namespace Operator

/-- `opBaseFreq` for the note `n` (42_operator.md R142); `A4_NOTE` is 69. -/
def baseFreqOf (N : NumOps) (o : Operator) (n : Note) : Number :=
  let x := N.div (N.add (N.ofInt ((n.val : Int) - 69)) o.tuning) N.twelve
  N.mul (N.mul o.ratio N.a4Hz) (N.exp2 x)

/-- The common tail of note-on and retune: store the base frequency and push it to the oscillator
(42_operator.md R143, R149). -/
def pushBaseFreq (N : NumOps) (fs : Number) (o : Operator) (n : Note) : Operator :=
  { o with baseFreq := o.baseFreqOf N n, osc := o.osc.setFrequency N fs (o.baseFreqOf N n) }

/-- `opNoteOn` (42_operator.md R143). -/
def noteOn (N : NumOps) (fs : Number) (o : Operator) (note : Note) (vel : Velocity) : Operator :=
  let p := pushBaseFreq N fs { o with note := some note } note
  { p with
    osc := { p.osc with amplitude := N.div (N.ofInt vel.val) N.velFull }
    env := p.env.noteOn N
    lastSample := N.zero
    cached := false }

/-- `opNoteOff` (42_operator.md R144). -/
def noteOff (N : NumOps) (fs : Number) (o : Operator) : Operator := { o with env := o.env.noteOff N fs }

/-- `opResetCache` (42_operator.md R145). -/
def resetCache (o : Operator) : Operator := { o with cached := false }

/-- `opResetRouting` (42_operator.md R148). -/
def resetRouting (o : Operator) : Operator := { o with mods := [], carrier := false, feedback := false }

/-- `opAddModOperator` (42_operator.md R148). -/
def addModOperator (o : Operator) (j : OpIx) : Operator := { o with mods := o.mods ++ [j] }

/-- `opRetune` (42_operator.md R149). -/
def retune (N : NumOps) (fs : Number) (o : Operator) : Operator :=
  match o.note with
  | none => o
  | some n => o.pushBaseFreq N fs n

/-- `opReset` (42_operator.md R155). -/
def reset (N : NumOps) (rearms : Bool) (fs : Number) (o : Operator) : Operator :=
  { o with
    note := none
    baseFreq := N.zero
    env := o.env.reset N rearms fs
    osc := Oscillator.reset N
    smoothAmp := N.zero
    cached := false
    cachedSample := N.zero
    lastSample := N.zero
    inProgress := false }

/-- `smooth`, with coefficient `CFG.SMOOTH_COEF` (42_operator.md R147). -/
def smooth (N : NumOps) (coef s target : Number) : Number := N.add s (N.mul coef (N.sub target s))

/-- The feedback term with which the modulation sum starts (42_operator.md R146). -/
def feedbackTerm (N : NumOps) (o : Operator) : Number :=
  if o.feedback then N.add N.zero (N.mul o.lastSample N.quarter) else N.zero

/-- The oscillator's part of an evaluation with modulation sum `modSum`: FM retunes and reads without an offset, PM
reads with the offset `modIndex * modSum` radians (42_operator.md R146). -/
def oscillate (N : NumOps) (fs : Number) (o : Operator) (modSum : Number) : Number × Oscillator :=
  match o.modType with
  | .fm =>
    let dev := N.mul (N.mul o.modIndex modSum) o.baseFreq
    (o.osc.setFrequency N fs (N.max N.zero (N.add o.baseFreq dev))).next N N.zero
  | .pm => o.osc.next N (N.mul o.modIndex modSum)

end Operator

/-- What the evaluator needs of the global state: `CFG.NUM`, `CFG.SMOOTH_COEF` and `FS`. -/
structure EvalEnv where
  num : NumOps
  coef : Number
  fs : Number

/-- The rest of the evaluator's body once the modulators are summed: envelope, smoothing, oscillator, cache and feedback
memory (42_operator.md R146). The output is `cachedSample` afterwards. -/
def Operator.produce (c : EvalEnv) (o : Operator) (modSum : Number) : Operator :=
  let N := c.num
  let env := o.env.next N
  let amp := smooth N c.coef o.smoothAmp (N.mul (N.mul o.osc.amplitude o.level) env.level)
  let r := o.oscillate N c.fs modSum
  let out := N.mul r.1 amp
  { o with
    env := env
    smoothAmp := amp
    osc := r.2
    cachedSample := out
    lastSample := N.div (N.add o.lastSample out) N.two
    cached := true
    inProgress := false }

/-- The evaluator environment of a state. -/
def State.evalEnv (s : State) : EvalEnv := ⟨s.num, s.cfg.smoothCoef, s.fs⟩

/-- The modulation sum: the feedback term, then every modulator's sample from `call`, added in list order, the operators
threaded through (42_operator.md R146). -/
def sumModulators (N : NumOps) (call : Six Operator → OpIx → Number × Six Operator) (mods : List OpIx)
    (start : Number × Six Operator) : Number × Six Operator :=
  mods.foldl (fun acc j => let y := call acc.2 j; (N.add acc.1 y.1, y.2)) start

/-- The evaluator's text, with `call` for its calls of itself (42_operator.md R146). -/
def sampleBody (c : EvalEnv) (call : Six Operator → OpIx → Number × Six Operator) (ops : Six Operator) (i : OpIx) :
    Number × Six Operator :=
  let o := ops.get i
  if o.cached then (o.cachedSample, ops)
  else if o.inProgress then (o.lastSample, ops)
  else
    let r := sumModulators c.num call o.mods (o.feedbackTerm c.num, ops.set i { o with inProgress := true })
    let o' := (r.2.get i).produce c r.1
    (o'.cachedSample, r.2.set i o')

/-- The evaluator `opGetCachedSample(v, i)` on the six operators of one voice (42_operator.md R146): the returned sample
and the operators afterwards. The first argument bounds the depth of the recursion; `evalFuel` is above every depth it
reaches (R156), so a call of a command never meets the bound. -/
def getSampleFuel (c : EvalEnv) : Nat → Six Operator → OpIx → Number × Six Operator
  | 0, ops, i => ((ops.get i).lastSample, ops)
  | n + 1, ops, i => sampleBody c (fun ops j => getSampleFuel c n ops j) ops i

/-- One more than the number of operators whose body a call can enter (42_operator.md R156). -/
def evalFuel : Nat := 7

/-- `opGetCachedSample` (42_operator.md R146). -/
def getSample (c : EvalEnv) (ops : Six Operator) (i : OpIx) : Number × Six Operator :=
  getSampleFuel c evalFuel ops i

/-! ### Commands -/

/-- SETRATIO `v`, `i`, `ratio` (42_operator.md R150). -/
def execSetratio (v : VoiceIx) (i : OpIx) (ratio : Word) (s : State) : Outcome :=
  runCommand 2 (s.hasVoice v)
    (fun s => s.modifyOp v.val i fun o => Operator.retune s.num s.fs { o with ratio := s.num.ofBits ratio }) s

/-- SETLEVEL `v`, `i`, `level` (42_operator.md R151). -/
def execSetlevel (v : VoiceIx) (i : OpIx) (level : Word) (s : State) : Outcome :=
  runCommand 2 (s.hasVoice v)
    (fun s => s.modifyOp v.val i fun o => { o with level := s.num.ofBits level }) s

/-- SETTUNE `v`, `i`, `coarse`, `fine` (42_operator.md R152). -/
def execSettune (v : VoiceIx) (i : OpIx) (coarse fine : Word) (s : State) : Outcome :=
  runCommand 3 (s.hasVoice v)
    (fun s => s.modifyOp v.val i fun o =>
      Operator.retune s.num s.fs
        { o with tuning := s.num.add (s.num.ofBits coarse) (s.num.div (s.num.ofBits fine) s.num.hundred) }) s

/-- SETMODE `v`, `i`, `mode` (42_operator.md R153). -/
def execSetmode (v : VoiceIx) (i : OpIx) (mode : ModType) (s : State) : Outcome :=
  runCommand 1 (s.hasVoice v)
    (fun s => s.modifyOp v.val i fun o =>
      match mode with
      | .pm => { o with modType := .pm, osc := o.osc.setFrequency s.num s.fs o.baseFreq }
      | .fm => { o with modType := .fm }) s

/-- SETMIDX `v`, `i`, `index` (42_operator.md R154). -/
def execSetmidx (v : VoiceIx) (i : OpIx) (index : Word) (s : State) : Outcome :=
  runCommand 2 (s.hasVoice v)
    (fun s => s.modifyOp v.val i fun o => { o with modIndex := s.num.ofBits index }) s

end Sys2Proof.Machine
end

