-- ==== Sys2Proof/Machine/Algorithm.lean ====
section
/-! DEFINITION. The AlgorithmTable unit (43_algorithm.md): wiring, and the command SETALG. -/

namespace Sys2Proof.Machine

/-- Wire one edge: an edge with an index outside 1..6 is skipped (43_algorithm.md R175, 42_operator.md R141). -/
def wireEdge (ops : Six Operator) (e : Int × Int) : Six Operator :=
  match slotIndex e.1, slotIndex e.2 with
  | some m, some j => ops.modify m fun o => o.addModOperator j
  | _, _ => ops

/-- Mark one carrier; an index outside 1..6 is skipped (43_algorithm.md R175). -/
def wireCarrier (ops : Six Operator) (c : Int) : Six Operator :=
  match slotIndex c with
  | some m => ops.modify m fun o => { o with carrier := true }
  | none => ops

/-- Mark the feedback operator, if there is one (43_algorithm.md R175). -/
def wireFeedback (ops : Six Operator) (f : Option Int) : Six Operator :=
  match f with
  | none => ops
  | some k =>
    match slotIndex k with
    | some m => ops.modify m fun o => { o with feedback := true }
    | none => ops

/-- The wiring of `setAlgorithm` for a description already looked up (43_algorithm.md R175). -/
def wire (d : AlgDesc) (ops : Six Operator) : Six Operator :=
  wireFeedback (d.carriers.foldl wireCarrier (d.edges.foldl wireEdge (ops.map Operator.resetRouting))) d.feedback

/-- `setAlgorithm(v, idx)`: an index of 32 or more raises AlgIndex and writes nothing else (43_algorithm.md R175,
60_exceptions.md R237). -/
def setAlgorithm (v : VoiceIx) (idx : AlgIx) (s : State) : State :=
  if h : idx.val < 32 then
    s.modifyVoice v.val fun vc => { vc with op := wire (s.cfg.algTable.get ⟨idx.val, h⟩) vc.op }
  else s.raise .algIndex

/-- SETALG `v`, `alg` (43_algorithm.md R176). -/
def execSetalg (v : VoiceIx) (alg : AlgIx) (s : State) : Outcome :=
  runCommand 1 (s.hasVoice v) (setAlgorithm v alg) s

end Sys2Proof.Machine
end

