-- ==== Sys2Proof/Machine/VoiceUnit.lean ====
section
/-! DEFINITION. The Voice unit (44_voice.md). `N` is `CFG.NUM` and `fs` the global sample rate `FS`. -/

namespace Sys2Proof.Machine.Voice

/-- The carrier operators in ascending index. -/
def carriers (v : Voice) : List OpIx := opIndices.filter fun i => (v.op.get i).carrier

/-- What `voiceRender` answers: the sample, the voice afterwards, and whether it raised NoCarrier. -/
structure Rendered where
  sample : Number
  voice : Voice
  noCarrier : Bool
deriving DecidableEq, Repr

/-- The sum of the carriers' samples, evaluated and added in ascending index (44_voice.md R191). -/
def sumCarriers (c : EvalEnv) (is : List OpIx) (ops : Six Operator) : Number × Six Operator :=
  is.foldl (fun acc i => let y := getSample c acc.2 i; (c.num.add acc.1 y.1, y.2)) (c.num.zero, ops)

/-- `voiceRender` (44_voice.md R191): the mean of the carriers; a voice without a carrier gives 0, evaluates nothing and
raises NoCarrier. -/
def render (c : EvalEnv) (v : Voice) : Rendered :=
  if v.carriers.length = 0 then ⟨c.num.zero, v, true⟩
  else
    let r := sumCarriers c v.carriers v.op
    ⟨c.num.div r.1 (c.num.ofInt v.carriers.length), { v with op := r.2 }, false⟩

/-- `voiceNoteOn` (44_voice.md R192). -/
def noteOn (N : NumOps) (fs : Number) (v : Voice) (note : Note) (vel : Velocity) : Voice :=
  { v.mapOps (fun o => o.noteOn N fs note vel) with note := some note }

/-- `voiceNoteOff` (44_voice.md R193). -/
def noteOff (N : NumOps) (fs : Number) (v : Voice) : Voice := v.mapOps fun o => o.noteOff N fs

/-- `voiceIsActive` (44_voice.md R194). -/
def isActive (v : Voice) : Bool := v.op.toList.any fun o => o.carrier && o.env.isActive

/-- `voiceResetCache` (44_voice.md R195). -/
def resetCache (v : Voice) : Voice := v.mapOps Operator.resetCache

/-- `voiceReset` (44_voice.md R196). -/
def reset (N : NumOps) (rearms : Bool) (fs : Number) (v : Voice) : Voice :=
  { v.mapOps (Operator.reset N rearms fs) with note := none }

end Sys2Proof.Machine.Voice
end

