-- ==== Sys2Proof/Machine/VoiceHandler.lean ====
section
/-! DEFINITION. The VoiceHandler (45_voicehandler.md): allocation, stealing, mixing, and the commands RESET, NOTEON,
NOTEOFF, RENDER, CLRCACHE, QACTIVE. -/

namespace Sys2Proof.Machine

/-! ### RESET -/

/-- The effect of RESET with a legal sample rate (45_voicehandler.md R201). -/
def resetAll (fs : Number) (s : State) : State :=
  { s with
    fs := fs
    init := true
    noteMap := NoteMap.empty
    voices := s.voices.map fun v => v.reset s.num s.cfg.rearmsRelease fs }

/-- The sample rates RESET accepts: finite and above 0 (45_voicehandler.md R201). -/
def legalRate (N : NumOps) (fs : Number) : Bool := N.isFinite fs && N.gt fs N.zero

/-- RESET `fs`, the one command that does not need `INIT` (45_voicehandler.md R201). -/
def execReset (fs : Word) (s : State) : Outcome :=
  if legalRate s.num (s.num.ofBits fs) then .next ((resetAll (s.num.ofBits fs) s).advance 2)
  else .next ((s.raise .illegal).advance 2)

/-! ### Notes -/

/-- Step 2 of `vhNoteOn`: the lowest voice that is not active, if there is one (45_voicehandler.md R202). -/
def State.freeVoice (s : State) : Option Nat := s.voices.findIdx? fun v => !v.isActive

/-- Step 3 of `vhNoteOn`: the lowest voice that is active (45_voicehandler.md R202). -/
def State.stealVoice (s : State) : Option Nat := s.voices.findIdx? fun v => v.isActive

/-- Start `note` on voice `v` and record it: `voiceNoteOn` and step 4 (45_voicehandler.md R202). -/
def State.startNote (s : State) (v : Nat) (note : Note) (vel : Velocity) : State :=
  { s.modifyVoice v (fun vc => vc.noteOn s.num s.fs note vel) with noteMap := s.noteMap.set note (some v) }

/-- Unmap every other note of voice `v` (45_voicehandler.md R202, eviction). -/
def State.evict (s : State) (note : Note) (v : Nat) : State :=
  { s with noteMap := s.noteMap.evict note v }

/-- `voiceNoteOff` of voice `v`. -/
def State.releaseVoice (s : State) (v : Nat) : State := s.modifyVoice v fun vc => vc.noteOff s.num s.fs

/-- `vhNoteOn` (45_voicehandler.md R202). The last case needs a pool without a voice, which 00_scope.md R6 excludes. -/
def vhNoteOn (note : Note) (vel : Velocity) (s : State) : State :=
  match s.noteMap.get note with
  | some w => s.startNote w note vel
  | none =>
    match s.freeVoice with
    | some v => (s.evict note v).startNote v note vel
    | none =>
      match s.stealVoice with
      | some v => ((s.releaseVoice v).evict note v).startNote v note vel
      | none => s

/-- `vhNoteOff` (45_voicehandler.md R204). -/
def vhNoteOff (note : Note) (s : State) : State :=
  match s.noteMap.get note with
  | some v => { s.releaseVoice v with noteMap := s.noteMap.set note none }
  | none => s

/-- NOTEON `note`, `vel`; velocity 0 is NOTEOFF (45_voicehandler.md R203, 30_encoding.md R93). -/
def execNoteon (note : Note) (vel : Velocity) (s : State) : Outcome :=
  runCommand 1 true (fun s => if vel.val = 0 then vhNoteOff note s else vhNoteOn note vel s) s

/-- NOTEOFF `note` (45_voicehandler.md R205). -/
def execNoteoff (note : Note) (s : State) : Outcome := runCommand 1 true (vhNoteOff note) s

/-! ### Samples -/

/-- Every voice rendered. No voice reads or writes another's operators (20_memory.md R61), so the voices' results do not
depend on the order; the mix below adds them in ascending index. -/
def renderVoices (s : State) : List Voice.Rendered := s.voices.map fun v => v.render s.evalEnv

/-- The mix: the samples added from 0 in ascending voice index (45_voicehandler.md R207). -/
def mix (N : NumOps) (rs : List Voice.Rendered) : Number := rs.foldl (fun acc r => N.add acc r.sample) N.zero

/-- NoCarrier raised once for every voice that has no carrier, in ascending order (60_exceptions.md R238, R239). -/
def raiseNoCarriers (rs : List Voice.Rendered) (s : State) : State :=
  rs.foldl (fun s r => if r.noCarrier then s.raise .noCarrier else s) s

/-- The effect of RENDER (45_voicehandler.md R207). -/
def renderAll (s : State) : State :=
  let rs := renderVoices s
  { raiseNoCarriers rs s with
    voices := rs.map (·.voice)
    out := mix s.num rs
    outS := s.outS ++ [mix s.num rs] }

/-- RENDER (45_voicehandler.md R207). -/
def execRender (s : State) : Outcome := runCommand 1 true renderAll s

/-- CLRCACHE (45_voicehandler.md R209). -/
def execClrcache (s : State) : Outcome :=
  runCommand 1 true (fun s => s.mapVoices Voice.resetCache) s

/-! ### Query -/

/-- `voiceIsActive(v)`; false for a voice the pool does not have. -/
def State.voiceActive (s : State) (v : Nat) : Bool :=
  match s.voice? v with
  | some vc => vc.isActive
  | none => false

/-- QACTIVE `v` (45_voicehandler.md R211). -/
def execQactive (v : VoiceIx) (s : State) : Outcome :=
  runCommand 1 (s.hasVoice v)
    (fun s => { s with qout := s.voiceActive v.val, outQ := s.outQ ++ [(v, s.voiceActive v.val)] }) s

end Sys2Proof.Machine
end

