-- ==== Sys2Proof/Syntax.lean ====
section
/-! DEFINITION. The instructions: the thirteen host commands of 30_encoding.md R84, one constructor per row of
spec/opcode_table.json. -/

namespace Sys2Proof

/-- One command. Integer operands are decoded to indices; a payload word stays the word that carries the number
`NUM.ofBits` of it (30_encoding.md R82). -/
inductive Instr where
  /-- RESET `fs` (45_voicehandler.md R201). -/
  | reset (fs : Word)
  /-- SETALG `v`, `alg` (43_algorithm.md R176). -/
  | setalg (v : VoiceIx) (alg : AlgIx)
  /-- SETRATIO `v`, `i`, `ratio` (42_operator.md R150). -/
  | setratio (v : VoiceIx) (i : OpIx) (ratio : Word)
  /-- SETLEVEL `v`, `i`, `level` (42_operator.md R151). -/
  | setlevel (v : VoiceIx) (i : OpIx) (level : Word)
  /-- SETTUNE `v`, `i`, `coarse`, `fine` (42_operator.md R152). -/
  | settune (v : VoiceIx) (i : OpIx) (coarse fine : Word)
  /-- SETENV `v`, `i`, `attack`, `decay`, `sustain`, `release` (40_envelope.md R119). -/
  | setenv (v : VoiceIx) (i : OpIx) (attack decay sustain release : Word)
  /-- SETMODE `v`, `i`, `mode` (42_operator.md R153). -/
  | setmode (v : VoiceIx) (i : OpIx) (mode : ModType)
  /-- SETMIDX `v`, `i`, `index` (42_operator.md R154). -/
  | setmidx (v : VoiceIx) (i : OpIx) (index : Word)
  /-- RENDER (45_voicehandler.md R207). -/
  | render
  /-- CLRCACHE (45_voicehandler.md R209). -/
  | clrcache
  /-- QACTIVE `v` (45_voicehandler.md R211). -/
  | qactive (v : VoiceIx)
  /-- NOTEOFF `note` (45_voicehandler.md R205). -/
  | noteoff (note : Note)
  /-- NOTEON `note`, `vel` (45_voicehandler.md R203). -/
  | noteon (note : Note) (vel : Velocity)
deriving DecidableEq, Repr

/-- The length of a command in words, `L = 1 + n` (30_encoding.md R83). -/
def Instr.length : Instr → Nat
  | .reset _ => 2
  | .setalg _ _ => 1
  | .setratio _ _ _ => 2
  | .setlevel _ _ _ => 2
  | .settune _ _ _ _ => 3
  | .setenv _ _ _ _ _ _ => 5
  | .setmode _ _ _ => 1
  | .setmidx _ _ _ => 2
  | .render => 1
  | .clrcache => 1
  | .qactive _ => 1
  | .noteoff _ => 1
  | .noteon _ _ => 1

/-- The voice a command's field `a` names, for the formats that have one (30_encoding.md R81). -/
def Instr.voice? : Instr → Option VoiceIx
  | .reset _ => none
  | .setalg v _ => some v
  | .setratio v _ _ => some v
  | .setlevel v _ _ => some v
  | .settune v _ _ _ => some v
  | .setenv v _ _ _ _ _ => some v
  | .setmode v _ _ => some v
  | .setmidx v _ _ => some v
  | .render => none
  | .clrcache => none
  | .qactive v => some v
  | .noteoff _ => none
  | .noteon _ _ => none

end Sys2Proof
end

