-- ==== Sys2Proof/Machine/Dispatch.lean ====
section
/-! DEFINITION. The meaning of every command: one arm per row of the opcode table (30_encoding.md R84). -/

namespace Sys2Proof.Machine

def exec (i : Instr) (s : State) : Host.Outcome State Fault Refusal :=
  match i with
  | .reset fs => Sys2Proof.Machine.execReset fs s
  | .setalg v alg => Sys2Proof.Machine.execSetalg v alg s
  | .setratio v k ratio => Sys2Proof.Machine.execSetratio v k ratio s
  | .setlevel v k level => Sys2Proof.Machine.execSetlevel v k level s
  | .settune v k coarse fine => Sys2Proof.Machine.execSettune v k coarse fine s
  | .setenv v k attack decay sustain release => Sys2Proof.Machine.execSetenv v k attack decay sustain release s
  | .setmode v k mode => Sys2Proof.Machine.execSetmode v k mode s
  | .setmidx v k index => Sys2Proof.Machine.execSetmidx v k index s
  | .render => Sys2Proof.Machine.execRender s
  | .clrcache => Sys2Proof.Machine.execClrcache s
  | .qactive v => Sys2Proof.Machine.execQactive v s
  | .noteoff note => Sys2Proof.Machine.execNoteoff note s
  | .noteon note vel => Sys2Proof.Machine.execNoteon note vel s

end Sys2Proof.Machine
end

