-- ==== Sys2Proof/WellFormed.lean ====
section
/-! DEFINITION. Well-formed instructions. The operand types already hold every bound that does not depend on the
configuration (operator < 6, note < 128, velocity < 128, mode < 2); what is left is the size of the voice pool. -/

namespace Sys2Proof

/-- A command is well-formed for a pool of `nv` voices when the voice it names exists (30_encoding.md R90:
`a >= CFG.NVOICES` is illegal). -/
def Instr.wf (nv : Nat) (i : Instr) : Bool :=
  match i.voice? with
  | some v => decide (v.val < nv)
  | none => true

end Sys2Proof
end

