-- ==== Sys2Proof/Decode.lean ====
section
/-! DEFINITION. The command encoding (30_encoding.md): header fields, the opcode map, the decoder (total, every illegal
header rejected by name and in the order of R94), the encoder, the byte order (20_memory.md R63), and the assembler's
pseudo-instructions (R97). -/

namespace Sys2Proof

/-! ### Header fields (R80) -/

/-- Field `op`, bits 31:24. -/
def Word.opField (h : Word) : BitVec 8 := h.extractLsb' 24 8
/-- Field `a`, bits 23:16. -/
def Word.aField (h : Word) : BitVec 8 := h.extractLsb' 16 8
/-- Field `b`, bits 15:8. -/
def Word.bField (h : Word) : BitVec 8 := h.extractLsb' 8 8
/-- Field `c`, bits 7:0. -/
def Word.cField (h : Word) : BitVec 8 := h.extractLsb' 0 8

/-- A header word from its four fields, `op` in the high bits. -/
def mkHeader (op a b c : BitVec 8) : Word := op ++ a ++ b ++ c

/-! ### The opcode map (R81, R83, R84) -/

/-- The thirteen opcodes of R84. -/
inductive Opcode where
  | reset | setalg | setratio | setlevel | settune | setenv | setmode | setmidx
  | render | clrcache | qactive | noteoff | noteon
deriving DecidableEq, Repr

/-- The seven formats of R81. -/
inductive Format where
  | g | gp | v | vc | o | oc | n
deriving DecidableEq, Repr

namespace Opcode

/-- All thirteen, in the order of R84. -/
def all : List Opcode :=
  [.reset, .setalg, .setratio, .setlevel, .settune, .setenv, .setmode, .setmidx,
   .render, .clrcache, .qactive, .noteoff, .noteon]

/-- The value of field `op` (R84). -/
def code : Opcode → BitVec 8
  | .reset => 0x01#8
  | .setalg => 0x02#8
  | .setratio => 0x10#8
  | .setlevel => 0x11#8
  | .settune => 0x12#8
  | .setenv => 0x13#8
  | .setmode => 0x14#8
  | .setmidx => 0x15#8
  | .render => 0x20#8
  | .clrcache => 0x21#8
  | .qactive => 0x30#8
  | .noteoff => 0x80#8
  | .noteon => 0x90#8

/-- The format (R84). -/
def format : Opcode → Format
  | .reset => .gp
  | .setalg => .vc
  | .setratio => .o
  | .setlevel => .o
  | .settune => .o
  | .setenv => .o
  | .setmode => .oc
  | .setmidx => .o
  | .render => .g
  | .clrcache => .g
  | .qactive => .v
  | .noteoff => .n
  | .noteon => .n

/-- The number of payload words (R84's payload column). -/
def payloads : Opcode → Nat
  | .reset => 1
  | .setalg => 0
  | .setratio => 1
  | .setlevel => 1
  | .settune => 2
  | .setenv => 4
  | .setmode => 0
  | .setmidx => 1
  | .render => 0
  | .clrcache => 0
  | .qactive => 0
  | .noteoff => 0
  | .noteon => 0

/-- The length in words, `L = 1 + n` (R83). -/
def length (op : Opcode) : Nat := 1 + op.payloads

/-- The mnemonic (R84). -/
def mnemonic : Opcode → String
  | .reset => "RESET"
  | .setalg => "SETALG"
  | .setratio => "SETRATIO"
  | .setlevel => "SETLEVEL"
  | .settune => "SETTUNE"
  | .setenv => "SETENV"
  | .setmode => "SETMODE"
  | .setmidx => "SETMIDX"
  | .render => "RENDER"
  | .clrcache => "CLRCACHE"
  | .qactive => "QACTIVE"
  | .noteoff => "NOTEOFF"
  | .noteon => "NOTEON"

/-- `match` of R84's row, over the header word. -/
def matchWord : Opcode → Word
  | .reset => 0x01000000#32
  | .setalg => 0x02000000#32
  | .setratio => 0x10000000#32
  | .setlevel => 0x11000000#32
  | .settune => 0x12000000#32
  | .setenv => 0x13000000#32
  | .setmode => 0x14000000#32
  | .setmidx => 0x15000000#32
  | .render => 0x20000000#32
  | .clrcache => 0x21000000#32
  | .qactive => 0x30000000#32
  | .noteoff => 0x80000000#32
  | .noteon => 0x90000000#32

/-- `mask` of R84's row, over the header word. -/
def maskWord : Opcode → Word
  | .reset => 0xFFFFFFFF#32
  | .setalg => 0xFF00FF00#32
  | .setratio => 0xFF00F8FF#32
  | .setlevel => 0xFF00F8FF#32
  | .settune => 0xFF00F8FF#32
  | .setenv => 0xFF00F8FF#32
  | .setmode => 0xFF00F8FE#32
  | .setmidx => 0xFF00F8FF#32
  | .render => 0xFFFFFFFF#32
  | .clrcache => 0xFFFFFFFF#32
  | .qactive => 0xFF00FFFF#32
  | .noteoff => 0xFFFF80FF#32
  | .noteon => 0xFFFF8080#32

/-- A header selects the opcode's row (R84). -/
def selects (op : Opcode) (h : Word) : Bool := h &&& op.maskWord == op.matchWord

/-- The opcode a field value names, if any. -/
def ofCode (b : BitVec 8) : Option Opcode := all.find? fun op => op.code == b

/-- Field `a` is an operand (R81). -/
def usesA (op : Opcode) : Bool :=
  match op.format with
  | .g | .gp | .n => false
  | .v | .vc | .o | .oc => true

/-- Field `b` is an operand (R81). -/
def usesB (op : Opcode) : Bool :=
  match op.format with
  | .g | .gp | .v | .vc => false
  | .o | .oc | .n => true

/-- Field `c` is an operand (R81); NOTEOFF uses format N with `c = 0`. -/
def usesC (op : Opcode) : Bool :=
  match op.format with
  | .g | .gp | .v | .o => false
  | .vc | .oc => true
  | .n => op == .noteon

end Opcode

/-- Every field the opcode's format does not use is zero (R89). -/
def reservedZero (op : Opcode) (h : Word) : Bool :=
  (op.usesA || h.aField == 0#8) && (op.usesB || h.bField == 0#8) && (op.usesC || h.cField == 0#8)

/-! ### The decoder -/

/-- Why a header is illegal, one name per check of R94 (1) to (4). -/
inductive DecodeError where
  /-- R91 -/
  | unknownOpcode
  /-- R92 with 20_memory.md R62 -/
  | truncated
  /-- R89 -/
  | reservedField
  /-- R90: `a >= CFG.NVOICES` -/
  | voiceRange
  /-- R90: `b >= 6` -/
  | operatorRange
  /-- R90: SETMODE with `c >= 2` -/
  | modeRange
  /-- R90: NOTEON or NOTEOFF with `b >= 128` -/
  | noteRange
  /-- R90: NOTEON with `c >= 128` -/
  | velocityRange
deriving DecidableEq, Repr

/-- The voice operand, field `a` (R82, R90). -/
def withVoice (nv : Nat) (h : Word) (k : VoiceIx → Except DecodeError Instr) : Except DecodeError Instr :=
  if h.aField.toNat < nv then k h.aField.toFin else .error .voiceRange

/-- The operator operand, field `b` (R82, R90). -/
def withOperator (h : Word) (k : OpIx → Except DecodeError Instr) : Except DecodeError Instr :=
  if hb : h.bField.toNat < 6 then k ⟨h.bField.toNat, hb⟩ else .error .operatorRange

/-- The mode operand, field `c`: 0 = PM, 1 = FM (R82, R90; 42_operator.md R153). -/
def withMode (h : Word) (k : ModType → Except DecodeError Instr) : Except DecodeError Instr :=
  if h.cField == 0#8 then k .pm else if h.cField == 1#8 then k .fm else .error .modeRange

/-- The note operand, field `b` (R82, R90). -/
def withNote (h : Word) (k : Note → Except DecodeError Instr) : Except DecodeError Instr :=
  if hb : h.bField.toNat < 128 then k ⟨h.bField.toNat, hb⟩ else .error .noteRange

/-- The velocity operand, field `c` (R82, R90). -/
def withVelocity (h : Word) (k : Velocity → Except DecodeError Instr) : Except DecodeError Instr :=
  if hc : h.cField.toNat < 128 then k ⟨h.cField.toNat, hc⟩ else .error .velocityRange

/-- The operands of a header whose opcode is `op` and whose payload is `p`, checked in the order of R90. -/
def decodeOperands (nv : Nat) (op : Opcode) (h : Word) (p : List Word) : Except DecodeError Instr :=
  match op with
  | .reset => .ok (.reset (p.getD 0 0#32))
  | .setalg => withVoice nv h fun v => .ok (.setalg v h.cField.toFin)
  | .setratio => withVoice nv h fun v => withOperator h fun i => .ok (.setratio v i (p.getD 0 0#32))
  | .setlevel => withVoice nv h fun v => withOperator h fun i => .ok (.setlevel v i (p.getD 0 0#32))
  | .settune => withVoice nv h fun v => withOperator h fun i =>
      .ok (.settune v i (p.getD 0 0#32) (p.getD 1 0#32))
  | .setenv => withVoice nv h fun v => withOperator h fun i =>
      .ok (.setenv v i (p.getD 0 0#32) (p.getD 1 0#32) (p.getD 2 0#32) (p.getD 3 0#32))
  | .setmode => withVoice nv h fun v => withOperator h fun i => withMode h fun m => .ok (.setmode v i m)
  | .setmidx => withVoice nv h fun v => withOperator h fun i => .ok (.setmidx v i (p.getD 0 0#32))
  | .render => .ok .render
  | .clrcache => .ok .clrcache
  | .qactive => withVoice nv h fun v => .ok (.qactive v)
  | .noteoff => withNote h fun n => .ok (.noteoff n)
  | .noteon => withNote h fun n => withVelocity h fun v => .ok (.noteon n v)

/-- What a decoder makes of a header: a legal command, or an illegal one with its name and the length its opcode gives
(R83; 1 for an unknown opcode, R91). -/
inductive Decoded where
  | ok (i : Instr)
  | illegal (why : DecodeError) (len : Nat)
deriving DecidableEq, Repr

/-- Decode the header `h`, `rest` being the words of the stream after it, for a pool of `nv` voices. Checks (1) to (4)
of R94 in order; payload words of an illegal command are not read (R92). -/
def decode (nv : Nat) (h : Word) (rest : List Word) : Decoded :=
  match Opcode.ofCode h.opField with
  | none => .illegal .unknownOpcode 1
  | some op =>
    if rest.length < op.payloads then .illegal .truncated op.length
    else if reservedZero op h = false then .illegal .reservedField op.length
    else
      match decodeOperands nv op h rest with
      | .ok i => .ok i
      | .error why => .illegal why op.length

/-! ### The encoder -/

/-- The opcode of a command. -/
def Instr.opcode : Instr → Opcode
  | .reset _ => .reset
  | .setalg _ _ => .setalg
  | .setratio _ _ _ => .setratio
  | .setlevel _ _ _ => .setlevel
  | .settune _ _ _ _ => .settune
  | .setenv _ _ _ _ _ _ => .setenv
  | .setmode _ _ _ => .setmode
  | .setmidx _ _ _ => .setmidx
  | .render => .render
  | .clrcache => .clrcache
  | .qactive _ => .qactive
  | .noteoff _ => .noteoff
  | .noteon _ _ => .noteon

/-- A field value from an index below 256. -/
def fieldOf {n : Nat} (x : Fin n) : BitVec 8 := BitVec.ofNat 8 x.val

/-- The mode field of SETMODE (42_operator.md R153). -/
def ModType.field : ModType → BitVec 8
  | .pm => 0#8
  | .fm => 1#8

/-- The header word of a command (R81, R84). -/
def Instr.header : Instr → Word
  | .reset _ => mkHeader 0x01#8 0#8 0#8 0#8
  | .setalg v alg => mkHeader 0x02#8 (fieldOf v) 0#8 (fieldOf alg)
  | .setratio v i _ => mkHeader 0x10#8 (fieldOf v) (fieldOf i) 0#8
  | .setlevel v i _ => mkHeader 0x11#8 (fieldOf v) (fieldOf i) 0#8
  | .settune v i _ _ => mkHeader 0x12#8 (fieldOf v) (fieldOf i) 0#8
  | .setenv v i _ _ _ _ => mkHeader 0x13#8 (fieldOf v) (fieldOf i) 0#8
  | .setmode v i m => mkHeader 0x14#8 (fieldOf v) (fieldOf i) m.field
  | .setmidx v i _ => mkHeader 0x15#8 (fieldOf v) (fieldOf i) 0#8
  | .render => mkHeader 0x20#8 0#8 0#8 0#8
  | .clrcache => mkHeader 0x21#8 0#8 0#8 0#8
  | .qactive v => mkHeader 0x30#8 (fieldOf v) 0#8 0#8
  | .noteoff n => mkHeader 0x80#8 0#8 (fieldOf n) 0#8
  | .noteon n vel => mkHeader 0x90#8 0#8 (fieldOf n) (fieldOf vel)

/-- The payload words of a command, in the order of R84's payload column (R82). -/
def Instr.payload : Instr → List Word
  | .reset fs => [fs]
  | .setalg _ _ => []
  | .setratio _ _ ratio => [ratio]
  | .setlevel _ _ level => [level]
  | .settune _ _ coarse fine => [coarse, fine]
  | .setenv _ _ attack decay sustain release => [attack, decay, sustain, release]
  | .setmode _ _ _ => []
  | .setmidx _ _ index => [index]
  | .render => []
  | .clrcache => []
  | .qactive _ => []
  | .noteoff _ => []
  | .noteon _ _ => []

/-- The words of a command (R80). -/
def encode (i : Instr) : List Word := i.header :: i.payload

/-- The words of a program, commands back to back (00_scope.md R16). -/
def assemble (is : List Instr) : List Word := is.flatMap encode

/-! ### Byte transport (20_memory.md R63, R64) -/

/-- The four bytes of a word, least significant first. -/
def bytesOfWord (w : Word) : List Byte :=
  [w.extractLsb' 0 8, w.extractLsb' 8 8, w.extractLsb' 16 8, w.extractLsb' 24 8]

/-- The words of a byte-carried program, little-endian, and its trailing fragment of 0 to 3 bytes. -/
def wordsOfBytes : List Byte → List Word × List Byte
  | b0 :: b1 :: b2 :: b3 :: bs => ((b3 ++ b2 ++ b1 ++ b0) :: (wordsOfBytes bs).1, (wordsOfBytes bs).2)
  | bs => ([], bs)

/-- The instruction a byte-carried program of a pool of `nv` voices begins with, if its first command is legal. -/
def decodeBytes (nv : Nat) (bs : List Byte) : Option Instr :=
  match (wordsOfBytes bs).1 with
  | [] => none
  | h :: rest =>
    match decode nv h rest with
    | .ok i => some i
    | .illegal _ _ => none

/-- The bytes of an instruction numbered as the opcode table numbers its bits, bit 0 the least significant bit of the
first word; every bit from `nbits` up is 0, for the five words of the longest command. -/
def tableBytes (nbits w : Nat) : List Byte :=
  (List.range 20).map fun k => BitVec.ofNat 8 ((w % 2 ^ nbits) >>> (8 * k))

/-- What the decoder reads from an opcode-table word, for the default pool (00_scope.md R6). -/
def decodeTableWord (nbits w : Nat) : Option Instr := decodeBytes Config.defaultVoices (tableBytes nbits w)

/-! ### The assembler's pseudo-instructions (R97) and text (R96) -/

/-- The pseudo-instructions of R97; the hardware knows none of them. -/
inductive Pseudo where
  | tick
  | setalgAll (alg : AlgIx)
  | setratioAll (i : OpIx) (ratio : Word)
  | setlevelAll (i : OpIx) (level : Word)
  | settuneAll (i : OpIx) (coarse fine : Word)
  | setenvAll (i : OpIx) (attack decay sustain release : Word)
  | setmodeAll (i : OpIx) (mode : ModType)
  | setmidxAll (i : OpIx) (index : Word)
deriving DecidableEq, Repr

/-- The voices 0 .. NVOICES-1 in order. -/
def voiceIndices (nv : Nat) : List VoiceIx := (List.finRange 256).filter fun v => decide (v.val < nv)

/-- The expansion of a pseudo-instruction for a pool of `nv` voices (R97). -/
def Pseudo.expand (nv : Nat) : Pseudo → List Instr
  | .tick => [.render, .clrcache]
  | .setalgAll alg => (voiceIndices nv).map fun v => .setalg v alg
  | .setratioAll i x => (voiceIndices nv).map fun v => .setratio v i x
  | .setlevelAll i x => (voiceIndices nv).map fun v => .setlevel v i x
  | .settuneAll i c f => (voiceIndices nv).map fun v => .settune v i c f
  | .setenvAll i a d s r => (voiceIndices nv).map fun v => .setenv v i a d s r
  | .setmodeAll i m => (voiceIndices nv).map fun v => .setmode v i m
  | .setmidxAll i x => (voiceIndices nv).map fun v => .setmidx v i x

/-- The eight hexadecimal digits of a word, most significant first. -/
def hexOfWord (w : Word) : String :=
  String.ofList ((List.range 8).map fun k => Nat.digitChar ((w.toNat >>> (4 * (7 - k))) % 16))

/-- A payload number in R96's exact form, `bits:0x........`. -/
def numberText (w : Word) : String := "bits:0x" ++ hexOfWord w

/-- A command as one assembler line (R96): the mnemonic, the integer operands in the order `a`, `b`, `c`, then the
payload. -/
def Instr.toText (i : Instr) : String :=
  let ints : List String :=
    match i with
    | .setalg v alg => [toString v.val, toString alg.val]
    | .setratio v o _ | .setlevel v o _ | .settune v o _ _ | .setenv v o _ _ _ _ | .setmidx v o _ =>
        [toString v.val, toString o.val]
    | .setmode v o m => [toString v.val, toString o.val, (match m with | .pm => "PM" | .fm => "FM")]
    | .qactive v => [toString v.val]
    | .noteoff n => [toString n.val]
    | .noteon n vel => [toString n.val, toString vel.val]
    | .reset _ | .render | .clrcache => []
  let args := ints ++ i.payload.map numberText
  if args.isEmpty then i.opcode.mnemonic else i.opcode.mnemonic ++ " " ++ String.intercalate ", " args

end Sys2Proof
end

