-- ==== Sys2Proof/Machine/Fetch.lean ====
section
/-! DEFINITION. Fetching the next command from the stream (20_memory.md R62 to R64), what an illegal header does
(30_encoding.md R91, R92), the end of the run (70_reset_and_hazards.md R268), and how a program is put into the stream
(log entry 5). -/

namespace Sys2Proof.Machine

/-- `len(prog)`: the whole words of the stream, and one more where a byte-carried stream ends in a fragment
(20_memory.md R64; log entry 7). -/
def State.progLen (s : State) : Nat := s.prog.length + (if s.progFrag.isEmpty then 0 else 1)

/-- What the fetch finds at `pc`. -/
inductive Fetched where
  /-- a legal command -/
  | command (i : Instr)
  /-- an illegal or truncated one, and where `pc` goes -/
  | illegal (pc : Nat)
  /-- the end of the stream -/
  | idle
deriving DecidableEq, Repr

/-- Fetch and decode the command at `pc`. An illegal header is skipped with its payload, a truncated command goes to the
end of the stream, and so does a fragment that holds no whole header word (20_memory.md R62, R64;
30_encoding.md R91, R92). -/
def fetch (s : State) : Fetched :=
  match s.prog.drop s.pc with
  | h :: rest =>
    match decode s.numVoices h rest with
    | .ok i => .command i
    | .illegal .truncated _ => .illegal s.progLen
    | .illegal _ len => .illegal (s.pc + len)
  | [] => if s.pc < s.progLen then .illegal s.progLen else .idle

/-- ILLEGAL is raised, nothing of the datapath changes, and `pc` moves on (30_encoding.md R91, R92). -/
def rejectHeader (s : State) (pc : Nat) : State := { s.raise .illegal with pc := pc }

/-- At the end of the stream the hardware holds its state and waits for the host (70_reset_and_hazards.md R268). -/
def hold (s : State) : State := s

/-- The machine with the command stream `prog`. -/
def State.load (s : State) (prog : List Word) : State := { s with prog := prog, progFrag := [] }

/-- The machine with a byte-carried command stream (20_memory.md R63, R64). -/
def State.loadBytes (s : State) (bs : List Byte) : State :=
  { s with prog := (wordsOfBytes bs).1, progFrag := (wordsOfBytes bs).2 }

/-- The stream with `ws` standing at word index `pc`, every other word kept; words before it that the stream lacks are
zero. -/
def placeWords (prog : List Word) (pc : Nat) (ws : List Word) : List Word :=
  prog.take pc ++ List.replicate (pc - prog.length) 0#32 ++ ws ++ prog.drop (pc + ws.length)

end Sys2Proof.Machine
end

