-- ==== Sys2Proof/Machine/Step.lean ====
section
/-! DEFINITION. One step: fetch, decode, execute (20_memory.md R62, R66). -/

namespace Sys2Proof.Machine

/-- One command of the stream executed, or an illegal one skipped, or the end of the stream waited at. -/
def step (s : State) : Host.Outcome State Fault Refusal :=
  match fetch s with
  | .command i => exec i s
  | .illegal pc => .next (rejectHeader s pc)
  | .idle => .next (hold s)

/-- The state with the words of an opcode-table row (numbered as the table numbers its bits, zeros above `nbits`)
standing where the next step fetches. -/
def State.withFetchWord (s : State) (nbits w : Nat) : State :=
  { s with prog := placeWords s.prog s.pc (wordsOfBytes (tableBytes nbits w)).1 }

end Sys2Proof.Machine
end

