-- ==== Sys2Proof/Safety.lean ====
section
/-! DEFINITION. The terms claims are stated in: a safe state, the invariant every step keeps, frames, ranges of numbers,
and what it is for a machine to be silent. -/

namespace Sys2Proof

namespace Num32

/-- Not a NaN. -/
def isNumber (x : Num32) : Bool := decide (x ≠ .nan)

/-- In [0, 1), the range of a phase (10_state.md R27). -/
def isPhase (x : Num32) : Bool := zero.le x && x.lt one

end Num32

/-- In [0, 1] of a format. -/
def NumOps.inUnit (N : NumOps) (x : Number) : Bool := N.le N.zero x && N.le x N.one

/-- A binary32 number that is in [0, 1) unless it is a NaN: what a phase holds in that format. -/
def Number.IsPhase32 (x : Number) : Prop := ∃ y : Num32, x = .b32 y ∧ (y.isNumber = true → y.isPhase = true)

/-- What a model may assume of an implementation's configuration: 0 < `SMOOTH_COEF` <= 1 (42_operator.md R147) and a
table meeting 43_algorithm.md R172. -/
def Config.admissible (c : Config) : Bool :=
  c.num.ops.gt c.smoothCoef c.num.ops.zero && c.num.ops.le c.smoothCoef c.num.ops.one && c.algTable.admissible

namespace Machine

/-- No fault since power-on: what every claim about a run takes as part of its postcondition (60_exceptions.md R241). -/
def State.safe (s : State) : Bool := s.fault == 0#4

/-! ### The invariant -/

/-- What holds between any two commands. -/
structure State.Inv (s : State) : Prop where
  /-- 1 to 256 voices (00_scope.md R6) -/
  pool : 0 < s.numVoices ∧ s.numVoices ≤ 256
  /-- the command pointer stays in the stream (10_state.md R43) -/
  pc : s.pc ≤ s.progLen
  /-- a mapped note refers to a voice of the pool whose `note` field matches (10_state.md R33, R34 (b)) -/
  map : ∀ n v, s.noteMap.get n = some v → ∃ vc, s.voice? v = some vc ∧ vc.note = some n
  /-- no operator is in progress (10_state.md R30) -/
  quiet : ∀ v i o, s.operator? v i = some o → o.inProgress = false
  /-- in binary32 every phase that is not a NaN is in [0,1) (10_state.md R27) -/
  phase : s.cfg.num = .binary32 → ∀ v i o, s.operator? v i = some o → o.osc.phase.IsPhase32
  /-- a fault is recorded first exactly when a sticky bit is set (10_state.md R44) -/
  faults : s.fault = 0#4 ↔ s.ffirst = 0

/-! ### Frames -/

/-- From `s` to `t` nothing outside the voice pool changed but `pc`, which advanced by `len`. -/
def OnlyPool (s t : State) (len : Nat) : Prop := t = { s with voices := t.voices, pc := s.pc + len }

/-- From `s` to `t` no operator but `V[v].op[i]` changed, no voice's note changed, and the pool kept its size. -/
def OnlyOperator (s t : State) (v : Nat) (i : OpIx) : Prop :=
  t.numVoices = s.numVoices ∧
  (∀ u k, ¬(u = v ∧ k = i) → t.operator? u k = s.operator? u k) ∧
  (∀ u, (t.voice? u).map Voice.note = (s.voice? u).map Voice.note)

/-- From `s` to `t` no voice but `V[v]` changed, and the pool kept its size. -/
def OnlyVoice (s t : State) (v : Nat) : Prop :=
  t.numVoices = s.numVoices ∧ ∀ u, u ≠ v → t.voice? u = s.voice? u

/-- The fields of an operator that evaluating it leaves alone: parameters, routing, note, base frequency and velocity
scale (42_operator.md R146). -/
def Operator.sameSetup (o p : Operator) : Prop :=
  p.ratio = o.ratio ∧ p.tuning = o.tuning ∧ p.level = o.level ∧ p.modType = o.modType ∧ p.modIndex = o.modIndex ∧
  p.mods = o.mods ∧ p.carrier = o.carrier ∧ p.feedback = o.feedback ∧ p.note = o.note ∧ p.baseFreq = o.baseFreq ∧
  p.osc.amplitude = o.osc.amplitude ∧
  p.env.attack = o.env.attack ∧ p.env.decay = o.env.decay ∧ p.env.sustain = o.env.sustain ∧
  p.env.release = o.env.release ∧ p.env.attackRate = o.env.attackRate ∧ p.env.decayRate = o.env.decayRate ∧
  p.env.relBaseRate = o.env.relBaseRate ∧ p.env.relStart = o.env.relStart ∧ p.env.relRate = o.env.relRate

/-- Operator `j` modulates operator `i` directly or through others, or is `i` itself (42_operator.md R140). -/
inductive Reaches (ops : Six Operator) : OpIx → OpIx → Prop where
  | refl (i : OpIx) : Reaches ops i i
  | edge {i k j : OpIx} : k ∈ (ops.get i).mods → Reaches ops k j → Reaches ops i j

/-- As `Reaches`, along operators that are not `cached` only, the first and the last among them: by R146's text a cached
operator answers without calling its modulators (42_operator.md R146, R158; log entry 20). -/
inductive ReachesOpen (ops : Six Operator) : OpIx → OpIx → Prop where
  | refl {i : OpIx} : (ops.get i).cached = false → ReachesOpen ops i i
  | edge {i k j : OpIx} : (ops.get i).cached = false → k ∈ (ops.get i).mods → ReachesOpen ops k j →
      ReachesOpen ops i j

/-! ### Silence (45_voicehandler.md R208) -/

/-- An operator as RESET leaves it and as it stays while no note is started, in the format `N`: envelope Idle,
everything that sounds zero; its level and modulation index are finite (00_scope.md R7). -/
structure Operator.Silent (N : NumOps) (o : Operator) : Prop where
  idle : o.env.state = .idle
  note : o.note = none
  baseFreq : o.baseFreq = N.zero
  phase : o.osc.phase = N.zero
  inc : o.osc.inc = N.zero
  amplitude : o.osc.amplitude = N.zero
  smoothAmp : o.smoothAmp = N.zero
  lastSample : o.lastSample = N.zero
  cachedSample : o.cachedSample = N.zero
  inProgress : o.inProgress = false
  level : N.isFinite o.level = true
  modIndex : N.isFinite o.modIndex = true

/-- A binary32 machine after RESET before the first note-on, every voice wired. -/
structure State.Silent (s : State) : Prop where
  format : s.cfg.num = .binary32
  init : s.init = true
  rate : legalRate s.num s.fs = true
  wired : ∀ vc ∈ s.voices, vc.carriers ≠ []
  ops : ∀ v i o, s.operator? v i = some o → o.Silent s.num

end Machine

end Sys2Proof
end

