-- ==== Sys2Proof/Certificates/Slice0/Obligations.lean ====
section
/-! DEFINITION. The statements for the provers, in the order of OBLIGATIONS.json. -/

open Sys2Proof Sys2Proof.Machine

/-! ### Power-on and the invariant -/

/-- The invariant holds right after power-on, for every configuration and every pool of 1 to 256 voices. The fields
the spec gives no power-on value hold the values of log entry 6, and the invariant's clauses about the note map,
`inProgress` and the phase rest on them here. -/
def Obligations.InvariantHoldsAtPowerOn : Prop :=
  (∀ (cfg : Config) (nv : Nat), 0 < nv → nv ≤ 256 → (State.powerOn cfg nv).Inv) ∧ State.reset.Inv

/-- The values 10_state.md R47 and 70_reset_and_hazards.md R260 give at power-on. -/
def Obligations.PowerOnValues : Prop :=
  ∀ (cfg : Config) (nv : Nat) (N : NumOps), N = cfg.num.ops →
    (State.powerOn cfg nv).init = false ∧ (State.powerOn cfg nv).fault = 0#4 ∧ (State.powerOn cfg nv).ffirst = 0 ∧
    (State.powerOn cfg nv).pc = 0 ∧ (State.powerOn cfg nv).outS = [] ∧ (State.powerOn cfg nv).outQ = [] ∧
    (State.powerOn cfg nv).numVoices = nv ∧
    ∀ (v : Nat) (i : OpIx), v < nv → ∃ o, (State.powerOn cfg nv).operator? v i = some o ∧
      o.ratio = N.one ∧ o.tuning = N.zero ∧ o.level = N.one ∧ o.modType = .pm ∧ o.modIndex = N.one ∧
      o.env.attack = N.zero ∧ o.env.decay = N.zero ∧ o.env.sustain = N.one ∧ o.env.release = N.zero ∧
      o.mods = [] ∧ o.carrier = false ∧ o.feedback = false

/-- Every step keeps the invariant, from every state that meets it. -/
def Obligations.InvariantKeptByEveryStep : Prop :=
  ∀ s t : State, s.Inv → step s = .next t → t.Inv

/-! ### Fetch, decode, encode -/

/-- Where the words at `pc` decode to a command, the step is the meaning of that command at that state. -/
def Obligations.StepRunsTheDecodedCommand : Prop :=
  ∀ (s : State) (h : Word) (rest : List Word) (i : Instr), s.prog.drop s.pc = h :: rest →
    decode s.numVoices h rest = .ok i → step s = exec i s

/-- Where a well-formed command's encoding stands at `pc`, whatever stands around it, the step is its meaning. -/
def Obligations.EncodedCommandRuns : Prop :=
  ∀ (s : State) (i : Instr) (pre post : List Word), s.prog = pre ++ encode i ++ post → s.pc = pre.length →
    i.wf s.numVoices = true → step s = exec i s

/-- The worked encodings of 30_encoding.md R98. -/
def Obligations.WorkedEncodings : Prop :=
  encode (.reset 0x44DC0000#32) = [0x01000000#32, 0x44DC0000#32] ∧
  decode 8 0x01000000#32 [0x44DC0000#32] = .ok (.reset 0x44DC0000#32) ∧
  NumOps.binary32.ofInt 1760 = NumOps.binary32.ofBits 0x44DC0000#32 ∧
  encode (.setalg 0 4) = [0x02000004#32] ∧ decode 8 0x02000004#32 [] = .ok (.setalg 0 4) ∧
  encode (.setenv 0 3 0x3F000000#32 0x3E800000#32 0x3F000000#32 0x3F800000#32) =
    [0x13000300#32, 0x3F000000#32, 0x3E800000#32, 0x3F000000#32, 0x3F800000#32] ∧
  decode 8 0x13000300#32 [0x3F000000#32, 0x3E800000#32, 0x3F000000#32, 0x3F800000#32] =
    .ok (.setenv 0 3 0x3F000000#32 0x3E800000#32 0x3F000000#32 0x3F800000#32) ∧
  encode (.setmode 1 5 .fm) = [0x14010501#32] ∧ decode 8 0x14010501#32 [] = .ok (.setmode 1 5 .fm) ∧
  encode (.noteon 69 127) = [0x9000457F#32] ∧ decode 8 0x9000457F#32 [] = .ok (.noteon 69 127) ∧
  encode (.noteoff 69) = [0x80004500#32] ∧ decode 8 0x80004500#32 [] = .ok (.noteoff 69) ∧
  encode .render = [0x20000000#32] ∧ decode 8 0x20000000#32 [] = .ok .render ∧
  encode .clrcache = [0x21000000#32] ∧ decode 8 0x21000000#32 [] = .ok .clrcache ∧
  encode (.qactive 2) = [0x30020000#32] ∧ decode 8 0x30020000#32 [] = .ok (.qactive 2) ∧
  bytesOfWord 0x9000457F#32 = [0x7F#8, 0x45#8, 0x00#8, 0x90#8]

/-- Decoding an encoded well-formed command gives it back, whatever words follow it in the stream. -/
def Obligations.DecodeInvertsEncode : Prop :=
  ∀ (nv : Nat) (i : Instr) (post : List Word), i.wf nv = true →
    decode nv i.header (i.payload ++ post) = .ok i

/-- Encoding a decoded command gives back the words it was decoded from, so no two encodings decode to one command
(92_eei_decisions.md D39: decoding is injective); and the decoded command is well-formed. -/
def Obligations.EncodeInvertsDecode : Prop :=
  ∀ (nv : Nat) (h : Word) (rest : List Word) (i : Instr), decode nv h rest = .ok i →
    encode i = h :: rest.take (i.length - 1) ∧ i.length - 1 ≤ rest.length ∧ i.wf nv = true

/-- The match and mask columns of 30_encoding.md R84: every decoded header selects its opcode's row, and no header
selects two rows. -/
def Obligations.OpcodeMapIsUnambiguous : Prop :=
  (∀ (nv : Nat) (h : Word) (rest : List Word) (i : Instr), decode nv h rest = .ok i →
    h &&& i.opcode.maskWord = i.opcode.matchWord) ∧
  (∀ (h : Word) (p q : Opcode), h &&& p.maskWord = p.matchWord → h &&& q.maskWord = q.matchWord → p = q)

/-- Illegal headers with a known opcode: a non-zero reserved field (R89) and every value check of R90 make the header
illegal; SETALG's algorithm field is not checked. -/
def Obligations.ReservedAndOutOfRangeHeadersAreIllegal : Prop :=
  ∀ (nv : Nat) (h : Word) (rest : List Word) (op : Opcode), Opcode.ofCode h.opField = some op →
    (((op.usesA = false ∧ h.aField ≠ 0#8) ∨ (op.usesB = false ∧ h.bField ≠ 0#8) ∨
        (op.usesC = false ∧ h.cField ≠ 0#8) ∨
        (op.usesA = true ∧ nv ≤ h.aField.toNat) ∨
        ((op.format = .o ∨ op.format = .oc) ∧ 6 ≤ h.bField.toNat) ∨
        (op = .setmode ∧ 2 ≤ h.cField.toNat) ∨
        ((op = .noteon ∨ op = .noteoff) ∧ 128 ≤ h.bField.toNat) ∨
        (op = .noteon ∧ 128 ≤ h.cField.toNat)) →
      ∃ why, decode nv h rest = .illegal why op.length) ∧
    (op = .setalg → h.bField = 0#8 → h.aField.toNat < nv →
      decode nv h rest = .ok (.setalg h.aField.toFin h.cField.toFin))

/-- An unknown opcode raises ILLEGAL, changes nothing else and is one word long; the all-zero and the all-ones word are
unknown. -/
def Obligations.UnknownOpcodeSkipsOneWord : Prop :=
  (∀ (s : State) (h : Word) (rest : List Word), s.prog.drop s.pc = h :: rest →
    (∀ op : Opcode, op.code ≠ h.opField) → step s = .next { s.raise .illegal with pc := s.pc + 1 }) ∧
  (∀ (op : Opcode) (h : Word), h = 0#32 ∨ h = 0xFFFFFFFF#32 → op.code ≠ h.opField)

/-- An illegal command with a known opcode raises ILLEGAL, changes nothing of the datapath, and is skipped with its
payload; a truncated one, in a stream of whole words, goes to the end of the stream. -/
def Obligations.IllegalCommandIsSkippedWhole : Prop :=
  ∀ (s : State) (h : Word) (rest : List Word) (op : Opcode), s.prog.drop s.pc = h :: rest → op.code = h.opField →
    (s.progFrag = [] → rest.length + 1 < op.length →
      step s = .next { s.raise .illegal with pc := s.prog.length }) ∧
    (op.length ≤ rest.length + 1 → (∀ i, decode s.numVoices h rest ≠ .ok i) →
      step s = .next { s.raise .illegal with pc := s.pc + op.length })

/-- In a stream that ends in a fragment of 1 to 3 bytes (20_memory.md R64) the fragment is the last, truncated
command: a step at it, or at a command whose payload it cuts off, raises ILLEGAL and changes nothing else but `pc`,
which goes past the fragment, and the run is over there. That the fragment counts as one word of the stream's length
is the model's choice (log entry 7), and so is the step past the end (log entry 8). -/
def Obligations.FragmentIsATruncatedCommand : Prop :=
  ∀ s : State, s.progFrag ≠ [] →
    (s.pc = s.prog.length → step s = .next { s.raise .illegal with pc := s.prog.length + 1 }) ∧
    (∀ (h : Word) (rest : List Word) (op : Opcode), s.prog.drop s.pc = h :: rest → op.code = h.opField →
      rest.length + 1 < op.length → step s = .next { s.raise .illegal with pc := s.prog.length + 1 }) ∧
    (s.pc = s.prog.length + 1 → step s = .next s)

/-- Bytes carry words little-endian, and a fragment of fewer than four bytes is left over (20_memory.md R63, R64). -/
def Obligations.BytesCarryWordsLittleEndian : Prop :=
  ∀ (ws : List Word) (frag : List Byte), frag.length < 4 →
    wordsOfBytes (ws.flatMap bytesOfWord ++ frag) = (ws, frag)

/-- Every run that starts in the stream reaches its end, in at most as many steps as the stream has words left
(70_reset_and_hazards.md R268). At the end a step changes nothing: that clause is the model's choice (log entry 8),
and so is that a trailing fragment of bytes counts as one word of the stream (log entry 7). -/
def Obligations.EveryProgramRunsToItsEnd : Prop :=
  ∀ s : State, s.pc ≤ s.progLen →
    (s.pc = s.progLen → step s = .next s) ∧
    ∃ t, Host.Core.run Sys2Proof.core (s.progLen - s.pc) s = .next t ∧ t.pc = s.progLen ∧ t.prog = s.prog

/-! ### Faults -/

/-- The four faults have the codes 1 to 4 (60_exceptions.md R231), and the bit of `FAULT` of code `k` is bit `k - 1`.
`raise` records the first fault, sets that bit, keeps every other bit, and does nothing else. -/
def Obligations.RaiseRecordsTheFirstFault : Prop :=
  (Cause.illegal.code = 1 ∧ Cause.notInitialised.code = 2 ∧ Cause.algIndex.code = 3 ∧ Cause.noCarrier.code = 4) ∧
  ∀ (s : State) (c : Cause),
    (s.ffirst = 0 → (s.raise c).ffirst = c.code ∧ (s.raise c).fpc = s.pc ∧
      ∀ h, s.prog[s.pc]? = some h → (s.raise c).fword = h) ∧
    (s.ffirst ≠ 0 → (s.raise c).ffirst = s.ffirst ∧ (s.raise c).fpc = s.fpc ∧ (s.raise c).fword = s.fword) ∧
    (∀ k : Nat, (s.raise c).fault.getLsbD k = (s.fault.getLsbD k || decide (k + 1 = c.code.val))) ∧
    s.faultBit c = s.fault.getLsbD (c.code.val - 1) ∧
    s.raise c = { s with ffirst := (s.raise c).ffirst, fpc := (s.raise c).fpc, fword := (s.raise c).fword,
                         fault := (s.raise c).fault }

/-- No step clears a FAULT bit, and once a fault is recorded the first-fault registers keep it. -/
def Obligations.FaultsAreSticky : Prop :=
  ∀ s t : State, step s = .next t →
    (∀ c : Cause, s.faultBit c = true → t.faultBit c = true) ∧
    (s.ffirst ≠ 0 → t.ffirst = s.ffirst ∧ t.fpc = s.fpc ∧ t.fword = s.fword)

/-- Before the first RESET a legal command other than RESET raises NotInitialised, has no effect, and is passed. -/
def Obligations.UninitialisedCommandOnlyFaults : Prop :=
  ∀ (i : Instr) (s : State), (∀ fs, i ≠ .reset fs) → i.wf s.numVoices = true → s.init = false →
    exec i s = .next { s.raise .notInitialised with pc := s.pc + i.length }

/-! ### Whole-machine rules -/

/-- The global registers, the parameter registers and the routing are written by the commands the spec names and by no
other: every command advances `pc` by its length; the fault registers change only where a fault of 60_exceptions.md R231
is raised; `FS` and `INIT` by RESET, `OUT` by RENDER, `QOUT` by QACTIVE, `MAP` by RESET and the note commands, each
parameter register by its own command, routing by SETALG. -/
def Obligations.RegistersHaveTheirWriters : Prop :=
  ∀ (i : Instr) (s t : State), exec i s = .next t →
    t.pc = s.pc + i.length ∧
    (t.fault ≠ s.fault ∨ t.ffirst ≠ s.ffirst ∨ t.fpc ≠ s.fpc ∨ t.fword ≠ s.fword →
      i.wf s.numVoices = false ∨ (s.init = false ∧ ∀ w, i ≠ .reset w) ∨
      (∃ w, i = .reset w ∧ legalRate s.num (s.num.ofBits w) = false) ∨ (∃ v alg, i = .setalg v alg ∧ 32 ≤ alg.val) ∨
      (i = .render ∧ ∃ vc ∈ s.voices, ∀ k, (vc.op.get k).carrier = false)) ∧
    (t.fs ≠ s.fs → ∃ w, i = .reset w) ∧
    (t.init ≠ s.init → t.init = true ∧ ∃ w, i = .reset w) ∧
    (t.out ≠ s.out ∨ t.outS ≠ s.outS → i = .render) ∧
    (t.qout ≠ s.qout ∨ t.outQ ≠ s.outQ → ∃ v, i = .qactive v) ∧
    (t.noteMap ≠ s.noteMap → (∃ w, i = .reset w) ∨ (∃ n, i = .noteoff n) ∨ ∃ n vel, i = .noteon n vel) ∧
    ∀ (v : Nat) (k : OpIx) (o p : Operator), s.operator? v k = some o → t.operator? v k = some p →
      (p.ratio ≠ o.ratio → ∃ u w, u.val = v ∧ i = .setratio u k w) ∧
      (p.level ≠ o.level → ∃ u w, u.val = v ∧ i = .setlevel u k w) ∧
      (p.tuning ≠ o.tuning → ∃ u c f, u.val = v ∧ i = .settune u k c f) ∧
      (p.modType ≠ o.modType → ∃ u m, u.val = v ∧ i = .setmode u k m) ∧
      (p.modIndex ≠ o.modIndex → ∃ u w, u.val = v ∧ i = .setmidx u k w) ∧
      (p.env.attack ≠ o.env.attack ∨ p.env.decay ≠ o.env.decay ∨ p.env.sustain ≠ o.env.sustain ∨
        p.env.release ≠ o.env.release → ∃ u a d x r, u.val = v ∧ i = .setenv u k a d x r) ∧
      (p.mods ≠ o.mods ∨ p.carrier ≠ o.carrier ∨ p.feedback ≠ o.feedback → ∃ u alg, u.val = v ∧ i = .setalg u alg)

/-- The dynamic fields are written by the commands 10_state.md R24 to R32 and the commands' own rules name, and by no
other; `cached` is set by RENDER alone and cleared by RESET, NOTEON and CLRCACHE; `inProgress` is left changed by RESET
alone. -/
def Obligations.DynamicStateHasItsWriters : Prop :=
  ∀ (i : Instr) (s t : State), exec i s = .next t →
    (∀ v vc tc, s.voice? v = some vc → t.voice? v = some tc → tc.note ≠ vc.note →
      i.opcode ∈ [Opcode.reset, .noteon]) ∧
    ∀ (v : Nat) (k : OpIx) (o p : Operator), s.operator? v k = some o → t.operator? v k = some p →
      (p.note ≠ o.note ∨ p.osc.amplitude ≠ o.osc.amplitude → i.opcode ∈ [Opcode.reset, .noteon]) ∧
      (p.baseFreq ≠ o.baseFreq → i.opcode ∈ [Opcode.reset, .noteon] ∨
        (o.note ≠ none ∧ ∃ u, u.val = v ∧ ((∃ w, i = .setratio u k w) ∨ ∃ c f, i = .settune u k c f))) ∧
      (p.env.attackRate ≠ o.env.attackRate ∨ p.env.decayRate ≠ o.env.decayRate ∨
        p.env.relBaseRate ≠ o.env.relBaseRate → i.opcode = .reset ∨ ∃ u a d x r, u.val = v ∧ i = .setenv u k a d x r) ∧
      (p.env.state ≠ o.env.state ∨ p.env.level ≠ o.env.level →
        i.opcode ∈ [Opcode.reset, .noteon, .noteoff, .render]) ∧
      (p.env.relStart ≠ o.env.relStart → i.opcode ∈ [Opcode.reset, .noteon, .noteoff]) ∧
      (p.env.relRate ≠ o.env.relRate → i.opcode ∈ [Opcode.reset, .noteon, .noteoff] ∨
        (s.cfg.rearmsRelease = true ∧ ∃ u a d x r, u.val = v ∧ i = .setenv u k a d x r)) ∧
      (p.osc.phase ≠ o.osc.phase ∨ p.smoothAmp ≠ o.smoothAmp ∨ p.cachedSample ≠ o.cachedSample →
        i.opcode ∈ [Opcode.reset, .render]) ∧
      (p.osc.inc ≠ o.osc.inc → i.opcode ∈ [Opcode.reset, .noteon] ∨ (i = .render ∧ o.modType = .fm) ∨
        ∃ u, u.val = v ∧ (i = .setmode u k .pm ∨
          (o.note ≠ none ∧ ((∃ w, i = .setratio u k w) ∨ ∃ c f, i = .settune u k c f)))) ∧
      (p.lastSample ≠ o.lastSample → i.opcode ∈ [Opcode.reset, .noteon, .render]) ∧
      (p.cached ≠ o.cached → (p.cached = true ∧ i = .render) ∨
        (p.cached = false ∧ i.opcode ∈ [Opcode.reset, .noteon, .clrcache])) ∧
      (p.inProgress ≠ o.inProgress → i.opcode = .reset)

/-- No step changes the configuration, the command stream or the size of the pool (00_scope.md R6, 20_memory.md R70). -/
def Obligations.ConfigurationAndStreamAreConstant : Prop :=
  ∀ s t : State, step s = .next t →
    t.cfg = s.cfg ∧ t.prog = s.prog ∧ t.progFrag = s.progFrag ∧ t.numVoices = s.numVoices

/-- No command reads or writes an operator of one voice on behalf of another (20_memory.md R61). Writes: a command that
names a voice leaves every other voice alone, and a note command writes one voice at most. Reads: what any command but a
note command makes of a voice depends on that voice, the sample rate, `INIT` and the configuration alone; a note command
also reads its note's map entry, and of the other voices whether each is active, which is how 45_voicehandler.md R202
allocates. -/
def Obligations.VoicesDoNotInterfere : Prop :=
  (∀ (i : Instr) (v : VoiceIx) (s t : State), i.voice? = some v → exec i s = .next t → OnlyVoice s t v.val) ∧
  (∀ (i : Instr) (s t : State), i.opcode ∈ [Opcode.noteon, .noteoff] → exec i s = .next t → ∃ v, OnlyVoice s t v) ∧
  ∀ (i : Instr) (s s' t t' : State) (v : Nat), s.init = s'.init → s.fs = s'.fs → s.cfg = s'.cfg →
    s.voice? v = s'.voice? v → exec i s = .next t → exec i s' = .next t' →
    (i.opcode ∉ [Opcode.noteon, .noteoff] → t.voice? v = t'.voice? v) ∧
    (∀ n, i = .noteoff n ∨ (∃ vel, i = .noteon n vel) → s.noteMap.get n = s'.noteMap.get n →
      s.numVoices = s'.numVoices → (∀ u, s.voiceActive u = s'.voiceActive u) → t.voice? v = t'.voice? v)

/-! ### Parameter commands -/

/-- SETRATIO stores the ratio; on an operator with a note it also recomputes the base frequency and pushes it to the
oscillator; the phase and everything else stay. -/
def Obligations.SetratioRetunesTheOperator : Prop :=
  ∀ (s : State) (N : NumOps) (v : VoiceIx) (i : OpIx) (w : Word) (o : Operator), N = s.num →
    s.init = true → s.operator? v.val i = some o →
    ∃ t p, exec (.setratio v i w) s = .next t ∧ OnlyPool s t 2 ∧ OnlyOperator s t v.val i ∧
      t.operator? v.val i = some p ∧
      (o.note = none → p = { o with ratio := N.ofBits w }) ∧
      ∀ n, o.note = some n → ∀ f, f = N.mul (N.mul (N.ofBits w) N.a4Hz)
          (N.exp2 (N.div (N.add (N.ofInt ((n.val : Int) - 69)) o.tuning) N.twelve)) →
        p = { o with ratio := N.ofBits w, baseFreq := f, osc := { o.osc with inc := N.div f s.fs } }

/-- SETTUNE stores coarse + fine/100; on an operator with a note it also recomputes the base frequency and pushes it to
the oscillator; the phase and everything else stay. -/
def Obligations.SettuneRetunesTheOperator : Prop :=
  ∀ (s : State) (N : NumOps) (v : VoiceIx) (i : OpIx) (coarse fine : Word) (o : Operator), N = s.num →
    s.init = true → s.operator? v.val i = some o →
    ∃ t p, exec (.settune v i coarse fine) s = .next t ∧ OnlyPool s t 3 ∧ OnlyOperator s t v.val i ∧
      t.operator? v.val i = some p ∧
      ∀ tu, tu = N.add (N.ofBits coarse) (N.div (N.ofBits fine) N.hundred) →
        (o.note = none → p = { o with tuning := tu }) ∧
        ∀ n, o.note = some n → ∀ f, f = N.mul (N.mul o.ratio N.a4Hz)
            (N.exp2 (N.div (N.add (N.ofInt ((n.val : Int) - 69)) tu) N.twelve)) →
          p = { o with tuning := tu, baseFreq := f, osc := { o.osc with inc := N.div f s.fs } }

/-- SETLEVEL and SETMIDX store their payload number in their own register and change nothing else. -/
def Obligations.SetlevelAndSetmidxArePlainWrites : Prop :=
  ∀ (s : State) (v : VoiceIx) (i : OpIx) (w : Word) (o : Operator),
    s.init = true → s.operator? v.val i = some o →
    (∃ t, exec (.setlevel v i w) s = .next t ∧ OnlyPool s t 2 ∧ OnlyOperator s t v.val i ∧
      t.operator? v.val i = some { o with level := s.num.ofBits w }) ∧
    (∃ t, exec (.setmidx v i w) s = .next t ∧ OnlyPool s t 2 ∧ OnlyOperator s t v.val i ∧
      t.operator? v.val i = some { o with modIndex := s.num.ofBits w })

/-- SETENV stores the four parameters and recomputes the rates from them and the sample rate; the envelope's state,
level and captured release start stay, and so does a running release slope unless the configuration rearms it. -/
def Obligations.SetenvRecomputesTheRates : Prop :=
  ∀ (s : State) (N : NumOps) (v : VoiceIx) (i : OpIx) (wa wd ws wr : Word) (o : Operator), N = s.num →
    s.init = true → s.operator? v.val i = some o →
    ∃ t, exec (.setenv v i wa wd ws wr) s = .next t ∧ OnlyPool s t 5 ∧ OnlyOperator s t v.val i ∧
      ∀ a d x r ra rd rr, a = N.ofBits wa → d = N.ofBits wd → x = N.ofBits ws → r = N.ofBits wr →
        ra = (if N.gt a N.zero then N.div N.one (N.mul a s.fs) else N.one) →
        rd = (if N.gt d N.zero then N.div (N.sub N.one x) (N.mul d s.fs) else N.one) →
        rr = (if N.gt r N.zero then N.div N.one (N.mul r s.fs) else N.one) →
        t.operator? v.val i = some { o with
          env := { o.env with
            attack := a, decay := d, sustain := x, release := r,
            attackRate := ra, decayRate := rd, relBaseRate := rr,
            relRate := if s.cfg.rearmsRelease then rr else o.env.relRate } }

/-- SETMODE to FM writes the mode alone; SETMODE to PM also restores the oscillator's increment to the base
frequency's. -/
def Obligations.SetmodeSwitchesModulation : Prop :=
  ∀ (s : State) (v : VoiceIx) (i : OpIx) (m : ModType) (o : Operator),
    s.init = true → s.operator? v.val i = some o →
    ∃ t, exec (.setmode v i m) s = .next t ∧ OnlyPool s t 1 ∧ OnlyOperator s t v.val i ∧
      (m = .fm → t.operator? v.val i = some { o with modType := .fm }) ∧
      (m = .pm → t.operator? v.val i =
        some { o with modType := .pm, osc := { o.osc with inc := s.num.div o.baseFreq s.fs } })

/-- SETALG with an index below 32 wires exactly the table's entry into the six operators of one voice, nothing of the
earlier routing left: the modulators of operator `i` are the modulators of the entry's edges into slot `i + 1`, in their
order. An index of 32 or more raises AlgIndex and writes nothing else. -/
def Obligations.SetalgRewiresOneVoice : Prop :=
  ∀ (s : State) (v : VoiceIx) (alg : AlgIx) (vc : Voice), s.init = true → s.voice? v.val = some vc →
    (∀ h : alg.val < 32, ∃ t tc, exec (.setalg v alg) s = .next t ∧ OnlyPool s t 1 ∧ OnlyVoice s t v.val ∧
      t.voice? v.val = some tc ∧ tc.note = vc.note ∧
      ∀ d, d = s.cfg.algTable.get ⟨alg.val, h⟩ → ∀ i : OpIx, tc.op.get i = { vc.op.get i with
        mods := d.edges.filterMap (fun e => if slotIndex e.1 = some i then slotIndex e.2 else none)
        carrier := d.carriers.any (fun k => slotIndex k == some i)
        feedback := d.feedback.bind slotIndex == some i }) ∧
    (32 ≤ alg.val → exec (.setalg v alg) s = .next { s.raise .algIndex with pc := s.pc + 1 })

/-- With a table meeting 43_algorithm.md R172, every SETALG of an index 0..31 leaves the voice with at least one carrier
and at most one feedback operator. -/
def Obligations.AdmissibleTablesGiveACarrier : Prop :=
  ∀ (s : State) (v : VoiceIx) (alg : AlgIx), s.init = true → s.hasVoice v = true → alg.val < 32 →
    s.cfg.algTable.admissible = true →
    ∃ t tc, exec (.setalg v alg) s = .next t ∧ t.voice? v.val = some tc ∧
      (∃ i, (tc.op.get i).carrier = true) ∧
      ∀ i j, (tc.op.get i).feedback = true → (tc.op.get j).feedback = true → i = j

/-! ### RESET and the note commands -/

/-- RESET with a finite sample rate above 0 sets `FS` and `INIT`, clears the map and every dynamic field, recomputes the
envelope rates, and keeps parameters, routing, fault registers and traces; any other rate raises ILLEGAL and changes
nothing else. -/
def Obligations.ResetClearsTheDynamicState : Prop :=
  ∀ (s : State) (N : NumOps) (w : Word), N = s.num →
    (N.isFinite (N.ofBits w) = true ∧ N.gt (N.ofBits w) N.zero = true → ∀ fs, fs = N.ofBits w →
      ∃ t, exec (.reset w) s = .next t ∧
        t = { s with fs := fs, init := true, noteMap := t.noteMap, voices := t.voices, pc := s.pc + 2 } ∧
        (∀ n, t.noteMap.get n = none) ∧ t.numVoices = s.numVoices ∧
        (∀ v vc, t.voice? v = some vc → vc.note = none) ∧
        ∀ v i o, s.operator? v i = some o → ∀ ra rd rr,
          ra = (if N.gt o.env.attack N.zero then N.div N.one (N.mul o.env.attack fs) else N.one) →
          rd = (if N.gt o.env.decay N.zero then N.div (N.sub N.one o.env.sustain) (N.mul o.env.decay fs) else N.one) →
          rr = (if N.gt o.env.release N.zero then N.div N.one (N.mul o.env.release fs) else N.one) →
          t.operator? v i = some { o with
            note := none, baseFreq := N.zero, smoothAmp := N.zero, cached := false, cachedSample := N.zero
            lastSample := N.zero, inProgress := false
            osc := ⟨N.zero, N.zero, N.zero⟩
            env := { o.env with
              state := .idle, level := N.zero, relStart := N.zero
              attackRate := ra, decayRate := rd, relBaseRate := rr
              relRate := if s.cfg.rearmsRelease then rr else N.zero } }) ∧
    (¬(N.isFinite (N.ofBits w) = true ∧ N.gt (N.ofBits w) N.zero = true) →
      exec (.reset w) s = .next { s.raise .illegal with pc := s.pc + 2 })

/-- NOTEON with a velocity above 0: the voice is the note's own if it is mapped, else the lowest that is not active,
else voice 0, which is released first; every other note of a newly allocated voice is unmapped; the six operators of
the voice start the note, keeping phase, smoothed amplitude, parameters and routing; every other voice stays. -/
def Obligations.NoteonAllocatesAndStarts : Prop :=
  ∀ (s : State) (N : NumOps) (note : Note) (vel : Velocity), N = s.num → s.init = true → vel.val ≠ 0 → 0 < s.numVoices →
    ∃ t v, exec (.noteon note vel) s = .next t ∧
      t = { s with noteMap := t.noteMap, voices := t.voices, pc := s.pc + 1 } ∧
      (∀ w, s.noteMap.get note = some w → v = w) ∧
      (s.noteMap.get note = none → v < s.numVoices ∧
        ((∃ u, u < s.numVoices ∧ s.voiceActive u = false) →
          s.voiceActive v = false ∧ ∀ u, u < v → s.voiceActive u = true) ∧
        ((∀ u, u < s.numVoices → s.voiceActive u = true) → v = 0)) ∧
      t.noteMap.get note = some v ∧
      (∀ n, n ≠ note → t.noteMap.get n =
        if s.noteMap.get note = none ∧ s.noteMap.get n = some v then none else s.noteMap.get n) ∧
      OnlyVoice s t v ∧
      ∀ vc, s.voice? v = some vc → ∃ tc, t.voice? v = some tc ∧ tc.note = some note ∧
        ∀ (i : OpIx) (o : Operator) (f : Number), o = vc.op.get i →
          f = N.mul (N.mul o.ratio N.a4Hz)
            (N.exp2 (N.div (N.add (N.ofInt ((note.val : Int) - 69)) o.tuning) N.twelve)) →
          tc.op.get i = { o with
            note := some note, baseFreq := f, lastSample := N.zero, cached := false
            osc := ⟨o.osc.phase, N.div f s.fs, N.div (N.ofInt vel.val) N.velFull⟩
            env := (if s.noteMap.get note = none ∧ (∀ u, u < s.numVoices → s.voiceActive u = true)
              then (o.env.noteOff N s.fs).noteOn N else o.env.noteOn N) }

/-- NOTEON with velocity 0 is legal, whatever follows it in the stream, and executes as NOTEOFF of the same note. -/
def Obligations.NoteonOfVelocityZeroIsNoteoff : Prop :=
  ∀ (s : State) (note : Note),
    (∀ rest : List Word, decode s.numVoices (BitVec.ofNat 32 (0x90000000 + 0x100 * note.val)) rest =
      .ok (.noteon note 0)) ∧
    exec (.noteon note 0) s = exec (.noteoff note) s

/-- NOTEOFF of a mapped note unmaps it and sends the envelopes of its voice, and nothing else, to Release (from the
captured level, at the rate that lasts `release` seconds) or to Idle; NOTEOFF of an unmapped note changes `pc` alone. -/
def Obligations.NoteoffReleasesTheMappedVoice : Prop :=
  ∀ (s : State) (N : NumOps) (note : Note), N = s.num → s.init = true →
    (s.noteMap.get note = none → exec (.noteoff note) s = .next { s with pc := s.pc + 1 }) ∧
    ∀ v, s.noteMap.get note = some v →
      ∃ t, exec (.noteoff note) s = .next t ∧
        t = { s with noteMap := t.noteMap, voices := t.voices, pc := s.pc + 1 } ∧
        t.noteMap.get note = none ∧ (∀ n, n ≠ note → t.noteMap.get n = s.noteMap.get n) ∧
        OnlyVoice s t v ∧
        ∀ vc, s.voice? v = some vc → ∃ tc, t.voice? v = some tc ∧ tc.note = vc.note ∧
          ∀ (i : OpIx) (o : Operator), o = vc.op.get i →
            (o.env.state = .idle → tc.op.get i = o) ∧
            (o.env.state ≠ .idle → N.gt o.env.release N.zero = true → tc.op.get i = { o with
              env := { o.env with
                state := .release, relStart := o.env.level
                relRate := N.div o.env.level (N.mul o.env.release s.fs) } }) ∧
            (o.env.state ≠ .idle → N.gt o.env.release N.zero = false → tc.op.get i = { o with
              env := { o.env with state := .idle, relStart := o.env.level, level := N.zero } })

/-! ### RENDER, CLRCACHE, QACTIVE -/

/-- RENDER writes to `OUT` the sum, in ascending voice index from 0, of the voices' samples and appends it to `outS`. A
voice's sample is the sum of its carriers' samples, evaluated in ascending index each on the operators the one before
left, divided by their number, and its operators are what those evaluations leave; a voice without a carrier gives 0,
stays as it is, and raises NoCarrier. Notes, parameters, routing, base frequencies and velocity scales stay. -/
def Obligations.RenderMixesTheVoices : Prop :=
  ∀ (s : State) (N : NumOps) (carriers : Voice → List OpIx) (sum : Voice → Number × Six Operator),
    N = s.num → s.init = true →
    (∀ vc, carriers vc = ([0, 1, 2, 3, 4, 5] : List OpIx).filter fun i => (vc.op.get i).carrier) →
    (∀ vc, sum vc = (carriers vc).foldl
      (fun acc i => (N.add acc.1 (getSample ⟨N, s.cfg.smoothCoef, s.fs⟩ acc.2 i).1,
        (getSample ⟨N, s.cfg.smoothCoef, s.fs⟩ acc.2 i).2)) (N.zero, vc.op)) →
    ∃ t, exec .render s = .next t ∧
      ((∀ vc ∈ s.voices, ∃ i, (vc.op.get i).carrier = true) →
        t = { s with out := t.out, outS := s.outS ++ [t.out], voices := t.voices, pc := s.pc + 1 }) ∧
      ((∃ vc ∈ s.voices, ∀ i, (vc.op.get i).carrier = false) →
        t = { s.raise .noCarrier with
          out := t.out, outS := s.outS ++ [t.out], voices := t.voices, pc := s.pc + 1 }) ∧
      t.out = (s.voices.map fun vc =>
        if carriers vc = [] then N.zero else N.div (sum vc).1 (N.ofInt (carriers vc).length)).foldl N.add N.zero ∧
      t.numVoices = s.numVoices ∧
      ∀ v vc, s.voice? v = some vc → ∃ tc, t.voice? v = some tc ∧ tc.note = vc.note ∧
        (carriers vc = [] → tc = vc) ∧ (carriers vc ≠ [] → tc.op = (sum vc).2) ∧
        ∀ i, (vc.op.get i).sameSetup (tc.op.get i)

/-- In one RENDER (42_operator.md R158) an operator that a carrier of its voice reaches along operators not `cached`
on entry is evaluated exactly once: its envelope takes one tick and its oscillator advances once. Every other
operator, an operator that no carrier reaches among them, stays as it is; that an operator behind a cached one stays
too is R146's text, where R158's words can be read otherwise (log entry 20). The premise is the invariant's clause
that no operator is in progress. -/
def Obligations.RenderAdvancesEachReachedOperatorOnce : Prop :=
  ∀ s : State, s.init = true → (∀ v i o, s.operator? v i = some o → o.inProgress = false) →
    ∃ t, exec .render s = .next t ∧
      ∀ v vc, s.voice? v = some vc → ∃ tc, t.voice? v = some tc ∧ ∀ (j : OpIx) (o p : Operator),
        o = vc.op.get j → p = tc.op.get j →
        ((∀ i, (vc.op.get i).carrier = true → ¬Reaches vc.op i j) → p = o) ∧
        ((∀ i, (vc.op.get i).carrier = true → ¬ReachesOpen vc.op i j) → p = o) ∧
        ((∃ i, (vc.op.get i).carrier = true ∧ ReachesOpen vc.op i j) →
          (∃ m, p = o.produce ⟨s.num, s.cfg.smoothCoef, s.fs⟩ m) ∧ p.cached = true ∧ p.env = o.env.next s.num ∧
          p.osc.phase = s.num.wrap01 (s.num.add o.osc.phase p.osc.inc))

/-- CLRCACHE clears `cached` on every operator of every voice and changes nothing else; a second one changes `pc`
alone. -/
def Obligations.ClrcacheForgetsTheTick : Prop :=
  ∀ s : State, s.init = true →
    ∃ t, exec .clrcache s = .next t ∧ OnlyPool s t 1 ∧ t.numVoices = s.numVoices ∧
      (∀ v vc, s.voice? v = some vc → ∃ tc, t.voice? v = some tc ∧ tc.note = vc.note ∧
        ∀ i, tc.op.get i = { vc.op.get i with cached := false }) ∧
      exec .clrcache t = .next { t with pc := t.pc + 1 }

/-- QACTIVE answers whether any carrier of the voice has an envelope that is not Idle, in `QOUT` and at the end of
`outQ`, and changes nothing else but `pc`. -/
def Obligations.QactiveAnswersAndChangesNothingElse : Prop :=
  ∀ (s : State) (v : VoiceIx) (vc : Voice), s.init = true → s.voice? v.val = some vc →
    ∃ q : Bool, exec (.qactive v) s = .next { s with qout := q, outQ := s.outQ ++ [(v, q)], pc := s.pc + 1 } ∧
      (q = true ↔ ∃ i, (vc.op.get i).carrier = true ∧ (vc.op.get i).env.state ≠ .idle)

/-- A RENDER that follows a RENDER with no CLRCACHE and no note command between gives the same sample again, appends it
to `outS`, and changes nothing else but `pc`: no oscillator and no envelope advances. The premise is the invariant's
clause that no operator is in progress. -/
def Obligations.RenderWithoutClrcacheRepeats : Prop :=
  ∀ s t : State, s.init = true → (∀ v i o, s.operator? v i = some o → o.inProgress = false) →
    exec .render s = .next t →
    exec .render t = .next { t with outS := t.outS ++ [t.out], pc := t.pc + 1 }

/-- In binary32, from RESET until the first note-on, on voices that have carriers, every RENDER writes exactly 0.
RESET reaches the silent condition, and every command but a note-on keeps it, for finite payloads and an admissible
configuration. -/
def Obligations.SilenceUntilTheFirstNote : Prop :=
  (∀ (s : State) (w : Word), s.cfg.num = .binary32 → legalRate s.num (s.num.ofBits w) = true →
    (∀ vc ∈ s.voices, vc.carriers ≠ []) →
    (∀ v i o, s.operator? v i = some o → s.num.isFinite o.level = true ∧ s.num.isFinite o.modIndex = true) →
    ∃ t, exec (.reset w) s = .next t ∧ t.Silent) ∧
  (∀ (s : State) (i : Instr), s.Silent → s.cfg.admissible = true →
    (∀ w ∈ i.payload, s.num.isFinite (s.num.ofBits w) = true) → (∀ n vel, i = .noteon n vel → vel = 0) →
    ∃ t, exec i s = .next t ∧ t.Silent ∧ t.cfg = s.cfg ∧
      (i = .render → t.out = .b32 .zero ∧ t.outS = s.outS ++ [.b32 .zero]) ∧ (i ≠ .render → t.outS = s.outS))

/-! ### Envelope -/

/-- The envelope's state machine: every transition of 40_envelope.md R110's table, under its condition, and no other. -/
def Obligations.EnvelopeTransitions : Prop :=
  ∀ (N : NumOps) (e : Envelope),
    ((e.noteOn N).state =
      if N.gt e.attack N.zero then .attack else if N.gt e.decay N.zero then .decay else .sustain) ∧
    (∀ fs, (e.noteOff N fs).state =
      if e.state = .idle then .idle else if N.gt e.release N.zero then .release else .idle) ∧
    ((e.next N).state ≠ e.state →
      (e.state = .attack ∧ (e.next N).level = N.one ∧ N.ge (N.add e.level e.attackRate) N.one = true ∧
        (e.next N).state = (if N.gt e.decay N.zero then .decay else .sustain)) ∨
      (e.state = .decay ∧ N.le (N.sub e.level e.decayRate) e.sustain = true ∧ (e.next N).state = .sustain) ∨
      (e.state = .release ∧ N.le (N.sub e.level e.relRate) N.zero = true ∧ (e.next N).state = .idle)) ∧
    (e.state = .attack → N.ge (N.add e.level e.attackRate) N.one = true → (e.next N).state ≠ .attack) ∧
    (e.state = .decay → N.le (N.sub e.level e.decayRate) e.sustain = true → (e.next N).state = .sustain) ∧
    (e.state = .release → N.le (N.sub e.level e.relRate) N.zero = true → (e.next N).state = .idle) ∧
    (∀ rearms fs, (e.reset N rearms fs).state = .idle) ∧
    (∀ rearms fs a d s r, (e.setParameters N rearms fs a d s r).state = e.state)

/-- What note-on (40_envelope.md R113) and one tick (R115) do to an envelope: the branch of the state on entry, and no
other field than state and level. -/
def Obligations.EnvelopeFunctionsFollowTheirRules : Prop :=
  ∀ (N : NumOps) (e : Envelope),
    (N.gt e.attack N.zero = true → e.noteOn N =
      { e with state := .attack, level := if e.state = .idle then N.zero else e.level }) ∧
    (N.gt e.attack N.zero = false → N.gt e.decay N.zero = true →
      e.noteOn N = { e with state := .decay, level := N.one }) ∧
    (N.gt e.attack N.zero = false → N.gt e.decay N.zero = false →
      e.noteOn N = { e with state := .sustain, level := e.sustain }) ∧
    (e.state = .idle → e.next N = { e with level := N.zero }) ∧
    (e.state = .attack → ∀ l, l = N.add e.level e.attackRate →
      (N.ge l N.one = true → e.next N =
        { e with level := N.one, state := if N.gt e.decay N.zero then .decay else .sustain }) ∧
      (N.ge l N.one = false → e.next N = { e with level := l })) ∧
    (e.state = .decay → ∀ l, l = N.sub e.level e.decayRate →
      (N.le l e.sustain = true → e.next N = { e with level := e.sustain, state := .sustain }) ∧
      (N.le l e.sustain = false → e.next N = { e with level := l })) ∧
    (e.state = .sustain → e.next N = { e with level := e.sustain }) ∧
    (e.state = .release → ∀ l, l = N.sub e.level e.relRate →
      (N.le l N.zero = true → e.next N = { e with level := N.zero, state := .idle }) ∧
      (N.le l N.zero = false → e.next N = { e with level := l }))

/-- The envelope's level stays in [0, 1] in binary32, for a level and a sustain level in [0, 1] and rates that are not
below 0 (40_envelope.md R118 (c)). -/
def Obligations.EnvelopeLevelStaysInRange : Prop :=
  ∀ (N : NumOps) (e : Envelope), N = NumOps.binary32 → N.inUnit e.level = true → N.inUnit e.sustain = true →
    N.le N.zero e.attackRate = true → N.le N.zero e.decayRate = true → N.le N.zero e.relRate = true →
    N.inUnit (e.next N).level = true ∧ N.inUnit (e.noteOn N).level = true ∧
      ∀ fs, N.inUnit (e.noteOff N fs).level = true

/-- The envelope's level does not fall during Attack, does not rise during Decay (from a level not below sustain) and
Release, and is the sustain level during Sustain, in binary32 (40_envelope.md R118 (b)). -/
def Obligations.EnvelopeIsMonotone : Prop :=
  ∀ (N : NumOps) (e : Envelope), N = NumOps.binary32 → N.inUnit e.level = true →
    N.le N.zero e.attackRate = true → N.le N.zero e.decayRate = true → N.le N.zero e.relRate = true →
    (e.state = .attack → N.le e.level (e.next N).level = true) ∧
    (e.state = .decay → N.le e.sustain e.level = true → N.le (e.next N).level e.level = true) ∧
    (e.state = .sustain → (e.next N).level = e.sustain ∧ (e.next N).state = .sustain) ∧
    (e.state = .release → N.le (e.next N).level e.level = true)

/-! ### Numbers, oscillator, pitch -/

/-- The reset state's number format is binary32 (00_scope.md R6, R11), whose constants are the numbers they name;
`TWO_PI` is the word 0x40C90FDB. -/
def Obligations.DefaultFormatIsBinary32 : Prop :=
  State.reset.num = NumOps.binary32 ∧
  ∀ N : NumOps, N = NumOps.binary32 →
    N.zero = N.ofInt 0 ∧ N.one = N.ofInt 1 ∧ N.negOne = N.ofInt (-1) ∧ N.two = N.ofInt 2 ∧ N.twelve = N.ofInt 12 ∧
    N.hundred = N.ofInt 100 ∧ N.velFull = N.ofInt 127 ∧ N.a4Hz = N.ofInt 440 ∧
    N.mul (N.ofInt 4) N.quarter = N.one ∧ N.mul (N.ofInt 2) N.half = N.one ∧
    N.mul (N.ofInt 4) N.threeQuarters = N.ofInt 3 ∧
    N.zero = N.ofBits 0#32 ∧ N.one = N.ofBits 0x3F800000#32 ∧ N.quarter = N.ofBits 0x3E800000#32 ∧
    N.half = N.ofBits 0x3F000000#32 ∧ N.twoPi = N.ofBits 0x40C90FDB#32

/-- Every binary32 number is the number its bits carry, and every word that is no NaN pattern is the bits of its number
(00_scope.md R11). -/
def Obligations.NumbersTravelAsTheirBits : Prop :=
  ∀ N : NumOps, N = NumOps.binary32 →
    (∀ x : Num32, N.ofBits (N.toBits (.b32 x)) = .b32 x) ∧
    (∀ w : Word, Num32.isNanWord w = false → N.toBits (N.ofBits w) = w) ∧
    (∀ w : Word, Num32.isNanWord w = true ↔ N.ofBits w = .b32 .nan)

/-- In every format `wrap01(x)` is `x - floor(x)`, 0 where that rounds to 1 (00_scope.md R13); in binary32 it lies in
[0,1) for every finite `x`. -/
def Obligations.WrapLandsInTheUnitInterval : Prop :=
  ∀ (N : NumOps) (x : Number),
    (N.eq (N.sub x (N.floor x)) N.one = false → N.wrap01 x = N.sub x (N.floor x)) ∧
    (N.eq (N.sub x (N.floor x)) N.one = true → N.wrap01 x = N.zero) ∧
    (N = NumOps.binary32 → N.isFinite x = true → ∃ y : Num32, N.wrap01 x = .b32 y ∧ y.isPhase = true)

/-- The named properties of `SIN2PI` and `EXP2` in binary32, whatever the open functions are. That a zero value is the
positive zero and that the points are taken at both zeros is the model's reading (log entry 12), and so is that `EXP2`
is above 0 at a NaN too (log entry 3). -/
def Obligations.OpenFunctionsKeepTheirNamedProperties : Prop :=
  ∀ N : NumOps, N = NumOps.binary32 →
    N.sin2pi N.zero = N.zero ∧ N.sin2pi N.quarter = N.one ∧ N.sin2pi N.half = N.zero ∧
    N.sin2pi N.threeQuarters = N.negOne ∧
    (∀ p, N.isFinite p = true → N.le N.negOne (N.sin2pi p) = true ∧ N.le (N.sin2pi p) N.one = true) ∧
    N.exp2 N.zero = N.one ∧ N.exp2 N.one = N.two ∧ N.exp2 N.negOne = N.half ∧ ∀ e, N.gt (N.exp2 e) N.zero = true

/-- The oscillator's phase offset moves the read and nothing else (41_oscillator.md R131, R132), in every format. In
binary32 the stored phase after the advance is in [0,1) for a finite sum of phase and increment, and the value read at a
finite modulated phase is in [-1,1]. -/
def Obligations.PhaseOffsetMovesTheReadOnly : Prop :=
  ∀ (N : NumOps) (osc : Oscillator) (off : Number),
    (∀ off', (osc.next N off).2 = (osc.next N off').2) ∧
    (osc.next N off).2.inc = osc.inc ∧ (osc.next N off).2.amplitude = osc.amplitude ∧
    (N = NumOps.binary32 → N.isFinite (N.add osc.phase osc.inc) = true →
      ∃ y : Num32, (osc.next N off).2.phase = .b32 y ∧ y.isPhase = true) ∧
    (N = NumOps.binary32 → N.isFinite (N.add osc.phase (N.div off N.twoPi)) = true →
      N.le N.negOne (osc.next N off).1 = true ∧ N.le (osc.next N off).1 N.one = true)

/-- The pitch formula, in every format: base frequency = (ratio * 440) * EXP2((note - 69 + tuning) / 12). In binary32
it is exactly 440 for note 69 and 880 for note 81 at ratio 1 and tuning 0, whatever `EXP2` is elsewhere. -/
def Obligations.PitchFormula : Prop :=
  ∀ (N : NumOps) (o : Operator),
    (∀ n : Note, o.baseFreqOf N n = N.mul (N.mul o.ratio N.a4Hz)
      (N.exp2 (N.div (N.add (N.ofInt ((n.val : Int) - 69)) o.tuning) N.twelve))) ∧
    (N = NumOps.binary32 → o.ratio = N.one → o.tuning = N.zero →
      o.baseFreqOf N 69 = N.ofInt 440 ∧ o.baseFreqOf N 81 = N.ofInt 880)

/-! ### The evaluator -/

/-- One evaluation (42_operator.md R146, R147): a cached operator answers its cached sample, one in progress its
`lastSample`, both changing nothing. Any other sums the feedback term and its modulators' samples in list order,
advances its envelope once, smooths its amplitude, reads its oscillator (with a phase offset in PM, retuned in FM),
caches the product, and averages it into `lastSample`. -/
def Obligations.EvaluationFollowsTheRule : Prop :=
  ∀ (c : EvalEnv) (N : NumOps) (ops : Six Operator) (i : OpIx) (o : Operator), N = c.num → o = ops.get i →
    (o.cached = true → getSample c ops i = (o.cachedSample, ops)) ∧
    (o.cached = false → o.inProgress = true → getSample c ops i = (o.lastSample, ops)) ∧
    (o.cached = false → o.inProgress = false →
      ∀ (r : Number × Six Operator) (amp : Number),
        r = o.mods.foldl (fun acc j => (N.add acc.1 (getSample c acc.2 j).1, (getSample c acc.2 j).2))
          (if o.feedback then N.add N.zero (N.mul o.lastSample N.quarter) else N.zero,
            ops.set i { o with inProgress := true }) →
        amp = N.add o.smoothAmp
          (N.mul c.coef (N.sub (N.mul (N.mul o.osc.amplitude o.level) (o.env.next N).level) o.smoothAmp)) →
        (o.modType = .pm → ∀ y,
          y = N.sin2pi (N.wrap01 (N.add o.osc.phase (N.div (N.mul o.modIndex r.1) N.twoPi))) →
          getSample c ops i = (N.mul y amp, r.2.set i { o with
            env := o.env.next N, smoothAmp := amp
            osc := { o.osc with phase := N.wrap01 (N.add o.osc.phase o.osc.inc) }
            cachedSample := N.mul y amp, lastSample := N.div (N.add o.lastSample (N.mul y amp)) N.two
            cached := true, inProgress := false })) ∧
        (o.modType = .fm → ∀ y f,
          y = N.sin2pi (N.wrap01 (N.add o.osc.phase (N.div N.zero N.twoPi))) →
          f = N.max N.zero (N.add o.baseFreq (N.mul (N.mul o.modIndex r.1) o.baseFreq)) →
          getSample c ops i = (N.mul y amp, r.2.set i { o with
            env := o.env.next N, smoothAmp := amp
            osc := { o.osc with inc := N.div f c.fs, phase := N.wrap01 (N.add o.osc.phase (N.div f c.fs)) }
            cachedSample := N.mul y amp, lastSample := N.div (N.add o.lastSample (N.mul y amp)) N.two
            cached := true, inProgress := false })))

/-- The evaluator is its own text with its calls of itself unbounded, on every six operators: the depth bound of the
model is never met. -/
def Obligations.EvaluatorObeysItsText : Prop :=
  ∀ (c : EvalEnv) (ops : Six Operator) (i : OpIx), getSample c ops i = sampleBody c (getSample c) ops i

/-- Within one tick a second call on an operator returns the identical value and changes nothing, also after calls on
other operators between; the operator is cached from its first call on. -/
def Obligations.EvaluatorIsCoherentInATick : Prop :=
  ∀ (c : EvalEnv) (ops : Six Operator) (i j : OpIx), (ops.get i).inProgress = false →
    ((getSample c ops i).2.get i).cached = true ∧
    getSample c (getSample c ops i).2 i = getSample c ops i ∧
    (getSample c (getSample c (getSample c ops i).2 j).2 i).1 = (getSample c ops i).1

/-- One call changes an operator by at most one evaluation. The operators it changes are reached from the operator
called along operators not `cached` on entry; and where no operator is in progress on entry it changes every such
operator, by exactly one evaluation. -/
def Obligations.OperatorsAdvanceAtMostOnce : Prop :=
  ∀ (c : EvalEnv) (ops : Six Operator) (i j : OpIx),
    ((getSample c ops i).2.get j = ops.get j ∨ ∃ m, (getSample c ops i).2.get j = (ops.get j).produce c m) ∧
    (¬Reaches ops i j → (getSample c ops i).2.get j = ops.get j) ∧
    (¬ReachesOpen ops i j → (getSample c ops i).2.get j = ops.get j) ∧
    ((∀ k, (ops.get k).inProgress = false) → ReachesOpen ops i j →
      ((getSample c ops i).2.get j).cached = true ∧ ∃ m, (getSample c ops i).2.get j = (ops.get j).produce c m)
end

