-- ==== Sys2Proof/Laws/State.lean ====
section
/-! SUPPORT. The fields of a state after each update of it: one lemma per field per update, so that no later proof
unfolds a record update. -/

namespace Sys2Proof.Machine

variable (s : State)

/-! ### advance -/

@[simp] theorem State.advance_cfg (len : Nat) : (s.advance len).cfg = s.cfg := rfl
@[simp] theorem State.advance_num (len : Nat) : (s.advance len).num = s.num := rfl
@[simp] theorem State.advance_prog (len : Nat) : (s.advance len).prog = s.prog := rfl
@[simp] theorem State.advance_progFrag (len : Nat) : (s.advance len).progFrag = s.progFrag := rfl
@[simp] theorem State.advance_pc (len : Nat) : (s.advance len).pc = s.pc + len := rfl
@[simp] theorem State.advance_fs (len : Nat) : (s.advance len).fs = s.fs := rfl
@[simp] theorem State.advance_init (len : Nat) : (s.advance len).init = s.init := rfl
@[simp] theorem State.advance_out (len : Nat) : (s.advance len).out = s.out := rfl
@[simp] theorem State.advance_outS (len : Nat) : (s.advance len).outS = s.outS := rfl
@[simp] theorem State.advance_qout (len : Nat) : (s.advance len).qout = s.qout := rfl
@[simp] theorem State.advance_outQ (len : Nat) : (s.advance len).outQ = s.outQ := rfl
@[simp] theorem State.advance_fault (len : Nat) : (s.advance len).fault = s.fault := rfl
@[simp] theorem State.advance_ffirst (len : Nat) : (s.advance len).ffirst = s.ffirst := rfl
@[simp] theorem State.advance_fpc (len : Nat) : (s.advance len).fpc = s.fpc := rfl
@[simp] theorem State.advance_fword (len : Nat) : (s.advance len).fword = s.fword := rfl
@[simp] theorem State.advance_noteMap (len : Nat) : (s.advance len).noteMap = s.noteMap := rfl
@[simp] theorem State.advance_voices (len : Nat) : (s.advance len).voices = s.voices := rfl

/-! ### raise -/

@[simp] theorem State.raise_cfg (c : Cause) : (s.raise c).cfg = s.cfg := rfl
@[simp] theorem State.raise_num (c : Cause) : (s.raise c).num = s.num := rfl
@[simp] theorem State.raise_prog (c : Cause) : (s.raise c).prog = s.prog := rfl
@[simp] theorem State.raise_progFrag (c : Cause) : (s.raise c).progFrag = s.progFrag := rfl
@[simp] theorem State.raise_pc (c : Cause) : (s.raise c).pc = s.pc := rfl
@[simp] theorem State.raise_fs (c : Cause) : (s.raise c).fs = s.fs := rfl
@[simp] theorem State.raise_init (c : Cause) : (s.raise c).init = s.init := rfl
@[simp] theorem State.raise_out (c : Cause) : (s.raise c).out = s.out := rfl
@[simp] theorem State.raise_outS (c : Cause) : (s.raise c).outS = s.outS := rfl
@[simp] theorem State.raise_qout (c : Cause) : (s.raise c).qout = s.qout := rfl
@[simp] theorem State.raise_outQ (c : Cause) : (s.raise c).outQ = s.outQ := rfl
@[simp] theorem State.raise_fault (c : Cause) : (s.raise c).fault = setFaultBit s.fault c := rfl
@[simp] theorem State.raise_ffirst (c : Cause) :
    (s.raise c).ffirst = if s.ffirst = 0 then c.code else s.ffirst := rfl
@[simp] theorem State.raise_fpc (c : Cause) : (s.raise c).fpc = if s.ffirst = 0 then s.pc else s.fpc := rfl
@[simp] theorem State.raise_fword (c : Cause) :
    (s.raise c).fword = if s.ffirst = 0 then s.headerWord else s.fword := rfl
@[simp] theorem State.raise_noteMap (c : Cause) : (s.raise c).noteMap = s.noteMap := rfl
@[simp] theorem State.raise_voices (c : Cause) : (s.raise c).voices = s.voices := rfl

/-! ### modifyVoice -/

@[simp] theorem State.modifyVoice_cfg (v : Nat) (f : Voice → Voice) : (s.modifyVoice v f).cfg = s.cfg := rfl
@[simp] theorem State.modifyVoice_num (v : Nat) (f : Voice → Voice) : (s.modifyVoice v f).num = s.num := rfl
@[simp] theorem State.modifyVoice_prog (v : Nat) (f : Voice → Voice) : (s.modifyVoice v f).prog = s.prog := rfl
@[simp] theorem State.modifyVoice_progFrag (v : Nat) (f : Voice → Voice) :
    (s.modifyVoice v f).progFrag = s.progFrag := rfl
@[simp] theorem State.modifyVoice_pc (v : Nat) (f : Voice → Voice) : (s.modifyVoice v f).pc = s.pc := rfl
@[simp] theorem State.modifyVoice_fs (v : Nat) (f : Voice → Voice) : (s.modifyVoice v f).fs = s.fs := rfl
@[simp] theorem State.modifyVoice_init (v : Nat) (f : Voice → Voice) : (s.modifyVoice v f).init = s.init := rfl
@[simp] theorem State.modifyVoice_out (v : Nat) (f : Voice → Voice) : (s.modifyVoice v f).out = s.out := rfl
@[simp] theorem State.modifyVoice_outS (v : Nat) (f : Voice → Voice) : (s.modifyVoice v f).outS = s.outS := rfl
@[simp] theorem State.modifyVoice_qout (v : Nat) (f : Voice → Voice) : (s.modifyVoice v f).qout = s.qout := rfl
@[simp] theorem State.modifyVoice_outQ (v : Nat) (f : Voice → Voice) : (s.modifyVoice v f).outQ = s.outQ := rfl
@[simp] theorem State.modifyVoice_fault (v : Nat) (f : Voice → Voice) : (s.modifyVoice v f).fault = s.fault := rfl
@[simp] theorem State.modifyVoice_ffirst (v : Nat) (f : Voice → Voice) : (s.modifyVoice v f).ffirst = s.ffirst := rfl
@[simp] theorem State.modifyVoice_fpc (v : Nat) (f : Voice → Voice) : (s.modifyVoice v f).fpc = s.fpc := rfl
@[simp] theorem State.modifyVoice_fword (v : Nat) (f : Voice → Voice) : (s.modifyVoice v f).fword = s.fword := rfl
@[simp] theorem State.modifyVoice_noteMap (v : Nat) (f : Voice → Voice) : (s.modifyVoice v f).noteMap = s.noteMap := rfl
@[simp] theorem State.modifyVoice_voices (v : Nat) (f : Voice → Voice) :
    (s.modifyVoice v f).voices = s.voices.modify v f := rfl

/-! ### modifyOp -/

@[simp] theorem State.modifyOp_cfg (v : Nat) (i : OpIx) (f : Operator → Operator) :
    (s.modifyOp v i f).cfg = s.cfg := rfl
@[simp] theorem State.modifyOp_num (v : Nat) (i : OpIx) (f : Operator → Operator) :
    (s.modifyOp v i f).num = s.num := rfl
@[simp] theorem State.modifyOp_prog (v : Nat) (i : OpIx) (f : Operator → Operator) :
    (s.modifyOp v i f).prog = s.prog := rfl
@[simp] theorem State.modifyOp_progFrag (v : Nat) (i : OpIx) (f : Operator → Operator) :
    (s.modifyOp v i f).progFrag = s.progFrag := rfl
@[simp] theorem State.modifyOp_pc (v : Nat) (i : OpIx) (f : Operator → Operator) : (s.modifyOp v i f).pc = s.pc := rfl
@[simp] theorem State.modifyOp_fs (v : Nat) (i : OpIx) (f : Operator → Operator) : (s.modifyOp v i f).fs = s.fs := rfl
@[simp] theorem State.modifyOp_init (v : Nat) (i : OpIx) (f : Operator → Operator) :
    (s.modifyOp v i f).init = s.init := rfl
@[simp] theorem State.modifyOp_out (v : Nat) (i : OpIx) (f : Operator → Operator) :
    (s.modifyOp v i f).out = s.out := rfl
@[simp] theorem State.modifyOp_outS (v : Nat) (i : OpIx) (f : Operator → Operator) :
    (s.modifyOp v i f).outS = s.outS := rfl
@[simp] theorem State.modifyOp_qout (v : Nat) (i : OpIx) (f : Operator → Operator) :
    (s.modifyOp v i f).qout = s.qout := rfl
@[simp] theorem State.modifyOp_outQ (v : Nat) (i : OpIx) (f : Operator → Operator) :
    (s.modifyOp v i f).outQ = s.outQ := rfl
@[simp] theorem State.modifyOp_fault (v : Nat) (i : OpIx) (f : Operator → Operator) :
    (s.modifyOp v i f).fault = s.fault := rfl
@[simp] theorem State.modifyOp_ffirst (v : Nat) (i : OpIx) (f : Operator → Operator) :
    (s.modifyOp v i f).ffirst = s.ffirst := rfl
@[simp] theorem State.modifyOp_fpc (v : Nat) (i : OpIx) (f : Operator → Operator) :
    (s.modifyOp v i f).fpc = s.fpc := rfl
@[simp] theorem State.modifyOp_fword (v : Nat) (i : OpIx) (f : Operator → Operator) :
    (s.modifyOp v i f).fword = s.fword := rfl
@[simp] theorem State.modifyOp_noteMap (v : Nat) (i : OpIx) (f : Operator → Operator) :
    (s.modifyOp v i f).noteMap = s.noteMap := rfl
@[simp] theorem State.modifyOp_voices (v : Nat) (i : OpIx) (f : Operator → Operator) :
    (s.modifyOp v i f).voices = s.voices.modify v fun vc => vc.modifyOp i f := rfl

/-! ### mapVoices -/

@[simp] theorem State.mapVoices_cfg (f : Voice → Voice) : (s.mapVoices f).cfg = s.cfg := rfl
@[simp] theorem State.mapVoices_num (f : Voice → Voice) : (s.mapVoices f).num = s.num := rfl
@[simp] theorem State.mapVoices_prog (f : Voice → Voice) : (s.mapVoices f).prog = s.prog := rfl
@[simp] theorem State.mapVoices_progFrag (f : Voice → Voice) : (s.mapVoices f).progFrag = s.progFrag := rfl
@[simp] theorem State.mapVoices_pc (f : Voice → Voice) : (s.mapVoices f).pc = s.pc := rfl
@[simp] theorem State.mapVoices_fs (f : Voice → Voice) : (s.mapVoices f).fs = s.fs := rfl
@[simp] theorem State.mapVoices_init (f : Voice → Voice) : (s.mapVoices f).init = s.init := rfl
@[simp] theorem State.mapVoices_out (f : Voice → Voice) : (s.mapVoices f).out = s.out := rfl
@[simp] theorem State.mapVoices_outS (f : Voice → Voice) : (s.mapVoices f).outS = s.outS := rfl
@[simp] theorem State.mapVoices_qout (f : Voice → Voice) : (s.mapVoices f).qout = s.qout := rfl
@[simp] theorem State.mapVoices_outQ (f : Voice → Voice) : (s.mapVoices f).outQ = s.outQ := rfl
@[simp] theorem State.mapVoices_fault (f : Voice → Voice) : (s.mapVoices f).fault = s.fault := rfl
@[simp] theorem State.mapVoices_ffirst (f : Voice → Voice) : (s.mapVoices f).ffirst = s.ffirst := rfl
@[simp] theorem State.mapVoices_fpc (f : Voice → Voice) : (s.mapVoices f).fpc = s.fpc := rfl
@[simp] theorem State.mapVoices_fword (f : Voice → Voice) : (s.mapVoices f).fword = s.fword := rfl
@[simp] theorem State.mapVoices_noteMap (f : Voice → Voice) : (s.mapVoices f).noteMap = s.noteMap := rfl
@[simp] theorem State.mapVoices_voices (f : Voice → Voice) : (s.mapVoices f).voices = s.voices.map f := rfl

/-! ### releaseVoice -/

@[simp] theorem State.releaseVoice_cfg (v : Nat) : (s.releaseVoice v).cfg = s.cfg := rfl
@[simp] theorem State.releaseVoice_num (v : Nat) : (s.releaseVoice v).num = s.num := rfl
@[simp] theorem State.releaseVoice_prog (v : Nat) : (s.releaseVoice v).prog = s.prog := rfl
@[simp] theorem State.releaseVoice_progFrag (v : Nat) : (s.releaseVoice v).progFrag = s.progFrag := rfl
@[simp] theorem State.releaseVoice_pc (v : Nat) : (s.releaseVoice v).pc = s.pc := rfl
@[simp] theorem State.releaseVoice_fs (v : Nat) : (s.releaseVoice v).fs = s.fs := rfl
@[simp] theorem State.releaseVoice_init (v : Nat) : (s.releaseVoice v).init = s.init := rfl
@[simp] theorem State.releaseVoice_out (v : Nat) : (s.releaseVoice v).out = s.out := rfl
@[simp] theorem State.releaseVoice_outS (v : Nat) : (s.releaseVoice v).outS = s.outS := rfl
@[simp] theorem State.releaseVoice_qout (v : Nat) : (s.releaseVoice v).qout = s.qout := rfl
@[simp] theorem State.releaseVoice_outQ (v : Nat) : (s.releaseVoice v).outQ = s.outQ := rfl
@[simp] theorem State.releaseVoice_fault (v : Nat) : (s.releaseVoice v).fault = s.fault := rfl
@[simp] theorem State.releaseVoice_ffirst (v : Nat) : (s.releaseVoice v).ffirst = s.ffirst := rfl
@[simp] theorem State.releaseVoice_fpc (v : Nat) : (s.releaseVoice v).fpc = s.fpc := rfl
@[simp] theorem State.releaseVoice_fword (v : Nat) : (s.releaseVoice v).fword = s.fword := rfl
@[simp] theorem State.releaseVoice_noteMap (v : Nat) : (s.releaseVoice v).noteMap = s.noteMap := rfl
@[simp] theorem State.releaseVoice_voices (v : Nat) :
    (s.releaseVoice v).voices = s.voices.modify v fun vc => vc.noteOff s.num s.fs := rfl

/-! ### evict -/

@[simp] theorem State.evict_cfg (n : Note) (v : Nat) : (s.evict n v).cfg = s.cfg := rfl
@[simp] theorem State.evict_num (n : Note) (v : Nat) : (s.evict n v).num = s.num := rfl
@[simp] theorem State.evict_prog (n : Note) (v : Nat) : (s.evict n v).prog = s.prog := rfl
@[simp] theorem State.evict_progFrag (n : Note) (v : Nat) : (s.evict n v).progFrag = s.progFrag := rfl
@[simp] theorem State.evict_pc (n : Note) (v : Nat) : (s.evict n v).pc = s.pc := rfl
@[simp] theorem State.evict_fs (n : Note) (v : Nat) : (s.evict n v).fs = s.fs := rfl
@[simp] theorem State.evict_init (n : Note) (v : Nat) : (s.evict n v).init = s.init := rfl
@[simp] theorem State.evict_out (n : Note) (v : Nat) : (s.evict n v).out = s.out := rfl
@[simp] theorem State.evict_outS (n : Note) (v : Nat) : (s.evict n v).outS = s.outS := rfl
@[simp] theorem State.evict_qout (n : Note) (v : Nat) : (s.evict n v).qout = s.qout := rfl
@[simp] theorem State.evict_outQ (n : Note) (v : Nat) : (s.evict n v).outQ = s.outQ := rfl
@[simp] theorem State.evict_fault (n : Note) (v : Nat) : (s.evict n v).fault = s.fault := rfl
@[simp] theorem State.evict_ffirst (n : Note) (v : Nat) : (s.evict n v).ffirst = s.ffirst := rfl
@[simp] theorem State.evict_fpc (n : Note) (v : Nat) : (s.evict n v).fpc = s.fpc := rfl
@[simp] theorem State.evict_fword (n : Note) (v : Nat) : (s.evict n v).fword = s.fword := rfl
@[simp] theorem State.evict_noteMap (n : Note) (v : Nat) : (s.evict n v).noteMap = s.noteMap.evict n v := rfl
@[simp] theorem State.evict_voices (n : Note) (v : Nat) : (s.evict n v).voices = s.voices := rfl

/-! ### startNote -/

@[simp] theorem State.startNote_cfg (v : Nat) (n : Note) (vel : Velocity) : (s.startNote v n vel).cfg = s.cfg := rfl
@[simp] theorem State.startNote_num (v : Nat) (n : Note) (vel : Velocity) : (s.startNote v n vel).num = s.num := rfl
@[simp] theorem State.startNote_prog (v : Nat) (n : Note) (vel : Velocity) : (s.startNote v n vel).prog = s.prog := rfl
@[simp] theorem State.startNote_progFrag (v : Nat) (n : Note) (vel : Velocity) :
    (s.startNote v n vel).progFrag = s.progFrag := rfl
@[simp] theorem State.startNote_pc (v : Nat) (n : Note) (vel : Velocity) : (s.startNote v n vel).pc = s.pc := rfl
@[simp] theorem State.startNote_fs (v : Nat) (n : Note) (vel : Velocity) : (s.startNote v n vel).fs = s.fs := rfl
@[simp] theorem State.startNote_init (v : Nat) (n : Note) (vel : Velocity) : (s.startNote v n vel).init = s.init := rfl
@[simp] theorem State.startNote_out (v : Nat) (n : Note) (vel : Velocity) : (s.startNote v n vel).out = s.out := rfl
@[simp] theorem State.startNote_outS (v : Nat) (n : Note) (vel : Velocity) : (s.startNote v n vel).outS = s.outS := rfl
@[simp] theorem State.startNote_qout (v : Nat) (n : Note) (vel : Velocity) : (s.startNote v n vel).qout = s.qout := rfl
@[simp] theorem State.startNote_outQ (v : Nat) (n : Note) (vel : Velocity) : (s.startNote v n vel).outQ = s.outQ := rfl
@[simp] theorem State.startNote_fault (v : Nat) (n : Note) (vel : Velocity) :
    (s.startNote v n vel).fault = s.fault := rfl
@[simp] theorem State.startNote_ffirst (v : Nat) (n : Note) (vel : Velocity) :
    (s.startNote v n vel).ffirst = s.ffirst := rfl
@[simp] theorem State.startNote_fpc (v : Nat) (n : Note) (vel : Velocity) : (s.startNote v n vel).fpc = s.fpc := rfl
@[simp] theorem State.startNote_fword (v : Nat) (n : Note) (vel : Velocity) :
    (s.startNote v n vel).fword = s.fword := rfl
@[simp] theorem State.startNote_noteMap (v : Nat) (n : Note) (vel : Velocity) :
    (s.startNote v n vel).noteMap = s.noteMap.set n (some v) := rfl
@[simp] theorem State.startNote_voices (v : Nat) (n : Note) (vel : Velocity) :
    (s.startNote v n vel).voices = s.voices.modify v fun vc => vc.noteOn s.num s.fs n vel := rfl

/-! ### Updates of an operator's fields by the evaluator and the caches -/

variable (o : Operator)

@[simp] theorem Operator.resetCache_cached : o.resetCache.cached = false := rfl

@[simp] theorem Operator.resetCache_eq_of_not_cached (h : o.cached = false) : o.resetCache = o := by
  cases o; simp_all [Operator.resetCache]

@[simp] theorem Operator.produce_cached (c : EvalEnv) (m : Number) : (o.produce c m).cached = true := rfl

@[simp] theorem Operator.produce_inProgress (c : EvalEnv) (m : Number) : (o.produce c m).inProgress = false := rfl

/-- Setting `inProgress` before the evaluator's last act makes no difference to it. -/
@[simp] theorem Operator.produce_of_inProgress (c : EvalEnv) (m : Number) (b : Bool) :
    Operator.produce c { o with inProgress := b } m = o.produce c m := rfl

end Sys2Proof.Machine
end

