-- ==== Sys2Proof/Laws/Operands.lean ====
section
/-! SUPPORT. The laws of operator slots, of the note map, and of reaching voices and operators by index. -/

namespace Sys2Proof.Machine

/-! ### Slots -/

namespace Six

variable {α β : Type} (x : Six α) (i j : OpIx) (a b : α)

@[simp] theorem get_set_same : (x.set i a).get i = a := by fin_cases i <;> rfl

theorem get_set : (x.set i a).get j = if j = i then a else x.get j := by
  fin_cases i <;> fin_cases j <;> rfl

theorem get_set_of_ne (h : j ≠ i) : (x.set i a).get j = x.get j := by rw [get_set, if_neg h]

@[simp] theorem set_get : x.set i (x.get i) = x := by fin_cases i <;> rfl

@[simp] theorem set_set_same : (x.set i a).set i b = x.set i b := by fin_cases i <;> rfl

@[simp] theorem get_map (f : α → β) : (x.map f).get i = f (x.get i) := by fin_cases i <;> rfl

theorem get_modify (f : α → α) : (x.modify i f).get j = if j = i then f (x.get i) else x.get j := by
  rw [modify, get_set]

theorem ext_get {x y : Six α} (h : ∀ i, x.get i = y.get i) : x = y := by
  cases x; cases y
  simp only [mk.injEq]
  exact ⟨h 0, h 1, h 2, h 3, h 4, h 5⟩

theorem toList_eq_map_get : x.toList = opIndices.map x.get := rfl

theorem mem_toList : a ∈ x.toList ↔ ∃ i, x.get i = a := by
  constructor
  · intro h
    simp only [toList, List.mem_cons, List.not_mem_nil, or_false] at h
    rcases h with h | h | h | h | h | h
    exacts [⟨0, h.symm⟩, ⟨1, h.symm⟩, ⟨2, h.symm⟩, ⟨3, h.symm⟩, ⟨4, h.symm⟩, ⟨5, h.symm⟩]
  · rintro ⟨i, rfl⟩
    fin_cases i <;> simp [toList, get]

end Six

theorem mem_opIndices (i : OpIx) : i ∈ opIndices := by fin_cases i <;> decide

/-! ### The note map -/

namespace NoteMap

variable (m : NoteMap) (n k : Note) (x : Option Nat)

theorem ext_get {m m' : NoteMap} (h : ∀ n, m.get n = m'.get n) : m = m' := by
  obtain ⟨c, hc⟩ := m
  obtain ⟨c', hc'⟩ := m'
  simp only [mk.injEq]
  apply List.ext_getElem (by omega)
  intro i h1 h2
  exact h ⟨i, by omega⟩

@[simp] theorem get_empty : NoteMap.empty.get n = none :=
  List.eq_of_mem_replicate (n := 128) (List.getElem_mem _)

theorem get_set : (m.set k x).get n = if n = k then x else m.get n := by
  simp only [NoteMap.get, NoteMap.set, List.getElem_set, Fin.ext_iff]
  by_cases h : n.val = k.val
  · rw [if_pos h.symm, if_pos h]
  · rw [if_neg (Ne.symm h), if_neg h]

@[simp] theorem get_set_same : (m.set n x).get n = x := by rw [get_set, if_pos rfl]

/-- The eviction loop read cell by cell (45_voicehandler.md R202). -/
theorem get_evict (v : Nat) :
    (m.evict k v).get n = if n ≠ k ∧ m.get n = some v then none else m.get n := by
  simp [NoteMap.get, NoteMap.evict, Fin.ext_iff]

end NoteMap

/-! ### Voices and operators of the pool -/

section Pool

variable (s : State) (u v : Nat) (i k : OpIx)

theorem State.voice?_modifyVoice (f : Voice → Voice) :
    (s.modifyVoice v f).voice? u = if u = v then (s.voice? u).map f else s.voice? u := by
  simp only [State.voice?, State.modifyVoice_voices, List.getElem?_modify]
  by_cases h : v = u
  · subst h; simp
  · simp [h, Ne.symm h]

@[simp] theorem State.numVoices_modifyVoice (f : Voice → Voice) : (s.modifyVoice v f).numVoices = s.numVoices := by
  simp [State.numVoices]

@[simp] theorem State.numVoices_modifyOp (f : Operator → Operator) : (s.modifyOp v i f).numVoices = s.numVoices := by
  simp [State.numVoices]

@[simp] theorem State.numVoices_mapVoices (f : Voice → Voice) : (s.mapVoices f).numVoices = s.numVoices := by
  simp [State.numVoices]

@[simp] theorem State.numVoices_advance (len : Nat) : (s.advance len).numVoices = s.numVoices := rfl

@[simp] theorem State.numVoices_raise (c : Cause) : (s.raise c).numVoices = s.numVoices := rfl

@[simp] theorem State.voice?_advance (len : Nat) : (s.advance len).voice? u = s.voice? u := rfl

@[simp] theorem State.voice?_raise (c : Cause) : (s.raise c).voice? u = s.voice? u := rfl

@[simp] theorem State.operator?_advance (len : Nat) : (s.advance len).operator? u k = s.operator? u k := rfl

@[simp] theorem State.operator?_raise (c : Cause) : (s.raise c).operator? u k = s.operator? u k := rfl

theorem State.operator?_eq_some {o : Operator} :
    s.operator? v i = some o ↔ ∃ vc, s.voice? v = some vc ∧ vc.op.get i = o := by
  simp [State.operator?]

theorem State.hasVoice_of_operator? {o : Operator} {v : VoiceIx} (h : s.operator? v.val i = some o) :
    s.hasVoice v = true := by
  obtain ⟨vc, hv, -⟩ := (s.operator?_eq_some v.val i).1 h
  obtain ⟨hlt, -⟩ := List.getElem?_eq_some_iff.1 hv
  exact decide_eq_true hlt

/-- The operators of a state in which one operator was changed. -/
theorem State.operator?_modifyOp (f : Operator → Operator) :
    (s.modifyOp v i f).operator? u k = if u = v ∧ k = i then (s.operator? u k).map f else s.operator? u k := by
  unfold State.operator? State.modifyOp
  rw [State.voice?_modifyVoice]
  by_cases hu : u = v
  · subst hu
    cases h : s.voice? u with
    | none => simp
    | some vc =>
      by_cases hk : k = i
      · subst hk; simp [Voice.modifyOp, Six.modify]
      · simp [Voice.modifyOp, Six.get_modify, hk]
  · simp [hu]

/-- A change of one operator leaves every voice's note. -/
theorem State.note_modifyOp (f : Operator → Operator) :
    ((s.modifyOp v i f).voice? u).map Voice.note = (s.voice? u).map Voice.note := by
  unfold State.modifyOp
  rw [State.voice?_modifyVoice]
  split
  · cases s.voice? u <;> rfl
  · rfl

/-- A change of one operator is a change of that operator only. -/
theorem onlyOperator_modifyOp (f : Operator → Operator) (len : Nat) :
    OnlyOperator s ((s.modifyOp v i f).advance len) v i := by
  refine ⟨by simp, fun u k h => ?_, fun u => s.note_modifyOp u v i f⟩
  rw [State.operator?_advance, State.operator?_modifyOp, if_neg h]

theorem onlyPool_modifyOp (f : Operator → Operator) (len : Nat) :
    OnlyPool s ((s.modifyOp v i f).advance len) len := rfl

theorem State.voice?_mapVoices (f : Voice → Voice) : (s.mapVoices f).voice? u = (s.voice? u).map f := by
  simp [State.voice?]

end Pool

end Sys2Proof.Machine
end

