-- ==== Sys2Proof/Laws/Algorithm.lean ====
section
/-! SUPPORT. What wiring a description leaves in each slot (43_algorithm.md R175). -/

namespace Sys2Proof.Machine

/-- The modulators the edges `es` give slot `i`, in their order. -/
def modsOf (es : List (Int × Int)) (i : OpIx) : List OpIx :=
  es.filterMap fun e => if slotIndex e.1 = some i then slotIndex e.2 else none

theorem get_wireEdge (ops : Six Operator) (e : Int × Int) (i : OpIx) :
    (wireEdge ops e).get i = { ops.get i with mods := (ops.get i).mods ++ modsOf [e] i } := by
  unfold wireEdge modsOf
  cases h1 : slotIndex e.1 with
  | none => simp [h1]
  | some m =>
    cases h2 : slotIndex e.2 with
    | none => simp [h2]
    | some j =>
      simp only [Six.get_modify]
      by_cases hi : i = m
      · subst hi; simp [h1, h2, Operator.addModOperator]
      · have : ¬ m = i := fun h => hi h.symm
        simp [h1, hi, this]

theorem get_foldl_wireEdge (es : List (Int × Int)) (ops : Six Operator) (i : OpIx) :
    (es.foldl wireEdge ops).get i = { ops.get i with mods := (ops.get i).mods ++ modsOf es i } := by
  induction es generalizing ops with
  | nil => simp [modsOf]
  | cons e es ih =>
    have : modsOf (e :: es) i = modsOf [e] i ++ modsOf es i := by
      unfold modsOf; rw [← List.filterMap_append]; rfl
    rw [List.foldl_cons, ih, get_wireEdge, this, List.append_assoc]

theorem get_foldl_wireCarrier (cs : List Int) (ops : Six Operator) (i : OpIx) :
    (cs.foldl wireCarrier ops).get i =
      { ops.get i with carrier := (ops.get i).carrier || cs.any fun k => slotIndex k == some i } := by
  induction cs generalizing ops with
  | nil => simp
  | cons c cs ih =>
    rw [List.foldl_cons, ih]
    unfold wireCarrier
    cases h : slotIndex c with
    | none => simp [h]
    | some m =>
      rw [Six.get_modify]
      by_cases hi : i = m
      · subst hi; simp [h]
      · have : (m == i) = false := beq_eq_false_iff_ne.2 fun h => hi h.symm
        simp [hi, h, this]

theorem get_wireFeedback (f : Option Int) (ops : Six Operator) (i : OpIx) :
    (wireFeedback ops f).get i =
      { ops.get i with feedback := (ops.get i).feedback || f.bind slotIndex == some i } := by
  cases f with
  | none => simp [wireFeedback]
  | some k =>
    simp only [wireFeedback, Option.bind_some]
    cases h : slotIndex k with
    | none => simp
    | some m =>
      simp only [Six.get_modify]
      by_cases hi : i = m
      · subst hi; simp
      · have : (m == i) = false := beq_eq_false_iff_ne.2 fun h => hi h.symm
        simp [hi, this]

/-- What `setAlgorithm` leaves in slot `i`: its routing replaced, nothing else touched. -/
theorem get_wire (d : AlgDesc) (ops : Six Operator) (i : OpIx) :
    (wire d ops).get i =
      { ops.get i with
        mods := modsOf d.edges i
        carrier := d.carriers.any fun k => slotIndex k == some i
        feedback := d.feedback.bind slotIndex == some i } := by
  rw [wire, get_wireFeedback, get_foldl_wireCarrier, get_foldl_wireEdge, Six.get_map]
  simp [Operator.resetRouting]

end Sys2Proof.Machine
end

