-- ==== Sys2Proof/Laws/Decode.lean ====
section
/-! SUPPORT. The laws of header fields and of the opcode map. -/

namespace Sys2Proof

@[simp] theorem opField_mkHeader (op a b c : BitVec 8) : Word.opField (mkHeader op a b c) = op := by
  apply BitVec.eq_of_getLsbD_eq
  intro k hk
  simp only [Word.opField, mkHeader, BitVec.getLsbD_extractLsb', BitVec.getLsbD_append]
  simp [hk, show ¬ (24 + k < 8) by omega, show ¬ (24 + k - 8 < 8) by omega, show ¬ (24 + k - 8 - 8 < 8) by omega,
    show 24 + k - 8 - 8 - 8 = k by omega]

@[simp] theorem aField_mkHeader (op a b c : BitVec 8) : Word.aField (mkHeader op a b c) = a := by
  apply BitVec.eq_of_getLsbD_eq
  intro k hk
  simp only [Word.aField, mkHeader, BitVec.getLsbD_extractLsb', BitVec.getLsbD_append]
  simp [hk, show ¬ (16 + k < 8) by omega, show ¬ (16 + k - 8 < 8) by omega, show 16 + k - 8 - 8 = k by omega]

@[simp] theorem bField_mkHeader (op a b c : BitVec 8) : Word.bField (mkHeader op a b c) = b := by
  apply BitVec.eq_of_getLsbD_eq
  intro k hk
  simp only [Word.bField, mkHeader, BitVec.getLsbD_extractLsb', BitVec.getLsbD_append]
  simp [hk, show ¬ (8 + k < 8) by omega, show 8 + k - 8 = k by omega]

@[simp] theorem cField_mkHeader (op a b c : BitVec 8) : Word.cField (mkHeader op a b c) = c := by
  apply BitVec.eq_of_getLsbD_eq
  intro k hk
  simp only [Word.cField, mkHeader, BitVec.getLsbD_extractLsb', BitVec.getLsbD_append]
  simp [hk]

/-- A header is made of its four fields. -/
theorem mkHeader_fields (h : Word) : mkHeader h.opField h.aField h.bField h.cField = h := by
  apply BitVec.eq_of_getLsbD_eq
  intro k hk
  simp only [Word.opField, Word.aField, Word.bField, Word.cField, mkHeader, BitVec.getLsbD_extractLsb',
    BitVec.getLsbD_append]
  interval_cases k <;> simp

/-- Masking a header masks its fields. -/
theorem mkHeader_and (o a b c o' a' b' c' : BitVec 8) :
    mkHeader o a b c &&& mkHeader o' a' b' c' = mkHeader (o &&& o') (a &&& a') (b &&& b') (c &&& c') := by
  have h : (o ++ a ++ b ++ c) &&& (o' ++ a' ++ b' ++ c') = (o &&& o') ++ (a &&& a') ++ (b &&& b') ++ (c &&& c') := by
    rw [BitVec.and_append, BitVec.and_append, BitVec.and_append]
  exact h

theorem toNat_fieldOf {n : Nat} (hn : n ≤ 256) (x : Fin n) : (fieldOf x).toNat = x.val := by
  simp only [fieldOf, BitVec.toNat_ofNat]
  have := x.isLt
  omega

@[simp] theorem toFin_fieldOf (x : Fin 256) : (fieldOf x).toFin = x := by
  ext
  exact toNat_fieldOf (le_refl _) x

@[simp] theorem fieldOf_toFin (b : BitVec 8) : fieldOf b.toFin = b := by
  apply BitVec.eq_of_toNat_eq
  rw [toNat_fieldOf (le_refl _)]
  rfl

theorem fieldOf_mk {n : Nat} (hn : n ≤ 256) (b : BitVec 8) (h : b.toNat < n) :
    fieldOf (⟨b.toNat, h⟩ : Fin n) = b := by
  apply BitVec.eq_of_toNat_eq
  rw [toNat_fieldOf hn]

/-- The opcode map is injective: a code names the one opcode that has it. -/
theorem ofCode_eq_some (b : BitVec 8) (op : Opcode) : Opcode.ofCode b = some op ↔ op.code = b := by
  constructor
  · intro h
    simpa using List.find?_some h
  · rintro rfl
    cases op <;> rfl

@[simp] theorem ofCode_code (op : Opcode) : Opcode.ofCode op.code = some op := (ofCode_eq_some _ _).2 rfl

theorem ofCode_eq_none (b : BitVec 8) : Opcode.ofCode b = none ↔ ∀ op : Opcode, op.code ≠ b := by
  constructor
  · rintro h op rfl
    simp at h
  · intro h
    cases hc : Opcode.ofCode b with
    | none => rfl
    | some op => exact absurd ((ofCode_eq_some _ _).1 hc) (h op)

/-- A legal command passed every check of 30_encoding.md R94 (1) to (4). -/
theorem decode_ok {nv : Nat} {h : Word} {rest : List Word} {i : Instr} (hd : decode nv h rest = .ok i) :
    ∃ op : Opcode, op.code = h.opField ∧ op.payloads ≤ rest.length ∧ reservedZero op h = true ∧
      decodeOperands nv op h rest = .ok i := by
  unfold decode at hd
  split at hd
  · cases hd
  · rename_i op hop
    split at hd
    · cases hd
    · split at hd
      · cases hd
      · rename_i h1 h2
        split at hd
        · rename_i hh
          injection hd with hd
          subst hd
          exact ⟨op, (ofCode_eq_some _ _).1 hop, by omega, by simpa using h2, hh⟩
        · cases hd

/-- The operand checks build the opcode's own constructor. -/
theorem decodeOperands_opcode {nv : Nat} {op : Opcode} {h : Word} {p : List Word} {i : Instr}
    (hd : decodeOperands nv op h p = .ok i) : i.opcode = op := by
  cases op <;> simp only [decodeOperands, withVoice, withOperator, withMode, withNote, withVelocity] at hd <;>
    (repeat' split at hd) <;> first | (cases hd; done) | (injection hd with hd; subst hd; rfl)

/-- Only the check of the stream's end calls a command truncated. -/
theorem decodeOperands_ne_truncated (nv : Nat) (op : Opcode) (h : Word) (p : List Word) :
    decodeOperands nv op h p ≠ .error .truncated := by
  cases op <;> simp only [decodeOperands, withVoice, withOperator, withMode, withNote, withVelocity] <;>
    (repeat' split) <;> simp

theorem opcode_length (i : Instr) : i.opcode.length = i.length := by cases i <;> rfl

/-- A legal command's words are all in the stream. -/
theorem length_of_decode_ok {nv : Nat} {h : Word} {rest : List Word} {i : Instr} (hd : decode nv h rest = .ok i) :
    i.length ≤ rest.length + 1 := by
  obtain ⟨op, -, hlen, -, ho⟩ := decode_ok hd
  rw [← opcode_length, decodeOperands_opcode ho, Opcode.length]
  omega

/-- An illegal header that is not truncated has its payload in the stream, and a length of at least one word. -/
theorem length_of_decode_illegal {nv : Nat} {h : Word} {rest : List Word} {why : DecodeError} {len : Nat}
    (hd : decode nv h rest = .illegal why len) : 0 < len ∧ (why ≠ .truncated → len ≤ rest.length + 1) := by
  unfold decode at hd
  split at hd
  · injection hd with h1 h2
    subst h1 h2
    exact ⟨by omega, fun _ => by omega⟩
  · split at hd
    · injection hd with h1 h2
      subst h1 h2
      exact ⟨by simp [Opcode.length], fun h => absurd rfl h⟩
    · have hl := ‹¬ _›
      split at hd
      · injection hd with h1 h2
        subst h1 h2
        exact ⟨by simp [Opcode.length], fun _ => by simp only [Opcode.length]; omega⟩
      · split at hd
        · cases hd
        · injection hd with h1 h2
          subst h1 h2
          exact ⟨by simp [Opcode.length], fun _ => by simp only [Opcode.length]; omega⟩

/-- The header of a command is its opcode's code and the command's fields. -/
theorem header_opField (i : Instr) : i.header.opField = i.opcode.code := by
  cases i <;> exact opField_mkHeader _ _ _ _

end Sys2Proof
end

