-- ==== Sys2Proof/Laws/Evaluator.lean ====
section
/-! SUPPORT. What a call of the evaluator can do to the six operators of a voice (42_operator.md R146, R156). -/

namespace Sys2Proof.Machine

/-! ### The three cases of the evaluator's text -/

section Body

variable (c : EvalEnv) (call : Six Operator → OpIx → Number × Six Operator) (ops : Six Operator) (i : OpIx)

theorem sampleBody_of_cached (h : (ops.get i).cached = true) :
    sampleBody c call ops i = ((ops.get i).cachedSample, ops) := by
  simp [sampleBody, h]

theorem sampleBody_of_inProgress (hc : (ops.get i).cached = false) (h : (ops.get i).inProgress = true) :
    sampleBody c call ops i = ((ops.get i).lastSample, ops) := by
  simp [sampleBody, h, hc]

/-- The operators on which the modulators of operator `i` are evaluated. -/
def visiting (ops : Six Operator) (i : OpIx) : Six Operator := ops.set i { ops.get i with inProgress := true }

/-- The modulation sum of operator `i` and the operators after it. -/
def modulation (c : EvalEnv) (call : Six Operator → OpIx → Number × Six Operator) (ops : Six Operator) (i : OpIx) :
    Number × Six Operator :=
  sumModulators c.num call (ops.get i).mods ((ops.get i).feedbackTerm c.num, visiting ops i)

theorem sampleBody_of_open (hc : (ops.get i).cached = false) (h : (ops.get i).inProgress = false) :
    sampleBody c call ops i =
      (((((modulation c call ops i).2.get i).produce c (modulation c call ops i).1).cachedSample),
        (modulation c call ops i).2.set i
          (((modulation c call ops i).2.get i).produce c (modulation c call ops i).1)) := by
  simp [sampleBody, h, hc, modulation, visiting]

theorem sumModulators_nil (st : Number × Six Operator) : sumModulators c.num call [] st = st := rfl

theorem sumModulators_cons (j : OpIx) (ms : List OpIx) (st : Number × Six Operator) :
    sumModulators c.num call (j :: ms) st =
      sumModulators c.num call ms (c.num.add st.1 (call st.2 j).1, (call st.2 j).2) := rfl

theorem getSampleFuel_succ (n : Nat) :
    getSampleFuel c (n + 1) ops i = sampleBody c (fun ops j => getSampleFuel c n ops j) ops i := rfl

end Body

/-! ### What a call changes -/

/-- Neither cached nor being evaluated: the evaluator would enter its body. -/
def Operator.isOpen (o : Operator) : Bool := !o.cached && !o.inProgress

theorem Operator.isOpen_iff (o : Operator) : o.isOpen = true ↔ o.cached = false ∧ o.inProgress = false := by
  simp [Operator.isOpen]

/-- From `a` to `b` every operator is unchanged, or was open and has been evaluated once. -/
def Evaluated (c : EvalEnv) (a b : Six Operator) : Prop :=
  ∀ j, b.get j = a.get j ∨ ((a.get j).isOpen = true ∧ ∃ m, b.get j = (a.get j).produce c m)

namespace Evaluated

variable {c : EvalEnv} {a b d : Six Operator}

theorem refl (c : EvalEnv) (a : Six Operator) : Evaluated c a a := fun _ => .inl rfl

theorem trans (h1 : Evaluated c a b) (h2 : Evaluated c b d) : Evaluated c a d := by
  intro j
  rcases h1 j with h | ⟨ho, m, h⟩ <;> rcases h2 j with h' | ⟨ho', m', h'⟩
  · exact .inl (h'.trans h)
  · rw [h] at ho' h'; exact .inr ⟨ho', m', h'⟩
  · exact .inr ⟨ho, m, h'.trans h⟩
  · rw [h] at ho'; simp [Operator.isOpen] at ho'

/-- What is open afterwards was open before and is unchanged. -/
theorem of_open (h : Evaluated c a b) (j : OpIx) (ho : (b.get j).isOpen = true) :
    (a.get j).isOpen = true ∧ b.get j = a.get j := by
  rcases h j with h' | ⟨-, m, h'⟩
  · rw [h'] at ho; exact ⟨ho, h'⟩
  · rw [h'] at ho; simp [Operator.isOpen] at ho

theorem of_cached (h : Evaluated c a b) (j : OpIx) (hc : (a.get j).cached = true) : b.get j = a.get j := by
  rcases h j with h' | ⟨ho, -⟩
  · exact h'
  · simp [Operator.isOpen, hc] at ho

theorem of_inProgress (h : Evaluated c a b) (j : OpIx) (hp : (a.get j).inProgress = true) : b.get j = a.get j := by
  rcases h j with h' | ⟨ho, -⟩
  · exact h'
  · simp [Operator.isOpen, hp] at ho

/-- No call leaves an operator in progress that was not (10_state.md R30). -/
theorem inProgress_before (h : Evaluated c a b) (j : OpIx) (hp : (b.get j).inProgress = true) :
    (a.get j).inProgress = true := by
  rcases h j with h' | ⟨-, m, h'⟩
  · rwa [h'] at hp
  · rw [h'] at hp; simp at hp

/-- Routing is left alone. -/
theorem mods (h : Evaluated c a b) (j : OpIx) : (b.get j).mods = (a.get j).mods := by
  rcases h j with h' | ⟨-, m, h'⟩ <;> rw [h']; rfl

theorem carrier (h : Evaluated c a b) (j : OpIx) : (b.get j).carrier = (a.get j).carrier := by
  rcases h j with h' | ⟨-, m, h'⟩ <;> rw [h']; rfl

end Evaluated

/-- A fold over modulators composes its calls. -/
theorem sumModulators_evaluated {c : EvalEnv} {call : Six Operator → OpIx → Number × Six Operator}
    (hc : ∀ ops j, Evaluated c ops (call ops j).2) (ms : List OpIx) (st : Number × Six Operator) :
    Evaluated c st.2 (sumModulators c.num call ms st).2 := by
  induction ms generalizing st with
  | nil => exact .refl _ _
  | cons j ms ih => exact (hc st.2 j).trans (ih _)

theorem sampleBody_evaluated {c : EvalEnv} {call : Six Operator → OpIx → Number × Six Operator}
    (hc : ∀ ops j, Evaluated c ops (call ops j).2) (ops : Six Operator) (i : OpIx) :
    Evaluated c ops (sampleBody c call ops i).2 := by
  cases h1 : (ops.get i).cached with
  | true => rw [sampleBody_of_cached _ _ _ _ h1]; exact .refl _ _
  | false =>
    cases h2 : (ops.get i).inProgress with
    | true => rw [sampleBody_of_inProgress _ _ _ _ h1 h2]; exact .refl _ _
    | false =>
      rw [sampleBody_of_open _ _ _ _ h1 h2]
      have hr := sumModulators_evaluated hc (ops.get i).mods ((ops.get i).feedbackTerm c.num, visiting ops i)
      intro j
      by_cases hj : j = i
      · subst hj
        refine .inr ⟨by simp [Operator.isOpen, h1, h2], (modulation c call ops j).1, ?_⟩
        have : (modulation c call ops j).2.get j = { ops.get j with inProgress := true } := by
          rw [modulation, hr.of_inProgress j (by simp [visiting])]
          simp [visiting]
        simp [this]
      · have hv : (visiting ops i).get j = ops.get j := Six.get_set_of_ne _ _ _ _ hj
        have := hr j
        rw [hv] at this
        simpa only [Six.get_set_of_ne _ _ _ _ hj, modulation] using this

/-- What a call of the evaluator can do: every operator is unchanged, or was open and has been evaluated once. -/
theorem getSampleFuel_evaluated (c : EvalEnv) (n : Nat) (ops : Six Operator) (i : OpIx) :
    Evaluated c ops (getSampleFuel c n ops i).2 := by
  induction n generalizing ops i with
  | zero => exact .refl _ _
  | succ n ih => exact sampleBody_evaluated ih ops i

theorem getSample_evaluated (c : EvalEnv) (ops : Six Operator) (i : OpIx) :
    Evaluated c ops (getSample c ops i).2 := getSampleFuel_evaluated _ _ _ _

/-- The carriers' fold composes its calls too (44_voice.md R191). -/
theorem sumCarriers_evaluated (c : EvalEnv) (is : List OpIx) (ops : Six Operator) :
    Evaluated c ops (Voice.sumCarriers c is ops).2 :=
  sumModulators_evaluated (getSample_evaluated c) is (c.num.zero, ops)

/-! ### The number of open operators, which every body lowers -/

/-- How many of the six are open. -/
def openCount (ops : Six Operator) : Nat := opIndices.countP fun i => (ops.get i).isOpen

theorem openCount_le (ops : Six Operator) : openCount ops ≤ 6 := List.countP_le_length

theorem Evaluated.openCount_le {c : EvalEnv} {a b : Six Operator} (h : Evaluated c a b) :
    openCount b ≤ openCount a :=
  List.countP_mono_left fun j _ hj => (h.of_open j hj).1

theorem openCount_visiting (ops : Six Operator) (i : OpIx) (h : (ops.get i).isOpen = true) :
    openCount (visiting ops i) < openCount ops := by
  have key : ∀ j, ((visiting ops i).get j).isOpen = ((ops.get j).isOpen && decide (j ≠ i)) := by
    intro j
    by_cases hj : j = i
    · subst hj; simp [visiting, Operator.isOpen]
    · simp [visiting, Six.get_set_of_ne _ _ _ _ hj, hj]
  unfold openCount
  simp only [key]
  revert h
  fin_cases i <;> simp [opIndices, List.countP_cons] <;> intro h <;> simp [h]

end Sys2Proof.Machine
end

