-- ==== Sys2Proof/Laws/Num.lean ====
section
/-! SUPPORT. The laws of the number format: rounding is monotone and exact on what is representable, and what follows
for order, sums and bit patterns (00_scope.md R11). -/

namespace Sys2Proof.Num32

/-! ### Rounding -/

/-- The nearest integer to `num / d`, ties to even: the last place of `roundRatio`. -/
def roundPlace (num d : Nat) : Nat :=
  if d < 2 * (num % d) ∨ (2 * (num % d) = d ∧ num / d % 2 = 1) then num / d + 1 else num / d

theorem roundRatio_eq (num den : Nat) :
    roundRatio num den =
      (Nat.log2 (num / den) - 23) * 2 ^ 23 + roundPlace num (den * 2 ^ (Nat.log2 (num / den) - 23)) := by
  simp only [roundRatio, roundPlace, Nat.shiftLeft_eq]

theorem div_le_roundPlace (num d : Nat) : num / d ≤ roundPlace num d := by
  unfold roundPlace; split <;> omega

theorem roundPlace_le (num d : Nat) : roundPlace num d ≤ num / d + 1 := by
  unfold roundPlace; split <;> omega

theorem roundPlace_of_dvd {num d : Nat} (hd : 0 < d) (h : d ∣ num) : roundPlace num d = num / d := by
  have : num % d = 0 := Nat.mod_eq_zero_of_dvd h
  unfold roundPlace
  rw [if_neg (by omega)]

theorem roundPlace_mono {a b d : Nat} (h : a ≤ b) : roundPlace a d ≤ roundPlace b d := by
  rcases Nat.lt_or_ge (a / d) (b / d) with hlt | hge
  · exact (roundPlace_le a d).trans (hlt.trans_le (div_le_roundPlace b d))
  · have heq : a / d = b / d := Nat.le_antisymm (Nat.div_le_div_right h) hge
    have ha := Nat.div_add_mod a d
    have hb := Nat.div_add_mod b d
    rw [heq] at ha
    have hr : a % d ≤ b % d := by omega
    unfold roundPlace
    rw [heq]
    split <;> split <;> omega

/-- The weight of the last place: `2^24` units and more lie in binades above the first two. -/
theorem roundPlace_bounds {num den : Nat} (hk : 0 < Nat.log2 (num / den) - 23) :
    2 ^ 23 ≤ num / (den * 2 ^ (Nat.log2 (num / den) - 23)) ∧
      num / (den * 2 ^ (Nat.log2 (num / den) - 23)) < 2 ^ 24 := by
  have hq : num / den ≠ 0 := by rintro h; simp [h] at hk
  have hlo := Nat.log2_self_le hq
  have hhi : num / den < 2 ^ (Nat.log2 (num / den) + 1) := Nat.lt_log2_self
  rw [← Nat.div_div_eq_div_mul]
  generalize num / den = q at *
  obtain ⟨k, hk'⟩ : ∃ k, Nat.log2 q = k + 23 := ⟨Nat.log2 q - 23, by omega⟩
  rw [hk'] at hlo hhi ⊢
  simp only [Nat.add_sub_cancel]
  constructor
  · rw [Nat.le_div_iff_mul_le (by positivity)]
    calc 2 ^ 23 * 2 ^ k = 2 ^ (k + 23) := by rw [← Nat.pow_add, Nat.add_comm]
      _ ≤ q := hlo
  · rw [Nat.div_lt_iff_lt_mul (by positivity)]
    calc q < 2 ^ (k + 23 + 1) := hhi
      _ = 2 ^ 24 * 2 ^ k := by rw [← Nat.pow_add]; ring_nf

theorem roundRatio_le (num den : Nat) :
    roundRatio num den ≤ (Nat.log2 (num / den) - 23) * 2 ^ 23 + 2 ^ 24 := by
  rw [roundRatio_eq]
  have := roundPlace_le num (den * 2 ^ (Nat.log2 (num / den) - 23))
  rcases Nat.eq_zero_or_pos (Nat.log2 (num / den) - 23) with h | h
  · have hq : num / den < 2 ^ 24 := by
      by_cases hq0 : num / den = 0
      · omega
      · calc num / den < 2 ^ (Nat.log2 (num / den) + 1) := Nat.lt_log2_self
          _ ≤ 2 ^ 24 := Nat.pow_le_pow_right (by omega) (by omega)
    rw [h] at this ⊢
    simp only [Nat.pow_zero, Nat.mul_one] at this ⊢
    omega
  · have := (roundPlace_bounds h).2
    omega

theorem le_roundRatio (num den : Nat) (h : 0 < Nat.log2 (num / den) - 23) :
    (Nat.log2 (num / den) - 23) * 2 ^ 23 + 2 ^ 23 ≤ roundRatio num den := by
  rw [roundRatio_eq]
  have := (roundPlace_bounds h).1
  have := div_le_roundPlace num (den * 2 ^ (Nat.log2 (num / den) - 23))
  omega

/-- Rounding is monotone. -/
theorem roundRatio_mono {a b den : Nat} (h : a ≤ b) : roundRatio a den ≤ roundRatio b den := by
  have hlog : Nat.log2 (a / den) ≤ Nat.log2 (b / den) := by
    rw [Nat.log2_eq_log_two, Nat.log2_eq_log_two]
    exact Nat.log_mono_right (Nat.div_le_div_right h)
  rcases Nat.lt_or_ge (Nat.log2 (a / den) - 23) (Nat.log2 (b / den) - 23) with hlt | hge
  · have h1 := roundRatio_le a den
    have h2 := le_roundRatio b den (by omega)
    have : (Nat.log2 (a / den) - 23 + 1) * 2 ^ 23 ≤ (Nat.log2 (b / den) - 23) * 2 ^ 23 :=
      Nat.mul_le_mul_right _ (by omega)
    omega
  · have heq : Nat.log2 (a / den) - 23 = Nat.log2 (b / den) - 23 := by omega
    rw [roundRatio_eq, roundRatio_eq, heq]
    exact Nat.add_le_add_left (roundPlace_mono h) _

/-- Rounding gives back a magnitude code from its own units. -/
theorem roundRatio_magUnits (m : Nat) : roundRatio (magUnits m) 1 = m := by
  rw [roundRatio_eq, Nat.div_one]
  unfold magUnits
  split
  · rename_i h
    have : Nat.log2 m < 24 := by
      by_cases hm : m = 0
      · subst hm; decide
      · exact (Nat.log2_lt hm).2 (by omega)
    have hk : Nat.log2 m - 23 = 0 := by omega
    rw [hk]
    simp [roundPlace_of_dvd]
  · rename_i h
    obtain ⟨e, f, he, hf⟩ : ∃ e f, m = (e + 1) * 2 ^ 23 + f ∧ f < 2 ^ 23 :=
      ⟨m / 2 ^ 23 - 1, m % 2 ^ 23, by omega, by omega⟩
    have h1 : m / 2 ^ 23 - 1 = e := by omega
    have h2 : m % 2 ^ 23 = f := by omega
    rw [h1, h2, Nat.shiftLeft_eq]
    have hlog : Nat.log2 ((2 ^ 23 + f) * 2 ^ e) = e + 23 := by
      rw [Nat.log2_eq_iff (by positivity)]
      constructor
      · calc 2 ^ (e + 23) = 2 ^ 23 * 2 ^ e := by rw [← Nat.pow_add, Nat.add_comm]
          _ ≤ _ := Nat.mul_le_mul_right _ (by omega)
      · calc (2 ^ 23 + f) * 2 ^ e < 2 ^ 24 * 2 ^ e := Nat.mul_lt_mul_of_pos_right (by omega) (by positivity)
          _ = 2 ^ (e + 23 + 1) := by rw [← Nat.pow_add]; ring_nf
    rw [hlog, Nat.add_sub_cancel, Nat.one_mul, roundPlace_of_dvd (by positivity) (Nat.dvd_mul_left _ _),
      Nat.mul_div_cancel _ (by positivity)]
    omega

/-- A magnitude of at most 24 significant bits is representable: rounding is exact on it. -/
theorem magUnits_roundRatio {a b : Nat} (ha : a < 2 ^ 24) : magUnits (roundRatio (a * 2 ^ b) 1) = a * 2 ^ b := by
  rw [roundRatio_eq, Nat.div_one]
  by_cases hsmall : a * 2 ^ b < 2 ^ 24
  · have hk : Nat.log2 (a * 2 ^ b) - 23 = 0 := by
      by_cases hm : a * 2 ^ b = 0
      · rw [hm]; decide
      · have := (Nat.log2_lt hm).2 hsmall; omega
    rw [hk]
    simp only [Nat.zero_mul, Nat.pow_zero, Nat.mul_one, Nat.zero_add]
    rw [roundPlace_of_dvd (by omega) (Nat.one_dvd _), Nat.div_one]
    generalize a * 2 ^ b = n at *
    unfold magUnits
    split
    · rfl
    · have : n / 2 ^ 23 = 1 := by omega
      rw [this]
      simp only [Nat.sub_self, Nat.shiftLeft_zero]
      omega
  · have hne : a * 2 ^ b ≠ 0 := by omega
    have hge : 24 ≤ Nat.log2 (a * 2 ^ b) := (Nat.le_log2 hne).2 (by omega)
    have hlt : Nat.log2 (a * 2 ^ b) < 24 + b := (Nat.log2_lt hne).2 (by
      rw [Nat.pow_add]; exact Nat.mul_lt_mul_of_pos_right ha (by positivity))
    have hb := roundPlace_bounds (num := a * 2 ^ b) (den := 1) (by rw [Nat.div_one]; omega)
    rw [Nat.div_one] at hb
    generalize hk : Nat.log2 (a * 2 ^ b) - 23 = k at *
    have hdvd : 2 ^ k ∣ a * 2 ^ b := Dvd.dvd.mul_left (Nat.pow_dvd_pow 2 (by omega)) a
    rw [Nat.one_mul] at hb ⊢
    rw [roundPlace_of_dvd (by positivity) hdvd]
    have hmul := Nat.div_mul_cancel hdvd
    generalize a * 2 ^ b / 2 ^ k = m at *
    unfold magUnits
    rw [if_neg (by omega)]
    have h1 : (k * 2 ^ 23 + m) / 2 ^ 23 - 1 = k := by omega
    have h2 : 2 ^ 23 + (k * 2 ^ 23 + m) % 2 ^ 23 = m := by omega
    rw [h1, h2, Nat.shiftLeft_eq, hmul]

/-- Magnitude codes are in the order of what they stand for. -/
theorem magUnits_le_iff {m n : Nat} : magUnits m ≤ magUnits n ↔ m ≤ n := by
  have mono : ∀ {m n : Nat}, magUnits m ≤ magUnits n → m ≤ n := fun h => by
    have := roundRatio_mono (den := 1) h
    rwa [roundRatio_magUnits, roundRatio_magUnits] at this
  refine ⟨mono, fun h => ?_⟩
  rcases Nat.le_total (magUnits m) (magUnits n) with h' | h'
  · exact h'
  · have := mono h'
    have : m = n := by omega
    rw [this]

@[simp] theorem magUnits_zero : magUnits 0 = 0 := by decide

theorem magUnits_eq_zero {m : Nat} : magUnits m = 0 ↔ m = 0 := by
  constructor
  · intro h
    have := roundRatio_magUnits m
    rw [h] at this
    have h0 : roundRatio 0 1 = 0 := by decide
    omega
  · rintro rfl; exact magUnits_zero

theorem magUnits_one : magUnits 0x3F800000 = onePow := by decide

/-! ### Bit patterns -/

theorem isNanWord_nanWord : isNanWord nanWord = true := by
  unfold nanWord
  split
  · assumption
  · decide

/-! ### Order -/

@[simp] theorem key_fin (s : Bool) (m : Fin 0x7F800000) :
    (fin s m).key = some (if s then -(m.val : Int) else (m.val : Int)) := rfl

@[simp] theorem key_zero : zero.key = some 0 := rfl

@[simp] theorem key_one : one.key = some 0x3F800000 := rfl

theorem le_iff {a b : Num32} : a.le b = true ↔ ∃ x y, a.key = some x ∧ b.key = some y ∧ x ≤ y := by
  unfold le
  cases a.key <;> cases b.key <;> simp

theorem lt_iff {a b : Num32} : a.lt b = true ↔ ∃ x y, a.key = some x ∧ b.key = some y ∧ x < y := by
  unfold lt
  cases a.key <;> cases b.key <;> simp

theorem eq_iff {a b : Num32} : a.eq b = true ↔ ∃ x, a.key = some x ∧ b.key = some x := by
  unfold eq
  cases a.key <;> cases b.key <;> simp [eq_comm]

theorem le_trans {a b c : Num32} (h : a.le b = true) (h' : b.le c = true) : a.le c = true := by
  obtain ⟨x, y, hx, hy, hxy⟩ := le_iff.1 h
  obtain ⟨y', z, hy', hz, hyz⟩ := le_iff.1 h'
  rw [hy] at hy'
  obtain rfl : y = y' := by simpa using hy'
  exact le_iff.2 ⟨x, z, hx, hz, hxy.trans hyz⟩

/-- For numbers, not `a <= b` is `b < a`. -/
theorem lt_of_not_le {a b : Num32} (ha : a ≠ nan) (hb : b ≠ nan) (h : a.le b = false) : b.lt a = true := by
  cases a <;> cases b <;> simp_all [le, lt, key]

theorem le_of_lt {a b : Num32} (h : a.lt b = true) : a.le b = true := by
  obtain ⟨x, y, hx, hy, hxy⟩ := lt_iff.1 h
  exact le_iff.2 ⟨x, y, hx, hy, hxy.le⟩

/-! ### Signed units and sums -/

theorem signedUnits_neg (s : Bool) (m : Fin 0x7F800000) : signedUnits (!s) m = -signedUnits s m := by
  cases s <;> simp [signedUnits]

theorem sub_fin (s t : Bool) (m n : Fin 0x7F800000) : (fin s m).sub (fin t n) = (fin s m).add (fin (!t) n) := rfl

/-- The sum of two finite numbers as the rounding of the exact sum. -/
theorem add_fin (s t : Bool) (m n : Fin 0x7F800000) :
    (fin s m).add (fin t n) =
      if signedUnits s m + signedUnits t n = 0 then .fin (s && t) ⟨0, by decide⟩
      else ofMag (decide (signedUnits s m + signedUnits t n < 0))
        (roundRatio (signedUnits s m + signedUnits t n).natAbs 1) := rfl

/-- The place in the order of an exact value after rounding; 0x7F800000 is infinity's. -/
def roundKey (x : Int) : Int :=
  if x < 0 then -((min (roundRatio x.natAbs 1) 0x7F800000 : Nat) : Int)
  else ((min (roundRatio x.natAbs 1) 0x7F800000 : Nat) : Int)

theorem key_ofMag (s : Bool) (c : Nat) :
    (ofMag s c).key = some (if s then -((min c 0x7F800000 : Nat) : Int) else ((min c 0x7F800000 : Nat) : Int)) := by
  unfold ofMag
  split
  · rename_i h
    rw [Nat.min_eq_left h.le]
    rfl
  · rename_i h
    rw [Nat.min_eq_right (not_lt.1 h)]
    cases s <;> rfl

theorem roundKey_zero : roundKey 0 = 0 := by decide

/-- A finite number's place is the rounding of its own exact value. -/
theorem roundKey_signedUnits (s : Bool) (m : Fin 0x7F800000) :
    roundKey (signedUnits s m) = if s then -(m.val : Int) else (m.val : Int) := by
  have hm := m.isLt
  unfold roundKey signedUnits
  cases s
  · simp only [Bool.false_eq_true, if_false, Int.natAbs_natCast, roundRatio_magUnits]
    rw [if_neg (by omega), Nat.min_eq_left (by omega)]
  · simp only [if_true, Int.natAbs_neg, Int.natAbs_natCast, roundRatio_magUnits]
    rw [Nat.min_eq_left (by omega)]
    split
    · rfl
    · rename_i h
      have : magUnits m.val = 0 := by omega
      rw [magUnits_eq_zero.1 this]
      rfl

/-- Rounding keeps the order of exact values. -/
theorem roundKey_mono {x y : Int} (h : x ≤ y) : roundKey x ≤ roundKey y := by
  unfold roundKey
  rcases lt_or_ge x 0 with hx | hx <;> rcases lt_or_ge y 0 with hy | hy
  · rw [if_pos hx, if_pos hy]
    have := roundRatio_mono (den := 1) (a := y.natAbs) (b := x.natAbs) (by omega)
    omega
  · rw [if_pos hx, if_neg (by omega)]
    omega
  · omega
  · rw [if_neg (by omega), if_neg (by omega)]
    have := roundRatio_mono (den := 1) (a := x.natAbs) (b := y.natAbs) (by omega)
    omega

/-- The place of a sum of finite numbers. -/
theorem key_add_fin (s t : Bool) (m n : Fin 0x7F800000) :
    ((fin s m).add (fin t n)).key = some (roundKey (signedUnits s m + signedUnits t n)) := by
  rw [add_fin]
  split
  · rename_i h
    rw [h, roundKey_zero]
    cases s <;> cases t <;> rfl
  · rw [key_ofMag, roundKey]
    by_cases h : signedUnits s m + signedUnits t n < 0 <;> simp [h]

theorem signedUnits_nonneg {s : Bool} {m : Fin 0x7F800000} (h : zero.le (fin s m) = true) : 0 ≤ signedUnits s m := by
  obtain ⟨x, y, hx, hy, hxy⟩ := le_iff.1 h
  cases s
  · simp [signedUnits]
  · simp only [key_zero, key_fin, if_true, Option.some.injEq] at hx hy
    have : m.val = 0 := by omega
    simp [signedUnits, this]

/-- Adding what is not below 0 does not lower a finite number. -/
theorem le_add_of_nonneg {a b : Num32} (ha : a.isFinite = true) (hb : zero.le b = true) : a.le (a.add b) = true := by
  cases a with
  | nan => cases ha
  | inf s => cases ha
  | fin s m =>
    cases b with
    | nan => cases hb
    | inf t =>
      cases t
      · exact le_iff.2 ⟨_, _, rfl, rfl, by cases s <;> simp⟩
      · exact absurd hb (by decide)
    | fin t n =>
      have := signedUnits_nonneg hb
      exact le_iff.2 ⟨_, _, rfl, key_add_fin s t m n, by
        rw [← roundKey_signedUnits]; exact roundKey_mono (by omega)⟩

/-- Subtracting what is not below 0 does not raise a finite number. -/
theorem sub_le_of_nonneg {a b : Num32} (ha : a.isFinite = true) (hb : zero.le b = true) : (a.sub b).le a = true := by
  cases a with
  | nan => cases ha
  | inf s => cases ha
  | fin s m =>
    cases b with
    | nan => cases hb
    | inf t =>
      cases t
      · exact le_iff.2 ⟨_, _, rfl, rfl, by cases s <;> simp⟩
      · exact absurd hb (by decide)
    | fin t n =>
      have := signedUnits_nonneg hb
      rw [sub_fin]
      refine le_iff.2 ⟨_, _, key_add_fin s (!t) m n, rfl, ?_⟩
      rw [← roundKey_signedUnits, signedUnits_neg]
      exact roundKey_mono (by omega)

/-! ### Zeros -/

/-- The zero of a sign. -/
def signedZero (s : Bool) : Num32 := fin s ⟨0, by decide⟩

theorem roundRatio_zero (den : Nat) : roundRatio 0 den = 0 := by
  rw [roundRatio_eq]
  simp [roundPlace]

theorem ofMag_zero (s : Bool) : ofMag s 0 = signedZero s := rfl

/-- A finite number times a zero is a zero. -/
theorem mul_signedZero (a : Num32) (ha : a.isFinite = true) (s : Bool) : ∃ t, a.mul (signedZero s) = signedZero t := by
  cases a with
  | nan => cases ha
  | inf _ => cases ha
  | fin r m => exact ⟨r != s, by simp only [signedZero, mul, magUnits_zero, Nat.mul_zero, roundRatio_zero, ofMag_zero]⟩

theorem signedZero_mul (a : Num32) (ha : a.isFinite = true) (s : Bool) : ∃ t, (signedZero s).mul a = signedZero t := by
  cases a with
  | nan => cases ha
  | inf _ => cases ha
  | fin r m => exact ⟨s != r, by simp only [signedZero, mul, magUnits_zero, Nat.zero_mul, roundRatio_zero, ofMag_zero]⟩

/-- The positive zero and any zero sum to the positive zero. -/
theorem zero_add_signedZero (s : Bool) : zero.add (signedZero s) = zero := by cases s <;> decide

theorem signedZero_isFinite (s : Bool) : (signedZero s).isFinite = true := rfl

theorem ne_nan_of_key {a : Num32} {x : Int} (h : a.key = some x) : a ≠ nan := by
  rintro rfl; cases h

/-- A number that compares is not a NaN. -/
theorem ne_nan_of_le {a b : Num32} (h : a.le b = true) : a ≠ nan ∧ b ≠ nan := by
  obtain ⟨x, y, hx, hy, -⟩ := le_iff.1 h
  exact ⟨ne_nan_of_key hx, ne_nan_of_key hy⟩

theorem le_refl_of_ne_nan {a : Num32} (h : a ≠ nan) : a.le a = true := by
  cases a with
  | nan => exact absurd rfl h
  | inf s => cases s <;> decide
  | fin s m => exact le_iff.2 ⟨_, _, rfl, rfl, Int.le_refl _⟩

end Sys2Proof.Num32
end

