-- ==== Sys2Proof/Laws/Format.lean ====
section
/-! SUPPORT. The record of the default number format: its operations on binary32 numbers are the ones of `Num32`, and
what the functions built on any record are for it (00_scope.md R11 to R13). -/

namespace Sys2Proof.NumOps

/-! ### Operations, comparisons and conversions of the record

These are not `dsimp` lemmas (hence `(rfl)`): they unfold the record, and a condition rewritten by them must have its
instance rewritten too. -/

section Lift

variable (a b : Num32)

@[simp] theorem binary32_add : binary32.add (.b32 a) (.b32 b) = .b32 (a.add b) := (rfl)
@[simp] theorem binary32_sub : binary32.sub (.b32 a) (.b32 b) = .b32 (a.sub b) := (rfl)
@[simp] theorem binary32_mul : binary32.mul (.b32 a) (.b32 b) = .b32 (a.mul b) := (rfl)
@[simp] theorem binary32_div : binary32.div (.b32 a) (.b32 b) = .b32 (a.div b) := (rfl)
@[simp] theorem binary32_max : binary32.max (.b32 a) (.b32 b) = .b32 (a.max b) := (rfl)
@[simp] theorem binary32_lt : binary32.lt (.b32 a) (.b32 b) = a.lt b := (rfl)
@[simp] theorem binary32_le : binary32.le (.b32 a) (.b32 b) = a.le b := (rfl)
@[simp] theorem binary32_ge : binary32.ge (.b32 a) (.b32 b) = a.ge b := (rfl)
@[simp] theorem binary32_gt : binary32.gt (.b32 a) (.b32 b) = a.gt b := (rfl)
@[simp] theorem binary32_eq : binary32.eq (.b32 a) (.b32 b) = a.eq b := (rfl)
@[simp] theorem binary32_ofInt (n : Int) : binary32.ofInt n = .b32 (.ofInt n) := (rfl)
@[simp] theorem binary32_ofBits (w : Word) : binary32.ofBits w = .b32 (.ofBits w) := (rfl)
@[simp] theorem binary32_toBits : binary32.toBits (.b32 a) = a.toBits := (rfl)
@[simp] theorem binary32_floor : binary32.floor (.b32 a) = .b32 a.floor := (rfl)
@[simp] theorem binary32_isFinite : binary32.isFinite (.b32 a) = a.isFinite := (rfl)
@[simp] theorem binary32_sin2piOpen : binary32.sin2piOpen (.b32 a) = .b32 (Config.sin2piOpen a) := (rfl)
@[simp] theorem binary32_exp2Open : binary32.exp2Open (.b32 a) = .b32 (Config.exp2Open a) := (rfl)

end Lift

/-! ### Constants of the record -/

@[simp] theorem binary32_zero : binary32.zero = .b32 .zero := (rfl)
@[simp] theorem binary32_quarter : binary32.quarter = .b32 .quarter := (rfl)
@[simp] theorem binary32_half : binary32.half = .b32 .half := (rfl)
@[simp] theorem binary32_threeQuarters : binary32.threeQuarters = .b32 .threeQuarters := (rfl)
@[simp] theorem binary32_one : binary32.one = .b32 .one := (rfl)
@[simp] theorem binary32_negOne : binary32.negOne = .b32 .negOne := (rfl)
@[simp] theorem binary32_two : binary32.two = .b32 .two := (rfl)
@[simp] theorem binary32_twelve : binary32.twelve = .b32 .twelve := (rfl)
@[simp] theorem binary32_hundred : binary32.hundred = .b32 .hundred := (rfl)
@[simp] theorem binary32_velFull : binary32.velFull = .b32 .velFull := (rfl)
@[simp] theorem binary32_a4Hz : binary32.a4Hz = .b32 .a4Hz := (rfl)
@[simp] theorem binary32_twoPi : binary32.twoPi = .b32 .twoPi := (rfl)

/-! ### Every result of the record is a binary32 number -/

theorem binary32_add_b32 (x y : Number) : ∃ z, binary32.add x y = .b32 z := by cases x <;> cases y <;> exact ⟨_, rfl⟩
theorem binary32_sub_b32 (x y : Number) : ∃ z, binary32.sub x y = .b32 z := by cases x <;> cases y <;> exact ⟨_, rfl⟩
theorem binary32_mul_b32 (x y : Number) : ∃ z, binary32.mul x y = .b32 z := by cases x <;> cases y <;> exact ⟨_, rfl⟩
theorem binary32_div_b32 (x y : Number) : ∃ z, binary32.div x y = .b32 z := by cases x <;> cases y <;> exact ⟨_, rfl⟩

/-- What is finite in the format is one of its numbers. -/
theorem b32_of_isFinite {x : Number} (h : binary32.isFinite x = true) :
    ∃ a : Num32, x = .b32 a ∧ a.isFinite = true := by
  cases x with
  | b32 a => exact ⟨a, rfl, h⟩
  | other k => cases h

/-- What compares in the format is two of its numbers. -/
theorem b32_of_le {x y : Number} (h : binary32.le x y = true) :
    ∃ a b : Num32, x = .b32 a ∧ y = .b32 b ∧ a.le b = true := by
  cases x <;> cases y <;> first | exact ⟨_, _, rfl, rfl, h⟩ | cases h

/-- What lies in [0, 1] is a binary32 number that does. -/
theorem b32_of_inUnit {x : Number} (h : binary32.inUnit x = true) :
    ∃ a : Num32, x = .b32 a ∧ Num32.zero.le a = true ∧ a.le .one = true := by
  cases x with
  | b32 a => exact ⟨a, rfl, by simpa [inUnit] using h⟩
  | other k => cases h

/-! ### `wrap01` -/

/-- `wrap01` of a binary32 number (00_scope.md R13). -/
theorem binary32_wrap01 (a : Num32) :
    binary32.wrap01 (.b32 a) = .b32 (if (a.sub a.floor).eq .one then .zero else a.sub a.floor) := by
  simp only [wrap01, binary32_floor, binary32_sub, binary32_one, binary32_eq, binary32_zero]
  split <;> simp_all

end Sys2Proof.NumOps

namespace Sys2Proof.Machine

/-- A machine of the default format computes in binary32. -/
theorem State.num_of_binary32 {s : State} (h : s.cfg.num = .binary32) : s.num = NumOps.binary32 := by
  rw [State.num, h]; rfl

end Sys2Proof.Machine
end

