-- ==== Sys2Proof/Laws/Ops.lean ====
section
/-! SUPPORT. What the shared operations of a command can do. -/

namespace Sys2Proof.Machine

/-- A command after its header was accepted answers one of three next states, and never a fault or a refusal. -/
theorem runCommand_cases (len : Nat) (ok : Bool) (body : State → State) (s : State) :
    (ok = false ∧ runCommand len ok body s = .next ((s.raise .illegal).advance len)) ∨
    (ok = true ∧ s.init = false ∧ runCommand len ok body s = .next ((s.raise .notInitialised).advance len)) ∨
    (ok = true ∧ s.init = true ∧ runCommand len ok body s = .next ((body s).advance len)) := by
  unfold runCommand
  cases ok <;> cases h : s.init <;> simp

/-- A command whose checks pass runs its own rule and advances. -/
theorem runCommand_of_ready {len : Nat} {ok : Bool} {body : State → State} {s : State} (hok : ok = true)
    (hi : s.init = true) : runCommand len ok body s = .next ((body s).advance len) := by
  simp [runCommand, hok, hi]

/-- Before the first RESET a command with a legal header only raises NotInitialised. -/
theorem runCommand_of_not_init {len : Nat} {ok : Bool} {body : State → State} {s : State} (hok : ok = true)
    (hi : s.init = false) : runCommand len ok body s = .next ((s.raise .notInitialised).advance len) := by
  simp [runCommand, hok, hi]

@[simp] theorem setFaultBit_idem (f : BitVec 4) (c : Cause) : setFaultBit (setFaultBit f c) c = setFaultBit f c := by
  simp [setFaultBit, BitVec.or_assoc]

theorem setFaultBit_ne_zero (f : BitVec 4) (c : Cause) : setFaultBit f c ≠ 0#4 := by
  revert f; cases c <;> decide

theorem Cause.code_ne_zero (c : Cause) : c.code ≠ 0 := by cases c <;> decide

/-- A second fault of the same command changes nothing. -/
theorem State.raise_raise (s : State) (c : Cause) : (s.raise c).raise c = s.raise c := by
  have hc := c.code_ne_zero
  by_cases h : s.ffirst = 0 <;> simp [State.raise, h, hc, setFaultBit, BitVec.or_assoc]

/-- RENDER's faults: none, or NoCarrier raised once (60_exceptions.md R239). -/
theorem raiseNoCarriers_eq (rs : List Voice.Rendered) (s : State) :
    raiseNoCarriers rs s = if rs.any (·.noCarrier) then s.raise .noCarrier else s := by
  unfold raiseNoCarriers
  induction rs generalizing s with
  | nil => simp
  | cons r rs ih =>
    rw [List.foldl_cons, ih]
    cases hr : r.noCarrier <;> simp [hr, State.raise_raise]

/-! ### Every command at once -/

/-- The voice operand of a command, if it has one, names a voice of the pool. -/
def voiceOk (i : Instr) (s : State) : Bool :=
  match i.voice? with
  | some v => s.hasVoice v
  | none => true

/-- What a command's own rule does before the advance of `pc`, for every command but RESET. -/
def effect (i : Instr) (s : State) : State :=
  match i with
  | .reset _ => s
  | .setalg v alg => setAlgorithm v alg s
  | .setratio v k x => s.modifyOp v.val k fun o => Operator.retune s.num s.fs { o with ratio := s.num.ofBits x }
  | .setlevel v k x => s.modifyOp v.val k fun o => { o with level := s.num.ofBits x }
  | .settune v k c f => s.modifyOp v.val k fun o =>
      Operator.retune s.num s.fs
        { o with tuning := s.num.add (s.num.ofBits c) (s.num.div (s.num.ofBits f) s.num.hundred) }
  | .setenv v k a d su r => s.modifyOp v.val k
      (setEnvelope s.num s.cfg.rearmsRelease s.fs (s.num.ofBits a) (s.num.ofBits d) (s.num.ofBits su) (s.num.ofBits r))
  | .setmode v k .pm => s.modifyOp v.val k fun o =>
      { o with modType := .pm, osc := o.osc.setFrequency s.num s.fs o.baseFreq }
  | .setmode v k .fm => s.modifyOp v.val k fun o => { o with modType := .fm }
  | .setmidx v k x => s.modifyOp v.val k fun o => { o with modIndex := s.num.ofBits x }
  | .render => renderAll s
  | .clrcache => s.mapVoices Voice.resetCache
  | .qactive v => { s with qout := s.voiceActive v.val, outQ := s.outQ ++ [(v, s.voiceActive v.val)] }
  | .noteoff n => vhNoteOff n s
  | .noteon n vel => if vel.val = 0 then vhNoteOff n s else vhNoteOn n vel s

/-- Every command but RESET is its effect behind the shared checks. -/
theorem exec_eq_runCommand (i : Instr) (s : State) (h : ∀ fs, i ≠ .reset fs) :
    exec i s = runCommand i.length (voiceOk i s) (effect i) s := by
  cases i with
  | reset fs => exact absurd rfl (h fs)
  | setmode v k m => cases m <;> rfl
  | _ => rfl

/-- A command whose checks pass has its effect and advances. -/
theorem exec_of_ready {i : Instr} {s : State} (h : ∀ fs, i ≠ .reset fs) (hv : voiceOk i s = true)
    (hi : s.init = true) : exec i s = .next ((effect i s).advance i.length) := by
  rw [exec_eq_runCommand i s h, runCommand_of_ready hv hi]

/-- What any command can do: every case answers a next state. -/
theorem exec_cases (i : Instr) (s : State) :
    (voiceOk i s = false ∧ exec i s = .next ((s.raise .illegal).advance i.length)) ∨
    ((∀ fs, i ≠ .reset fs) ∧ voiceOk i s = true ∧ s.init = false ∧
      exec i s = .next ((s.raise .notInitialised).advance i.length)) ∨
    ((∀ fs, i ≠ .reset fs) ∧ voiceOk i s = true ∧ s.init = true ∧ exec i s = .next ((effect i s).advance i.length)) ∨
    (∃ fs, i = .reset fs ∧ legalRate s.num (s.num.ofBits fs) = true ∧
      exec i s = .next ((resetAll (s.num.ofBits fs) s).advance 2)) ∨
    (∃ fs, i = .reset fs ∧ legalRate s.num (s.num.ofBits fs) = false ∧
      exec i s = .next ((s.raise .illegal).advance 2)) := by
  by_cases h : ∀ fs, i ≠ .reset fs
  · rw [exec_eq_runCommand i s h]
    rcases runCommand_cases i.length (voiceOk i s) (effect i) s with ⟨h1, h2⟩ | ⟨h1, h2, h3⟩ | ⟨h1, h2, h3⟩
    · exact .inl ⟨h1, h2⟩
    · exact .inr (.inl ⟨h, h1, h2, h3⟩)
    · exact .inr (.inr (.inl ⟨h, h1, h2, h3⟩))
  · obtain ⟨fs, rfl⟩ : ∃ fs, i = .reset fs := by simpa using h
    refine .inr (.inr (.inr ?_))
    cases hr : legalRate s.num (s.num.ofBits fs)
    · exact .inr ⟨fs, rfl, hr, by simp [exec, execReset, hr]⟩
    · exact .inl ⟨fs, rfl, hr, by simp [exec, execReset, hr]⟩

end Sys2Proof.Machine
end

