-- ==== Sys2Proof/Laws/Units.lean ====
section
/-! SUPPORT. What the units can do: the fields an envelope, an oscillator, an operator and a voice change, and the
cases of the voice handler's allocation. -/

namespace Sys2Proof.Machine

/-! ### Envelope and oscillator -/

theorem Envelope.next_frame (N : NumOps) (e : Envelope) :
    e.next N = { e with level := (e.next N).level, state := (e.next N).state } := by
  unfold Envelope.next
  split <;> (try (simp only; split)) <;> rfl

theorem Envelope.noteOn_frame (N : NumOps) (e : Envelope) :
    e.noteOn N = { e with level := (e.noteOn N).level, state := (e.noteOn N).state } := by
  unfold Envelope.noteOn
  split
  · rfl
  · split <;> rfl

theorem Envelope.noteOff_frame (N : NumOps) (fs : Number) (e : Envelope) :
    e.noteOff N fs =
      { e with
        level := (e.noteOff N fs).level, state := (e.noteOff N fs).state
        relStart := (e.noteOff N fs).relStart, relRate := (e.noteOff N fs).relRate } := by
  unfold Envelope.noteOff
  split
  · rfl
  · split <;> rfl

theorem Operator.oscillate_frame (N : NumOps) (fs : Number) (o : Operator) (m : Number) :
    (o.oscillate N fs m).2 =
      { o.osc with phase := (o.oscillate N fs m).2.phase, inc := (o.oscillate N fs m).2.inc } := by
  unfold Operator.oscillate
  split <;> rfl

/-! ### Operator and voice -/

theorem Operator.sameSetup_refl (o : Operator) : o.sameSetup o := by simp [Operator.sameSetup]

/-- One evaluation leaves parameters, routing, note, base frequency and velocity scale (42_operator.md R146). -/
theorem Operator.sameSetup_produce (o : Operator) (c : EvalEnv) (m : Number) : o.sameSetup (o.produce c m) := by
  have h1 := o.env.next_frame c.num
  have h2 := o.oscillate_frame c.num c.fs m
  unfold Operator.sameSetup Operator.produce
  simp only
  rw [h1, h2]
  simp

theorem Evaluated.sameSetup {c : EvalEnv} {a b : Six Operator} (h : Evaluated c a b) (i : OpIx) :
    (a.get i).sameSetup (b.get i) := by
  rcases h i with h' | ⟨-, m, h'⟩ <;> rw [h']
  · exact Operator.sameSetup_refl _
  · exact Operator.sameSetup_produce ..

namespace Voice

theorem carriers_eq_nil (v : Voice) : v.carriers = [] ↔ ∀ i, (v.op.get i).carrier = false := by
  unfold carriers
  rw [List.filter_eq_nil_iff]
  simp [mem_opIndices]

theorem render_of_no_carrier (c : EvalEnv) (v : Voice) (h : v.carriers = []) : v.render c = ⟨c.num.zero, v, true⟩ := by
  simp [render, h]

theorem render_of_carrier (c : EvalEnv) (v : Voice) (h : v.carriers ≠ []) :
    v.render c =
      ⟨c.num.div (sumCarriers c v.carriers v.op).1 (c.num.ofInt v.carriers.length),
        { v with op := (sumCarriers c v.carriers v.op).2 }, false⟩ := by
  simp [render, h]

theorem render_noCarrier (c : EvalEnv) (v : Voice) : (v.render c).noCarrier = true ↔ v.carriers = [] := by
  by_cases h : v.carriers = []
  · simp [render_of_no_carrier, h]
  · simp [render_of_carrier, h]

@[simp] theorem render_note (c : EvalEnv) (v : Voice) : (v.render c).voice.note = v.note := by
  unfold render; split <;> rfl

/-- Rendering a voice evaluates some of its operators and does nothing else to it (44_voice.md R191). -/
theorem render_evaluated (c : EvalEnv) (v : Voice) : Evaluated c v.op (v.render c).voice.op := by
  by_cases h : v.carriers = []
  · rw [render_of_no_carrier _ _ h]; exact .refl _ _
  · rw [render_of_carrier _ _ h]; exact sumCarriers_evaluated _ _ _

end Voice

/-! ### The voice handler -/

theorem mix_renderVoices (s : State) :
    mix s.num (renderVoices s) =
      (s.voices.map fun v => (v.render s.evalEnv).sample).foldl s.num.add s.num.zero := by
  simp [mix, renderVoices, List.foldl_map]

/-- RENDER's frame: the pool, `OUT`, its trace, and the fault registers where a voice has no carrier. -/
theorem renderAll_eq (s : State) :
    renderAll s =
      { (if (renderVoices s).any (·.noCarrier) then s.raise .noCarrier else s) with
        voices := (renderAll s).voices, out := (renderAll s).out, outS := s.outS ++ [(renderAll s).out] } := by
  unfold renderAll
  simp only [raiseNoCarriers_eq]

theorem renderAll_voice? (s : State) (v : Nat) :
    (renderAll s).voice? v = (s.voice? v).map fun vc => (vc.render s.evalEnv).voice := by
  simp [State.voice?, renderAll, renderVoices]
  rfl

theorem State.voiceActive_of_voice? {s : State} {v : Nat} {vc : Voice} (h : s.voice? v = some vc) :
    s.voiceActive v = vc.isActive := by
  simp [State.voiceActive, h]

/-- The free voice is the lowest that is not active. -/
theorem State.freeVoice_eq_some {s : State} {v : Nat} (h : s.freeVoice = some v) :
    v < s.numVoices ∧ s.voiceActive v = false ∧ ∀ u, u < v → s.voiceActive u = true := by
  obtain ⟨hv, hp, hlt⟩ := List.findIdx?_eq_some_iff_getElem.1 h
  refine ⟨hv, ?_, fun u hu => ?_⟩
  · rw [State.voiceActive_of_voice? (List.getElem?_eq_getElem hv)]
    simpa using hp
  · rw [State.voiceActive_of_voice? (List.getElem?_eq_getElem (hu.trans hv))]
    simpa using hlt u hu

/-- No free voice: every voice is active. -/
theorem State.freeVoice_eq_none {s : State} (h : s.freeVoice = none) :
    ∀ u, u < s.numVoices → s.voiceActive u = true := by
  intro u hu
  have := List.findIdx?_eq_none_iff.1 h _ (List.getElem_mem hu)
  rw [State.voiceActive_of_voice? (List.getElem?_eq_getElem hu)]
  simpa using this

/-- With every voice active the steal takes voice 0. -/
theorem State.stealVoice_of_all_active {s : State} (hn : 0 < s.numVoices)
    (h : ∀ u, u < s.numVoices → s.voiceActive u = true) : s.stealVoice = some 0 := by
  refine List.findIdx?_eq_some_iff_getElem.2 ⟨hn, ?_, fun j hj => absurd hj (Nat.not_lt_zero j)⟩
  have := h 0 hn
  rwa [State.voiceActive_of_voice? (List.getElem?_eq_getElem hn)] at this

/-- What a note-on does, by its three ways of choosing a voice (45_voicehandler.md R202). -/
theorem vhNoteOn_cases (note : Note) (vel : Velocity) (s : State) (hn : 0 < s.numVoices) :
    (∃ w, s.noteMap.get note = some w ∧ vhNoteOn note vel s = s.startNote w note vel) ∨
    (s.noteMap.get note = none ∧ ∃ v, s.freeVoice = some v ∧
      vhNoteOn note vel s = (s.evict note v).startNote v note vel) ∨
    (s.noteMap.get note = none ∧ s.freeVoice = none ∧
      vhNoteOn note vel s = ((s.releaseVoice 0).evict note 0).startNote 0 note vel) := by
  unfold vhNoteOn
  cases hm : s.noteMap.get note with
  | some w => exact .inl ⟨w, rfl, rfl⟩
  | none =>
    cases hf : s.freeVoice with
    | some v => exact .inr (.inl ⟨rfl, v, rfl, rfl⟩)
    | none =>
      rw [State.stealVoice_of_all_active hn (State.freeVoice_eq_none hf)]
      exact .inr (.inr ⟨rfl, rfl, rfl⟩)

/-- No command changes the size of the pool. -/
theorem numVoices_vhNoteOff (note : Note) (s : State) : (vhNoteOff note s).numVoices = s.numVoices := by
  unfold vhNoteOff
  split <;> simp [State.numVoices]

theorem numVoices_vhNoteOn (note : Note) (vel : Velocity) (s : State) :
    (vhNoteOn note vel s).numVoices = s.numVoices := by
  unfold vhNoteOn
  repeat' split
  all_goals simp [State.numVoices]

theorem numVoices_renderAll (s : State) : (renderAll s).numVoices = s.numVoices := by
  simp [State.numVoices, renderAll, renderVoices]

/-! ### Every effect's frame -/

/-- From `s` to `t` the configuration, the stream, `pc`, `FS`, `INIT` and the size of the pool stay. -/
structure SameRun (s t : State) : Prop where
  cfg : t.cfg = s.cfg
  prog : t.prog = s.prog
  progFrag : t.progFrag = s.progFrag
  pc : t.pc = s.pc
  fs : t.fs = s.fs
  init : t.init = s.init
  numVoices : t.numVoices = s.numVoices

/-- The fault registers of `t` are those of `s`, or those of `s` after one `raise`. -/
def FaultsOf (s t : State) : Prop :=
  (t.fault = s.fault ∧ t.ffirst = s.ffirst ∧ t.fpc = s.fpc ∧ t.fword = s.fword) ∨
  ∃ c : Cause, t.fault = (s.raise c).fault ∧ t.ffirst = (s.raise c).ffirst ∧ t.fpc = (s.raise c).fpc ∧
    t.fword = (s.raise c).fword

theorem FaultsOf.refl (s : State) : FaultsOf s s := .inl ⟨rfl, rfl, rfl, rfl⟩

theorem SameRun.refl (s : State) : SameRun s s := ⟨rfl, rfl, rfl, rfl, rfl, rfl, rfl⟩

/-- What no command's effect touches, and what it can do to the fault registers. -/
theorem effect_frame (i : Instr) (s : State) : SameRun s (effect i s) ∧ FaultsOf s (effect i s) := by
  have off : ∀ n, SameRun s (vhNoteOff n s) ∧ FaultsOf s (vhNoteOff n s) := by
    intro n
    refine ⟨⟨?_, ?_, ?_, ?_, ?_, ?_, numVoices_vhNoteOff n s⟩, .inl ⟨?_, ?_, ?_, ?_⟩⟩ <;> unfold vhNoteOff <;>
      split <;> rfl
  have on : ∀ n vel, SameRun s (vhNoteOn n vel s) ∧ FaultsOf s (vhNoteOn n vel s) := by
    intro n vel
    refine ⟨⟨?_, ?_, ?_, ?_, ?_, ?_, numVoices_vhNoteOn n vel s⟩, .inl ⟨?_, ?_, ?_, ?_⟩⟩ <;> unfold vhNoteOn <;>
      (split; rfl; split; rfl; split <;> rfl)
  cases i with
  | reset fs => exact ⟨.refl s, .refl s⟩
  | setalg v alg =>
    simp only [effect, setAlgorithm]
    split
    · exact ⟨⟨rfl, rfl, rfl, rfl, rfl, rfl, by simp⟩, .inl ⟨rfl, rfl, rfl, rfl⟩⟩
    · exact ⟨⟨rfl, rfl, rfl, rfl, rfl, rfl, rfl⟩, .inr ⟨.algIndex, rfl, rfl, rfl, rfl⟩⟩
  | setratio v k x => exact ⟨⟨rfl, rfl, rfl, rfl, rfl, rfl, by simp [effect]⟩, .inl ⟨rfl, rfl, rfl, rfl⟩⟩
  | setlevel v k x => exact ⟨⟨rfl, rfl, rfl, rfl, rfl, rfl, by simp [effect]⟩, .inl ⟨rfl, rfl, rfl, rfl⟩⟩
  | settune v k c f => exact ⟨⟨rfl, rfl, rfl, rfl, rfl, rfl, by simp [effect]⟩, .inl ⟨rfl, rfl, rfl, rfl⟩⟩
  | setenv v k a d x r => exact ⟨⟨rfl, rfl, rfl, rfl, rfl, rfl, by simp [effect]⟩, .inl ⟨rfl, rfl, rfl, rfl⟩⟩
  | setmode v k m =>
    cases m <;> exact ⟨⟨rfl, rfl, rfl, rfl, rfl, rfl, by simp [effect]⟩, .inl ⟨rfl, rfl, rfl, rfl⟩⟩
  | setmidx v k x => exact ⟨⟨rfl, rfl, rfl, rfl, rfl, rfl, by simp [effect]⟩, .inl ⟨rfl, rfl, rfl, rfl⟩⟩
  | render =>
    simp only [effect]
    refine ⟨⟨?_, ?_, ?_, ?_, ?_, ?_, numVoices_renderAll s⟩, ?_⟩
    iterate 6 (rw [renderAll_eq]; split <;> rfl)
    rw [renderAll_eq]
    split
    · exact .inr ⟨.noCarrier, rfl, rfl, rfl, rfl⟩
    · exact .inl ⟨rfl, rfl, rfl, rfl⟩
  | clrcache => exact ⟨⟨rfl, rfl, rfl, rfl, rfl, rfl, by simp [effect]⟩, .inl ⟨rfl, rfl, rfl, rfl⟩⟩
  | qactive v => exact ⟨⟨rfl, rfl, rfl, rfl, rfl, rfl, rfl⟩, .inl ⟨rfl, rfl, rfl, rfl⟩⟩
  | noteoff n => exact off n
  | noteon n vel =>
    simp only [effect]
    split
    · exact off n
    · exact on n vel

end Sys2Proof.Machine
end

