-- ==== Sys2Proof/Laws/Frames.lean ====
section
/-! SUPPORT. What any command can do to one operator, to one voice's note and to the rest of the state: case lemmas
that a claim about every command cites instead of unfolding thirteen meanings. -/

namespace Sys2Proof.Machine

/-- A command that answers `next` raised a fault and advanced, or had its effect and advanced, or was a RESET that was
carried out. -/
theorem exec_next_cases {i : Instr} {s t : State} (h : exec i s = .next t) :
    (∃ c, t = (s.raise c).advance i.length) ∨
    (s.init = true ∧ voiceOk i s = true ∧ (∀ w, i ≠ .reset w) ∧ t = (effect i s).advance i.length) ∨
    (∃ w, i = .reset w ∧ legalRate s.num (s.num.ofBits w) = true ∧
      t = (resetAll (s.num.ofBits w) s).advance i.length) := by
  rcases exec_cases i s with ⟨-, e⟩ | ⟨-, -, -, e⟩ | ⟨h1, h2, h3, e⟩ | ⟨w, rfl, h2, e⟩ | ⟨w, rfl, -, e⟩ <;>
    rw [h] at e <;> injection e with e <;> subst e
  · exact .inl ⟨_, rfl⟩
  · exact .inl ⟨_, rfl⟩
  · exact .inr (.inl ⟨h3, h2, h1, rfl⟩)
  · exact .inr (.inr ⟨w, rfl, h2, rfl⟩)
  · exact .inl ⟨_, rfl⟩

/-- Every command answers a next state. -/
theorem exec_total (i : Instr) (s : State) : ∃ t, exec i s = .next t := by
  rcases exec_cases i s with ⟨-, e⟩ | ⟨-, -, -, e⟩ | ⟨-, -, -, e⟩ | ⟨w, -, -, e⟩ | ⟨w, -, -, e⟩ <;> exact ⟨_, e⟩

/-- What a command `i` at `s` may leave in operator `k` of voice `v` that was `o`. -/
inductive OperatorAfter (s : State) (v : Nat) (k : OpIx) (o : Operator) : Instr → Operator → Prop where
  | same (i : Instr) : OperatorAfter s v k o i o
  | reset (w : Word) : OperatorAfter s v k o (.reset w) (o.reset s.num s.cfg.rearmsRelease (s.num.ofBits w))
  | setalg (u : VoiceIx) (alg : AlgIx) (mods : List OpIx) (carrier feedback : Bool) : u.val = v →
      OperatorAfter s v k o (.setalg u alg) { o with mods := mods, carrier := carrier, feedback := feedback }
  | setratio (u : VoiceIx) (w : Word) : u.val = v →
      OperatorAfter s v k o (.setratio u k w) (Operator.retune s.num s.fs { o with ratio := s.num.ofBits w })
  | setlevel (u : VoiceIx) (w : Word) : u.val = v →
      OperatorAfter s v k o (.setlevel u k w) { o with level := s.num.ofBits w }
  | settune (u : VoiceIx) (c f : Word) : u.val = v →
      OperatorAfter s v k o (.settune u k c f) (Operator.retune s.num s.fs
        { o with tuning := s.num.add (s.num.ofBits c) (s.num.div (s.num.ofBits f) s.num.hundred) })
  | setenv (u : VoiceIx) (a d x r : Word) : u.val = v →
      OperatorAfter s v k o (.setenv u k a d x r) (setEnvelope s.num s.cfg.rearmsRelease s.fs
        (s.num.ofBits a) (s.num.ofBits d) (s.num.ofBits x) (s.num.ofBits r) o)
  | setmodePm (u : VoiceIx) : u.val = v →
      OperatorAfter s v k o (.setmode u k .pm)
        { o with modType := .pm, osc := o.osc.setFrequency s.num s.fs o.baseFreq }
  | setmodeFm (u : VoiceIx) : u.val = v → OperatorAfter s v k o (.setmode u k .fm) { o with modType := .fm }
  | setmidx (u : VoiceIx) (w : Word) : u.val = v →
      OperatorAfter s v k o (.setmidx u k w) { o with modIndex := s.num.ofBits w }
  | render (m : Number) : o.isOpen = true → OperatorAfter s v k o .render (o.produce s.evalEnv m)
  | clrcache : OperatorAfter s v k o .clrcache o.resetCache
  | noteoff (n : Note) : OperatorAfter s v k o (.noteoff n) (o.noteOff s.num s.fs)
  | noteonZero (n : Note) (vel : Velocity) : vel.val = 0 →
      OperatorAfter s v k o (.noteon n vel) (o.noteOff s.num s.fs)
  | noteon (n : Note) (vel : Velocity) : vel.val ≠ 0 →
      OperatorAfter s v k o (.noteon n vel) (o.noteOn s.num s.fs n vel)
  | noteonSteals (n : Note) (vel : Velocity) : vel.val ≠ 0 →
      OperatorAfter s v k o (.noteon n vel) ((o.noteOff s.num s.fs).noteOn s.num s.fs n vel)

section Operators

variable {s t : State} {v : Nat} {k : OpIx} {o p : Operator}

/-- Where the pool is unchanged, so is the operator. -/
theorem operator_of_voices_eq (h : t.voices = s.voices) (ho : s.operator? v k = some o)
    (hp : t.operator? v k = some p) : p = o := by
  unfold State.operator? State.voice? at ho hp
  rw [h, ho] at hp
  exact (Option.some.inj hp).symm

/-- Where one operator was changed by `f`, any operator is that one after `f`, or unchanged. -/
theorem operator_of_modifyOp {w : Nat} {j : OpIx} {f : Operator → Operator} (ho : s.operator? v k = some o)
    (hp : (s.modifyOp w j f).operator? v k = some p) : (v = w ∧ k = j ∧ p = f o) ∨ p = o := by
  rw [State.operator?_modifyOp, ho] at hp
  split at hp
  · rename_i h
    exact .inl ⟨h.1, h.2, (Option.some.inj hp).symm⟩
  · exact .inr (Option.some.inj hp).symm

/-- Where one voice's operators were all changed by `f`, any operator is changed by `f`, or unchanged. -/
theorem operator_of_modifyVoice {w : Nat} {g : Voice → Voice} {f : Operator → Operator}
    (hg : ∀ vc i, (g vc).op.get i = f (vc.op.get i)) (ht : t.voices = s.voices.modify w g)
    (ho : s.operator? v k = some o) (hp : t.operator? v k = some p) : p = f o ∨ p = o := by
  obtain ⟨vc, hv, rfl⟩ := (State.operator?_eq_some _ _ _).1 ho
  obtain ⟨tc, htc, rfl⟩ := (State.operator?_eq_some _ _ _).1 hp
  simp only [State.voice?] at hv htc
  rw [ht, List.getElem?_modify, hv] at htc
  split at htc
  · obtain rfl : g vc = tc := by simpa using htc
    exact .inl (hg vc k)
  · obtain rfl : vc = tc := by simpa using htc
    exact .inr rfl

theorem operator_noteOff (N : NumOps) (fs : Number) (vc : Voice) (i : OpIx) :
    (vc.noteOff N fs).op.get i = (vc.op.get i).noteOff N fs := Six.get_map ..

theorem operator_noteOn (N : NumOps) (fs : Number) (n : Note) (vel : Velocity) (vc : Voice) (i : OpIx) :
    (vc.noteOn N fs n vel).op.get i = (vc.op.get i).noteOn N fs n vel := Six.get_map ..

theorem operator_vhNoteOff (n : Note) (ho : s.operator? v k = some o) (hp : (vhNoteOff n s).operator? v k = some p) :
    p = o.noteOff s.num s.fs ∨ p = o := by
  unfold vhNoteOff at hp
  split at hp
  · exact operator_of_modifyVoice (operator_noteOff s.num s.fs) rfl ho hp
  · exact .inr (operator_of_voices_eq rfl ho hp)

theorem operator_vhNoteOn (n : Note) (vel : Velocity) (ho : s.operator? v k = some o)
    (hp : (vhNoteOn n vel s).operator? v k = some p) :
    p = o.noteOn s.num s.fs n vel ∨ p = (o.noteOff s.num s.fs).noteOn s.num s.fs n vel ∨ p = o := by
  have start : ∀ (u : State) (w : Nat), u.num = s.num → u.fs = s.fs → u.voices = s.voices →
      (u.startNote w n vel).operator? v k = some p → p = o.noteOn s.num s.fs n vel ∨ p = o := by
    intro u w h1 h2 h3 hp
    refine operator_of_modifyVoice (w := w) (g := fun vc => vc.noteOn s.num s.fs n vel)
      (f := fun o => o.noteOn s.num s.fs n vel) (operator_noteOn s.num s.fs n vel) ?_ ho hp
    rw [State.startNote_voices, h1, h2, h3]
  unfold vhNoteOn at hp
  split at hp
  · rcases start s _ rfl rfl rfl hp with h | h
    exacts [.inl h, .inr (.inr h)]
  · split at hp
    · rcases start (s.evict n _) _ rfl rfl rfl hp with h | h
      exacts [.inl h, .inr (.inr h)]
    · split at hp
      · rename_i w _
        refine .inr ?_
        have hg : ∀ (vc : Voice) (i : OpIx), ((vc.noteOff s.num s.fs).noteOn s.num s.fs n vel).op.get i =
            ((vc.op.get i).noteOff s.num s.fs).noteOn s.num s.fs n vel := fun vc i => by
          rw [operator_noteOn, operator_noteOff]
        refine operator_of_modifyVoice (w := w) (g := fun vc => (vc.noteOff s.num s.fs).noteOn s.num s.fs n vel)
          (f := fun o => (o.noteOff s.num s.fs).noteOn s.num s.fs n vel) hg ?_ ho hp
        simp only [State.startNote_voices, State.evict_voices, State.releaseVoice_voices, State.evict_num,
          State.evict_fs, State.releaseVoice_num, State.releaseVoice_fs, List.modify_modify_eq]
        rfl
      · exact .inr (.inr (operator_of_voices_eq rfl ho hp))

/-- What any command can do to one operator. -/
theorem exec_operator {i : Instr} (h : exec i s = .next t) (ho : s.operator? v k = some o)
    (hp : t.operator? v k = some p) : OperatorAfter s v k o i p := by
  rcases exec_next_cases h with ⟨c, rfl⟩ | ⟨-, -, hnr, rfl⟩ | ⟨w, rfl, -, rfl⟩
  · obtain rfl := operator_of_voices_eq (t := (s.raise c).advance i.length) rfl ho hp
    exact .same i
  · rw [State.operator?_advance] at hp
    cases i with
    | reset w => exact absurd rfl (hnr w)
    | setalg u alg =>
      simp only [effect, setAlgorithm] at hp
      split at hp
      · rename_i hlt
        obtain ⟨vc, hv, rfl⟩ := (State.operator?_eq_some _ _ _).1 ho
        obtain ⟨tc, htc, rfl⟩ := (State.operator?_eq_some _ _ _).1 hp
        rw [State.voice?_modifyVoice, hv] at htc
        split at htc
        · rename_i hu
          obtain rfl := Option.some.inj htc
          rw [get_wire]
          exact .setalg u alg _ _ _ hu.symm
        · obtain rfl := Option.some.inj htc
          exact .same _
      · obtain rfl := operator_of_voices_eq rfl ho hp
        exact .same _
    | setratio u j w =>
      rcases operator_of_modifyOp ho hp with ⟨hu, rfl, rfl⟩ | rfl
      exacts [.setratio u w hu.symm, .same _]
    | setlevel u j w =>
      rcases operator_of_modifyOp ho hp with ⟨hu, rfl, rfl⟩ | rfl
      exacts [.setlevel u w hu.symm, .same _]
    | settune u j c f =>
      rcases operator_of_modifyOp ho hp with ⟨hu, rfl, rfl⟩ | rfl
      exacts [.settune u c f hu.symm, .same _]
    | setenv u j a d x r =>
      rcases operator_of_modifyOp ho hp with ⟨hu, rfl, rfl⟩ | rfl
      exacts [.setenv u a d x r hu.symm, .same _]
    | setmode u j m =>
      cases m
      · rcases operator_of_modifyOp ho hp with ⟨hu, rfl, rfl⟩ | rfl
        exacts [.setmodePm u hu.symm, .same _]
      · rcases operator_of_modifyOp ho hp with ⟨hu, rfl, rfl⟩ | rfl
        exacts [.setmodeFm u hu.symm, .same _]
    | setmidx u j w =>
      rcases operator_of_modifyOp ho hp with ⟨hu, rfl, rfl⟩ | rfl
      exacts [.setmidx u w hu.symm, .same _]
    | render =>
      obtain ⟨vc, hv, rfl⟩ := (State.operator?_eq_some _ _ _).1 ho
      obtain ⟨tc, htc, rfl⟩ := (State.operator?_eq_some _ _ _).1 hp
      change (renderAll s).voice? v = some tc at htc
      rw [renderAll_voice?, hv] at htc
      obtain rfl := Option.some.inj htc
      beta_reduce
      rcases vc.render_evaluated s.evalEnv k with h' | ⟨h1, m, h'⟩ <;> rw [h']
      exacts [.same _, .render m h1]
    | clrcache =>
      obtain ⟨vc, hv, rfl⟩ := (State.operator?_eq_some _ _ _).1 ho
      obtain ⟨tc, htc, rfl⟩ := (State.operator?_eq_some _ _ _).1 hp
      simp only [effect] at htc
      rw [State.voice?_mapVoices, hv] at htc
      obtain rfl := Option.some.inj htc
      have : (vc.resetCache).op.get k = (vc.op.get k).resetCache := Six.get_map ..
      rw [this]
      exact .clrcache
    | qactive u =>
      obtain rfl := operator_of_voices_eq rfl ho hp
      exact .same _
    | noteoff n =>
      rcases operator_vhNoteOff n ho hp with rfl | rfl
      exacts [.noteoff n, .same _]
    | noteon n vel =>
      simp only [effect] at hp
      split at hp
      · rename_i h0
        rcases operator_vhNoteOff n ho hp with rfl | rfl
        exacts [.noteonZero n vel h0, .same _]
      · rename_i h0
        rcases operator_vhNoteOn n vel ho hp with rfl | rfl | rfl
        exacts [.noteon n vel h0, .noteonSteals n vel h0, .same _]
  · obtain ⟨vc, hv, rfl⟩ := (State.operator?_eq_some _ _ _).1 ho
    obtain ⟨tc, htc, rfl⟩ := (State.operator?_eq_some _ _ _).1 hp
    have : ((resetAll (s.num.ofBits w) s).advance (Instr.reset w).length).voice? v =
        (s.voice? v).map fun vc => vc.reset s.num s.cfg.rearmsRelease (s.num.ofBits w) := List.getElem?_map ..
    rw [this, hv] at htc
    obtain rfl := Option.some.inj htc
    have : (vc.reset s.num s.cfg.rearmsRelease (s.num.ofBits w)).op.get k =
        (vc.op.get k).reset s.num s.cfg.rearmsRelease (s.num.ofBits w) := Six.get_map ..
    rw [this]
    exact .reset w

end Operators

/-! ### Voices -/

section Voices

variable {s t : State} {v : Nat} {vc tc : Voice}

/-- Where the pool is unchanged, so is the voice. -/
theorem voice_of_voices_eq (h : t.voices = s.voices) (hv : s.voice? v = some vc) (ht : t.voice? v = some tc) :
    tc = vc := by
  unfold State.voice? at hv ht
  rw [h, hv] at ht
  exact (Option.some.inj ht).symm

/-- Where one voice was changed by `g`, any voice is that one after `g`, or unchanged. -/
theorem voice_of_modify {w : Nat} {g : Voice → Voice} (h : t.voices = s.voices.modify w g)
    (hv : s.voice? v = some vc) (ht : t.voice? v = some tc) : (v = w ∧ tc = g vc) ∨ tc = vc := by
  simp only [State.voice?] at hv ht
  rw [h, List.getElem?_modify, hv] at ht
  split at ht
  · rename_i hw
    exact .inl ⟨hw.symm, by simpa using ht.symm⟩
  · exact .inr (by simpa using ht.symm)

/-- What any command can do to a voice's note. -/
theorem exec_voice_note {i : Instr} (h : exec i s = .next t) (hv : s.voice? v = some vc) (ht : t.voice? v = some tc) :
    tc.note = vc.note ∨ (∃ w, i = .reset w ∧ tc.note = none) ∨ ∃ n vel, i = .noteon n vel ∧ tc.note = some n := by
  have stays : ∀ (u : State) (w : Nat) (g : Voice → Voice), u.voices = s.voices.modify w g →
      (∀ vc, (g vc).note = vc.note) → u.voice? v = some tc → tc.note = vc.note := by
    intro u w g hu hg ht
    rcases voice_of_modify hu hv ht with ⟨-, rfl⟩ | rfl
    exacts [hg _, rfl]
  have off : ∀ n, (vhNoteOff n s).voice? v = some tc → tc.note = vc.note := by
    intro n ht
    unfold vhNoteOff at ht
    split at ht
    · exact stays _ _ (fun vc => vc.noteOff s.num s.fs) rfl (fun _ => rfl) ht
    · exact congrArg Voice.note (voice_of_voices_eq rfl hv ht)
  rcases exec_next_cases h with ⟨c, rfl⟩ | ⟨-, -, hnr, rfl⟩ | ⟨w, rfl, -, rfl⟩
  · exact .inl (congrArg Voice.note (voice_of_voices_eq rfl hv ht))
  · rw [State.voice?_advance] at ht
    cases i with
    | reset w => exact absurd rfl (hnr w)
    | setalg u alg =>
      simp only [effect, setAlgorithm] at ht
      split at ht
      · exact .inl (stays _ u.val _ rfl (by intro; rfl) ht)
      · exact .inl (congrArg Voice.note (voice_of_voices_eq rfl hv ht))
    | setmode u k m => cases m <;> exact .inl (stays _ u.val _ rfl (by intro; rfl) ht)
    | render =>
      change (renderAll s).voice? v = some tc at ht
      rw [renderAll_voice?, hv] at ht
      obtain rfl := Option.some.inj ht
      exact .inl (Voice.render_note _ _)
    | clrcache =>
      simp only [effect] at ht
      rw [State.voice?_mapVoices, hv] at ht
      obtain rfl := Option.some.inj ht
      exact .inl rfl
    | qactive u => exact .inl (congrArg Voice.note (voice_of_voices_eq rfl hv ht))
    | noteoff n => exact .inl (off n ht)
    | noteon n vel =>
      simp only [effect] at ht
      split at ht
      · exact .inl (off n ht)
      · have start : ∀ (u : State) (w : Nat) (g : Voice → Voice), u.voices = s.voices.modify w g →
            (∀ vc, (g vc).note = some n) → u.voice? v = some tc → tc.note = vc.note ∨ tc.note = some n := by
          intro u w g hu hg ht
          rcases voice_of_modify hu hv ht with ⟨-, rfl⟩ | rfl
          exacts [.inr (hg _), .inl rfl]
        have : tc.note = vc.note ∨ tc.note = some n := by
          unfold vhNoteOn at ht
          split at ht
          · exact start _ _ (fun vc => vc.noteOn s.num s.fs n vel) rfl (fun _ => rfl) ht
          · split at ht
            · exact start _ _ (fun vc => vc.noteOn s.num s.fs n vel) rfl (fun _ => rfl) ht
            · split at ht
              · rename_i w _
                refine start _ w (fun vc => (vc.noteOff s.num s.fs).noteOn s.num s.fs n vel) ?_ (fun _ => rfl) ht
                simp only [State.startNote_voices, State.evict_voices, State.releaseVoice_voices, State.evict_num,
                  State.evict_fs, State.releaseVoice_num, State.releaseVoice_fs, List.modify_modify_eq]
                rfl
              · exact .inl (congrArg Voice.note (voice_of_voices_eq rfl hv ht))
        exact this.imp_right fun h => .inr ⟨n, vel, rfl, h⟩
    | setratio u k _ | setlevel u k _ | settune u k _ _ | setenv u k _ _ _ _ | setmidx u k _ =>
      exact .inl (stays _ u.val _ rfl (by intro; rfl) ht)
  · have : ((resetAll (s.num.ofBits w) s).advance (Instr.reset w).length).voice? v =
        (s.voice? v).map fun vc => vc.reset s.num s.cfg.rearmsRelease (s.num.ofBits w) := List.getElem?_map ..
    rw [this, hv] at ht
    obtain rfl := Option.some.inj ht
    exact .inr (.inl ⟨w, rfl, rfl⟩)

end Voices

end Sys2Proof.Machine
end

