-- ==== Sys2Proof/Laws/PerInstr.lean ====
section
/-! SUPPORT. Laws of every instruction as syntax, one lemma per constructor. -/

namespace Sys2Proof.Laws.EncodedLength

/-- A command's encoding has the length its opcode gives (30_encoding.md R83), and its header carries the opcode. -/
def Statement (i : Instr) : Prop :=
  (encode i).length = i.length ∧ i.opcode.length = i.length ∧ i.header.opField = i.opcode.code

theorem reset (fs : Word) : Statement (.reset fs) := ⟨rfl, rfl, opField_mkHeader _ _ _ _⟩
theorem setalg (v : VoiceIx) (alg : AlgIx) : Statement (.setalg v alg) := ⟨rfl, rfl, opField_mkHeader _ _ _ _⟩
theorem setratio (v : VoiceIx) (i : OpIx) (x : Word) : Statement (.setratio v i x) :=
  ⟨rfl, rfl, opField_mkHeader _ _ _ _⟩
theorem setlevel (v : VoiceIx) (i : OpIx) (x : Word) : Statement (.setlevel v i x) :=
  ⟨rfl, rfl, opField_mkHeader _ _ _ _⟩
theorem settune (v : VoiceIx) (i : OpIx) (c f : Word) : Statement (.settune v i c f) :=
  ⟨rfl, rfl, opField_mkHeader _ _ _ _⟩
theorem setenv (v : VoiceIx) (i : OpIx) (a d s r : Word) : Statement (.setenv v i a d s r) :=
  ⟨rfl, rfl, opField_mkHeader _ _ _ _⟩
theorem setmode (v : VoiceIx) (i : OpIx) (m : ModType) : Statement (.setmode v i m) :=
  ⟨rfl, rfl, opField_mkHeader _ _ _ _⟩
theorem setmidx (v : VoiceIx) (i : OpIx) (x : Word) : Statement (.setmidx v i x) :=
  ⟨rfl, rfl, opField_mkHeader _ _ _ _⟩
theorem render : Statement .render := ⟨rfl, rfl, opField_mkHeader _ _ _ _⟩
theorem clrcache : Statement .clrcache := ⟨rfl, rfl, opField_mkHeader _ _ _ _⟩
theorem qactive (v : VoiceIx) : Statement (.qactive v) := ⟨rfl, rfl, opField_mkHeader _ _ _ _⟩
theorem noteoff (n : Note) : Statement (.noteoff n) := ⟨rfl, rfl, opField_mkHeader _ _ _ _⟩
theorem noteon (n : Note) (vel : Velocity) : Statement (.noteon n vel) := ⟨rfl, rfl, opField_mkHeader _ _ _ _⟩

end Sys2Proof.Laws.EncodedLength
end

