-- ==== Sys2Proof/Laws/Step.lean ====
section
/-! SUPPORT. What one step can do. -/

namespace Sys2Proof.Machine

theorem State.progLen_eq_of_drop {s : State} {h : Word} {rest : List Word} (hd : s.prog.drop s.pc = h :: rest) :
    s.pc + rest.length + 1 ≤ s.progLen := by
  have := congrArg List.length hd
  simp only [List.length_drop, List.length_cons] at this
  unfold State.progLen
  omega

/-- Past the whole words of the stream nothing is decoded. -/
theorem State.progLen_le_of_drop {s : State} (hd : s.prog.drop s.pc = []) : s.prog.length ≤ s.pc := by
  simpa using hd

/-- What a step can do: it executes a command whose words all lie in the stream, or skips an illegal one to a later
place in the stream, or waits at the stream's end. -/
theorem step_cases (s : State) :
    (∃ h rest i, s.prog.drop s.pc = h :: rest ∧ decode s.numVoices h rest = .ok i ∧
      s.pc + i.length ≤ s.progLen ∧ step s = exec i s) ∨
    (∃ pc, s.pc < pc ∧ pc ≤ s.progLen ∧ step s = .next (rejectHeader s pc)) ∨
    (s.progLen ≤ s.pc ∧ step s = .next s) := by
  unfold step fetch
  cases hd : s.prog.drop s.pc with
  | nil =>
    by_cases hlt : s.pc < s.progLen
    · simp only [hlt, if_true]
      exact .inr (.inl ⟨s.progLen, hlt, le_refl _, rfl⟩)
    · simp only [hlt, if_false]
      exact .inr (.inr ⟨not_lt.1 hlt, rfl⟩)
  | cons h rest =>
    have hlen := State.progLen_eq_of_drop hd
    cases hx : decode s.numVoices h rest with
    | ok i =>
      have := length_of_decode_ok hx
      exact .inl ⟨h, rest, i, rfl, hx, by omega, by simp only [hx]⟩
    | illegal why len =>
      obtain ⟨h0, h1⟩ := length_of_decode_illegal hx
      refine .inr (.inl ?_)
      by_cases hw : why = .truncated
      · subst hw
        exact ⟨s.progLen, by omega, le_refl _, by simp only [hx]⟩
      · have := h1 hw
        refine ⟨s.pc + len, by omega, by omega, ?_⟩
        simp only [hx]

/-- An illegal header changes the fault registers and `pc` only. -/
@[simp] theorem rejectHeader_voices (s : State) (pc : Nat) : (rejectHeader s pc).voices = s.voices := rfl
@[simp] theorem rejectHeader_noteMap (s : State) (pc : Nat) : (rejectHeader s pc).noteMap = s.noteMap := rfl
@[simp] theorem rejectHeader_pc (s : State) (pc : Nat) : (rejectHeader s pc).pc = pc := rfl
@[simp] theorem rejectHeader_prog (s : State) (pc : Nat) : (rejectHeader s pc).prog = s.prog := rfl
@[simp] theorem rejectHeader_progFrag (s : State) (pc : Nat) : (rejectHeader s pc).progFrag = s.progFrag := rfl
@[simp] theorem rejectHeader_cfg (s : State) (pc : Nat) : (rejectHeader s pc).cfg = s.cfg := rfl

/-- A run of one step more is the run from the next state. -/
theorem core_run_succ {s t : State} (h : step s = .next t) (k : Nat) :
    Host.Core.run Sys2Proof.core (k + 1) s = Host.Core.run Sys2Proof.core k t := by
  have hs : Sys2Proof.core.step s = .next t := h
  simp only [Host.Core.run, hs]

theorem State.progLen_congr {s t : State} (hp : t.prog = s.prog) (hf : t.progFrag = s.progFrag) :
    t.progLen = s.progLen := by
  unfold State.progLen
  rw [hp, hf]

end Sys2Proof.Machine
end

