-- ==== Sys2Proof/Tests/Slice0.lean ====
section
/-! SUPPORT. The model's own tests: ill-formed commands are refused, words written out from the spec decode to what they
stand for, one step of each command gives what 95_test_vectors.md says, and every obligation's hypotheses are met by a
concrete state. Every expected value is from the spec file named in the test's comment. -/

namespace Sys2Proof.Tests

open Sys2Proof.Machine

/-! ### States to test on -/

/-- The number format of the tests. -/
abbrev N32 : NumOps := .binary32

/-- The test table `T` of 95_test_vectors.md section 1. -/
def tableT : AlgTable := AlgTable.ofFn fun k =>
  match k with
  | 1 => ⟨[(1, 2)], [1], none⟩
  | 2 => ⟨[(1, 3), (2, 3)], [1, 2], some 3⟩
  | 3 => ⟨[], [1, 2, 3, 4, 5, 6], none⟩
  | 4 => ⟨[], [1], some 1⟩
  | _ => ⟨[], [1], none⟩

/-- The test vectors' configuration: `SMOOTH_COEF = 1`, table `T`. -/
def cfgT : Config := ⟨.binary32, N32.one, tableT, false⟩

/-- Power-on with `nv` voices and a command stream. -/
def boot (nv : Nat) (prog : List Word) : State := (State.powerOn cfgT nv).load prog

/-- A carrier that nothing plays. -/
def restOp : Operator := { Operator.powerOn N32 with carrier := true }

/-- A carrier on which note 69 sounds at `FS` 1760: full level, phase a quarter turn, increment a quarter turn. -/
def playOp : Operator :=
  { restOp with
    note := some 69, baseFreq := N32.ofBits 0x43DC0000#32, smoothAmp := N32.one
    osc := ⟨N32.quarter, N32.quarter, N32.one⟩
    env := { Envelope.powerOn N32 with state := .sustain, level := N32.one } }

/-- A voice whose operator 0 is the one given; the other five are as at power-on. -/
def voiceOf (note : Option Note) (o : Operator) : Voice :=
  ⟨note, ⟨o, .powerOn N32, .powerOn N32, .powerOn N32, .powerOn N32, .powerOn N32⟩⟩

/-- After `RESET 1760`: these voices, and a map with these entries. -/
def ready (voices : List Voice) (mapped : List (Note × Nat)) : State :=
  { State.powerOn cfgT 0 with
    init := true, fs := N32.ofBits 0x44DC0000#32, voices := voices
    noteMap := mapped.foldl (fun m e => m.set e.1 (some e.2)) NoteMap.empty }

/-- Voice 0 plays note 69, voice 1 is wired and free. -/
def half : State := ready [voiceOf (some 69) playOp, voiceOf none restOp] [(69, 0)]

/-- Both voices sound, note 57 on voice 0 and note 69 on voice 1. -/
def full : State := ready [voiceOf (some 57) playOp, voiceOf (some 69) playOp] [(57, 0), (69, 1)]

/-- Voice 0 is wired, voice 1 never was. -/
def unwired : State := ready [voiceOf none restOp, Voice.powerOn N32] []

/-- The state after a command that answers `next`. -/
def after (i : Instr) (s : State) : State :=
  match exec i s with
  | .next t => t
  | .fault _ => s
  | .refused _ => s

theorem exec_after (i : Instr) (s : State) : exec i s = .next (after i s) := by
  rcases exec_cases i s with ⟨-, e⟩ | ⟨-, -, -, e⟩ | ⟨-, -, -, e⟩ | ⟨w, -, -, e⟩ | ⟨w, -, -, e⟩ <;>
    simp only [after, e]

/-- Operator 0 of voice 0, if there is a voice 0. -/
def op00 (s : State) : Operator := (s.operator? 0 0).getD (.powerOn N32)

/-! ### Well-formedness -/

/-- 30_encoding.md R90, TV56: voice 8 of a pool of 8 does not exist; voice 7 does. -/
theorem test_wf_refuses_voice :
    Instr.wf 8 (.setalg 8 0) = false ∧ Instr.wf 8 (.setalg 7 0) = true ∧ Instr.wf 1 (.qactive 1) = false ∧
      Instr.wf 8 (.setenv 255 0 0 0 0 0) = false ∧ Instr.wf 1 (.noteon 127 127) = true := by decide

/-! ### Decoding: words written out from 30_encoding.md R84 and the decode vectors of 95_test_vectors.md -/

theorem test_decode_reset : decode 8 0x01000000#32 [0x44DC0000#32] = .ok (.reset 0x44DC0000#32) := by decide
theorem test_decode_setalg : decode 8 0x0207001F#32 [] = .ok (.setalg 7 31) := by decide
theorem test_decode_setratio : decode 8 0x10000100#32 [0x40000000#32] = .ok (.setratio 0 1 0x40000000#32) := by decide
theorem test_decode_setlevel : decode 8 0x11030500#32 [0x3F000000#32] = .ok (.setlevel 3 5 0x3F000000#32) := by decide
theorem test_decode_settune :
    decode 8 0x12000000#32 [0x41400000#32, 0x42C80000#32] = .ok (.settune 0 0 0x41400000#32 0x42C80000#32) := by
  decide
theorem test_decode_setenv :
    decode 8 0x13070500#32 [1#32, 2#32, 3#32, 4#32] = .ok (.setenv 7 5 1#32 2#32 3#32 4#32) := by decide
theorem test_decode_setmode :
    decode 8 0x14010501#32 [] = .ok (.setmode 1 5 .fm) ∧ decode 8 0x14010500#32 [] = .ok (.setmode 1 5 .pm) := by
  decide
theorem test_decode_setmidx : decode 8 0x15000200#32 [7#32] = .ok (.setmidx 0 2 7#32) := by decide
theorem test_decode_render : decode 8 0x20000000#32 [] = .ok .render := by decide
theorem test_decode_clrcache : decode 8 0x21000000#32 [] = .ok .clrcache := by decide
theorem test_decode_qactive : decode 8 0x30020000#32 [] = .ok (.qactive 2) := by decide
theorem test_decode_noteoff : decode 8 0x80004500#32 [] = .ok (.noteoff 69) := by decide
theorem test_decode_noteon : decode 8 0x9000457F#32 [] = .ok (.noteon 69 127) := by decide

/-- TV50 to TV66, and TV68's truncated SETENV. -/
theorem test_decode_refuses :
    decode 8 0x00000000#32 [] = .illegal .unknownOpcode 1 ∧ decode 8 0xFFFFFFFF#32 [] = .illegal .unknownOpcode 1 ∧
    decode 8 0x20000001#32 [] = .illegal .reservedField 1 ∧ decode 8 0x02000100#32 [] = .illegal .reservedField 1 ∧
    decode 8 0x02080000#32 [] = .illegal .voiceRange 1 ∧ decode 8 0x10000600#32 [0#32] = .illegal .operatorRange 2 ∧
    decode 8 0x14000002#32 [] = .illegal .modeRange 1 ∧ decode 8 0x80008000#32 [] = .illegal .noteRange 1 ∧
    decode 8 0x90004580#32 [] = .illegal .velocityRange 1 ∧ decode 8 0x13000000#32 [0#32] = .illegal .truncated 5 := by
  decide

/-- The host's two entries: the table's bits of SETENV 0, 0 with payloads of zeros. -/
theorem test_decodeTableWord :
    decodeTableWord 32 0x13000000 = some (.setenv 0 0 0#32 0#32 0#32 0#32) ∧ decodeTableWord 32 0x13000600 = none ∧
      decodeTableWord 32 0x9000457F = some (.noteon 69 127) := by decide

/-- R97: TICK, and SETALG.ALL for a pool of two. -/
theorem test_pseudo :
    Pseudo.expand 2 .tick = [.render, .clrcache] ∧ Pseudo.expand 2 (.setalgAll 5) = [.setalg 0 5, .setalg 1 5] := by
  decide

/-! ### One step of each command -/

/-- `RESET 1760` from power-on (R201), and a rate of -1 refused (TV47). -/
theorem test_reset :
    (after (.reset 0x44DC0000#32) (boot 1 [])).init = true ∧
      (after (.reset 0x44DC0000#32) (boot 1 [])).fs = N32.ofInt 1760 ∧
      (after (.reset 0xBF800000#32) (boot 1 [])).init = false ∧
      (after (.reset 0xBF800000#32) (boot 1 [])).fault = 0b0001#4 := by decide

/-- TV40: `SETALG 0, 2` with table `T`. -/
theorem test_setalg :
    ((after (.setalg 0 2) half).operator? 0 0).map Operator.mods = some [2] ∧
      ((after (.setalg 0 2) half).operator? 0 1).map Operator.carrier = some true ∧
      ((after (.setalg 0 2) half).operator? 0 2).map Operator.feedback = some true ∧
      ((after (.setalg 0 0) (after (.setalg 0 2) half)).operator? 0 0).map Operator.mods = some [] := by decide

/-- TV41: `SETALG 0, 32` keeps the routing and sets bit 2. -/
theorem test_setalg_index :
    (after (.setalg 0 32) half).fault = 0b0100#4 ∧ (after (.setalg 0 32) half).voices = half.voices := by decide

/-- TV39 (b): `SETRATIO ..., 2` on a held note 69 at `FS` 1760. -/
theorem test_setratio :
    (op00 (after (.setratio 0 0 0x40000000#32) half)).baseFreq = N32.ofInt 880 ∧
      (op00 (after (.setratio 0 0 0x40000000#32) half)).osc = ⟨N32.quarter, N32.half, N32.one⟩ := by decide

/-- TV39 (d): the level is stored, the amplitude is not. -/
theorem test_setlevel :
    (op00 (after (.setlevel 0 0 0x3F000000#32) half)).level = N32.half ∧
      (op00 (after (.setlevel 0 0 0x3F000000#32) half)).smoothAmp = N32.one := by decide

/-- TV39 (a): `SETTUNE 0, 0, 12, 0`; and 1 semitone 50 cents is 1.5. -/
theorem test_settune :
    (op00 (after (.settune 0 0 0x41400000#32 0#32) half)).tuning = N32.ofInt 12 ∧
      (op00 (after (.settune 0 0 0x41400000#32 0#32) half)).baseFreq = N32.ofInt 880 ∧
      (op00 (after (.settune 0 0 0x3F800000#32 0x42480000#32) half)).tuning = N32.ofBits 0x3FC00000#32 := by decide

/-- TV10: the rates at `FS` 8. -/
theorem test_setenv :
    let e := (op00 (after (.setenv 0 0 0x3F000000#32 0x3E800000#32 0x3F000000#32 0x3F800000#32)
      { half with fs := N32.ofInt 8 })).env
    e.attackRate = N32.quarter ∧ e.decayRate = N32.quarter ∧ e.relBaseRate = N32.ofBits 0x3E000000#32 ∧
      e.sustain = N32.half ∧ e.state = .sustain ∧ e.level = N32.one := by decide

/-- R153: FM is a plain write; PM restores the increment (TV33). -/
theorem test_setmode :
    (op00 (after (.setmode 0 0 .fm) half)).modType = .fm ∧ (op00 (after (.setmode 0 0 .fm) half)).osc = playOp.osc ∧
      (op00 (after (.setmode 0 0 .pm)
        { half with
          voices := [voiceOf (some 69) { playOp with osc := ⟨N32.zero, N32.half, N32.one⟩, modType := .fm }] })).osc =
        ⟨N32.zero, N32.quarter, N32.one⟩ := by decide

theorem test_setmidx : (op00 (after (.setmidx 0 0 0x40000000#32) half)).modIndex = N32.two := by decide

/-- TV30, second tick: phase 1/4 reads 1 and moves to 1/2; the free voice adds 0. -/
theorem test_render :
    (after .render half).out = N32.one ∧ (after .render half).outS = [N32.one] ∧
      (op00 (after .render half)).osc.phase = N32.half ∧ (op00 (after .render half)).lastSample = N32.half ∧
      (op00 (after .render half)).cached = true := by decide

/-- P4, `pc` 6: an unwired voice gives 0 and NoCarrier. -/
theorem test_render_no_carrier :
    (after .render unwired).fault = 0b1000#4 ∧ (after .render unwired).outS = [N32.zero] := by decide

theorem test_clrcache :
    (op00 (after .clrcache (after .render half))).cached = false ∧
      (op00 (after .clrcache (after .render half))).cachedSample = N32.one := by decide

/-- TV43. -/
theorem test_qactive :
    (after (.qactive 0) half).qout = true ∧ (after (.qactive 1) half).outQ = [(1, false)] := by decide

/-- P2's note-off at level 1/2, `FS` 8, release 1: `relStart` 1/2, `relRate` 1/16. -/
theorem test_noteoff :
    let s := { half with
      fs := N32.ofInt 8
      voices := [voiceOf (some 69) { playOp with env := { playOp.env with level := N32.half, release := N32.one } }] }
    (op00 (after (.noteoff 69) s)).env.state = .release ∧ (op00 (after (.noteoff 69) s)).env.relStart = N32.half ∧
      (op00 (after (.noteoff 69) s)).env.relRate = N32.ofBits 0x3D800000#32 ∧
      (after (.noteoff 69) s).noteMap.get 69 = none := by decide

/-- P3, `pc` 16: the third note steals voice 0 and evicts note 57. -/
theorem test_noteon_steals :
    (after (.noteon 81 127) full).noteMap.get 57 = none ∧ (after (.noteon 81 127) full).noteMap.get 81 = some 0 ∧
      (after (.noteon 81 127) full).noteMap.get 69 = some 1 ∧
      (op00 (after (.noteon 81 127) full)).baseFreq = N32.ofInt 880 ∧
      (op00 (after (.noteon 81 127) full)).osc = ⟨N32.quarter, N32.half, N32.one⟩ := by decide +kernel

/-- A free voice is taken first, lowest index first (P3, `pc` 15); a mapped note retriggers its own voice. -/
theorem test_noteon_allocates :
    (after (.noteon 81 127) half).noteMap.get 81 = some 1 ∧ (after (.noteon 69 127) half).noteMap.get 69 = some 0 := by
  decide +kernel

/-- P4, `pc` 0: a RENDER before any RESET only faults, and the first fault is recorded. -/
theorem test_not_initialised :
    ∃ t, step (boot 1 [0x20000000#32]) = .next t ∧ t.fault = 0b0010#4 ∧ t.ffirst = 2 ∧ t.fword = 0x20000000#32 ∧
      t.pc = 1 := ⟨_, rfl, by decide, by decide, by decide, by decide⟩

/-- TV70 and 20_memory.md R64: bytes, and a trailing fragment that is a truncated program. -/
theorem test_bytes :
    wordsOfBytes [0x7F#8, 0x45#8, 0x00#8, 0x90#8, 0x21#8] = ([0x9000457F#32], [0x21#8]) ∧
      (fetch { boot 1 [] with progFrag := [0x21#8] }) = .illegal 1 := by decide

/-- TV26 and TV27: the quarter turns of the sine, whatever the open function is elsewhere. -/
theorem test_oscillator :
    Oscillator.next N32 ⟨N32.quarter, N32.quarter, N32.zero⟩ N32.zero =
      (N32.one, ⟨N32.half, N32.quarter, N32.zero⟩) ∧
      (Oscillator.next N32 ⟨N32.zero, N32.quarter, N32.zero⟩ (N32.ofBits 0xBFC90FDB#32)).1 = N32.ofInt (-1) := by decide

/-- The candidate table and the test table meet 43_algorithm.md R172; a cycle, a self-edge and an empty carrier list do
not. -/
theorem test_tables :
    AlgTable.dx7.admissible = true ∧ tableT.admissible = true ∧ AlgTable.oneCarrier.admissible = true ∧
      AlgDesc.admissible ⟨[(1, 2), (2, 1)], [1], none⟩ = false ∧ AlgDesc.admissible ⟨[(3, 3)], [1], none⟩ = false ∧
      AlgDesc.admissible ⟨[], [], none⟩ = false ∧ AlgDesc.admissible ⟨[], [7], none⟩ = false := by decide

/-- Whatever the open table is, the reset state's table is admissible. -/
theorem test_reset_config : State.reset.cfg.algTable.admissible = true := by
  show Config.algTable32.admissible = true
  unfold Config.algTable32
  split
  · assumption
  · decide

/-- The host's second entry: the word stands where the next step fetches, and the step runs it (RESET reads the
payload 0 and refuses it; every other command meets `INIT` false). -/
theorem test_withFetchWord :
    (∃ t, step (State.reset.withFetchWord 32 0x01000000) = .next t ∧ t.pc = 2 ∧ t.fault = 0b0001#4) ∧
    (∃ t, step (State.reset.withFetchWord 32 0x13000000) = .next t ∧ t.pc = 5 ∧ t.fault = 0b0010#4) ∧
    (∃ t, step (State.reset.withFetchWord 32 0x90000000) = .next t ∧ t.pc = 1 ∧ t.fword = 0x90000000#32) :=
  ⟨⟨_, rfl, by decide, by decide⟩, ⟨_, rfl, by decide, by decide⟩, ⟨_, rfl, by decide, by decide⟩⟩

/-! ### Witnesses: every obligation's hypotheses are met together -/

theorem ops_of_all {s : State} {p : Operator → Bool} (h : (s.voices.all fun v => v.op.toList.all p) = true) :
    ∀ v i o, s.operator? v i = some o → p o = true := by
  intro v i o ho
  obtain ⟨vc, hv, rfl⟩ := (State.operator?_eq_some s v i).1 ho
  have := List.all_eq_true.1 h vc (List.mem_of_getElem? hv)
  exact List.all_eq_true.1 this _ ((Six.mem_toList _ _).2 ⟨i, rfl⟩)

/-- The state `half` between two commands. -/
theorem witness_inv : half.Inv where
  pool := by decide
  pc := by decide
  map := by
    have h : ∀ n : Note, ∀ v ∈ half.noteMap.get n, (half.voice? v).map Voice.note = some (some n) := by decide
    intro n v hn
    have := h n v hn
    cases hv : half.voice? v with
    | none => simp [hv] at this
    | some vc => exact ⟨vc, rfl, by simpa [hv] using this⟩
  quiet := fun v i o ho => by
    simpa using ops_of_all (p := fun o => !o.inProgress) (by decide) v i o ho
  phase := fun _ v i o ho => by
    have h := ops_of_all (p := fun o => match o.osc.phase with | .b32 y => y.isPhase | .other _ => false)
      (by decide) v i o ho
    cases hx : o.osc.phase with
    | b32 y => exact ⟨y, rfl, fun _ => by simpa [hx] using h⟩
    | other k => simp [hx] at h
  faults := by decide

theorem witness_InvariantHoldsAtPowerOn : (0 < 1 ∧ 1 ≤ 256) ∧ (0 < 256 ∧ 256 ≤ 256) := by decide

theorem witness_InvariantKeptByEveryStep :
    (half.load [0x20000000#32]).Inv ∧ ∃ t, step (half.load [0x20000000#32]) = .next t :=
  ⟨⟨witness_inv.pool, by decide, witness_inv.map, witness_inv.quiet, witness_inv.phase, witness_inv.faults⟩, _, rfl⟩

theorem witness_StepRunsTheDecodedCommand :
    (half.load [0x30010000#32, 0#32]).prog.drop (half.load [0x30010000#32, 0#32]).pc = [0x30010000#32, 0#32] ∧
      decode half.numVoices 0x30010000#32 [0#32] = .ok (.qactive 1) := by decide

theorem witness_EncodedCommandRuns :
    [7#32, 0x80004500#32, 9#32] = [7#32] ++ encode (.noteoff 69) ++ [9#32] ∧
      Instr.wf half.numVoices (.noteoff 69) = true := by decide

theorem witness_DecodeInvertsEncode :
    Instr.wf 1 (.setenv 0 5 1 2 3 4) = true ∧ Instr.wf 256 (.setalg 255 255) = true ∧
      Instr.wf 1 (.noteon 127 127) = true := by decide

theorem witness_EncodeInvertsDecode :
    decode 8 0x12070500#32 [1#32, 2#32, 3#32] = .ok (.settune 7 5 1 2) := by decide

theorem witness_OpcodeMapIsUnambiguous :
    decode 8 0x9000457F#32 [] = .ok (.noteon 69 127) ∧
      0x9000457F#32 &&& Opcode.noteon.maskWord = Opcode.noteon.matchWord := by decide

/-- One header for each clause, at the least refused value (TV53 to TV66); and SETALG's index 255. -/
theorem witness_ReservedAndOutOfRangeHeadersAreIllegal :
    (Opcode.ofCode (Word.opField 0x21010000#32) = some .clrcache ∧ Opcode.clrcache.usesA = false) ∧
    (Opcode.ofCode (Word.opField 0x02000100#32) = some .setalg ∧ Opcode.setalg.usesB = false) ∧
    (Opcode.ofCode (Word.opField 0x80004501#32) = some .noteoff ∧ Opcode.noteoff.usesC = false) ∧
    (Opcode.ofCode (Word.opField 0x02080000#32) = some .setalg ∧ 8 ≤ (Word.aField 0x02080000#32).toNat) ∧
    (Opcode.setratio.format = .o ∧ 6 ≤ (Word.bField 0x10000600#32).toNat) ∧
    (Opcode.ofCode (Word.opField 0x14000002#32) = some .setmode ∧ 2 ≤ (Word.cField 0x14000002#32).toNat) ∧
    (Opcode.ofCode (Word.opField 0x80008000#32) = some .noteoff ∧ 128 ≤ (Word.bField 0x80008000#32).toNat) ∧
    (Opcode.ofCode (Word.opField 0x90004580#32) = some .noteon ∧ 128 ≤ (Word.cField 0x90004580#32).toNat) ∧
    ((Word.bField 0x020700FF#32) = 0#8 ∧ (Word.aField 0x020700FF#32).toNat < 8) := by decide

theorem witness_UnknownOpcodeSkipsOneWord :
    (boot 1 [0x91000000#32]).prog.drop 0 = [0x91000000#32] ∧
      (∀ op ∈ Opcode.all, op.code ≠ Word.opField 0x91000000#32) := by decide

/-- A SETENV with three of its four payload words, and a SETRATIO with a bad operator whose payload is there (TV68,
TV57). -/
theorem witness_IllegalCommandIsSkippedWhole :
    ((boot 1 [0x13000000#32, 1#32, 2#32, 3#32]).prog.drop 0 = [0x13000000#32, 1#32, 2#32, 3#32] ∧
      (boot 1 [0x13000000#32, 1#32, 2#32, 3#32]).progFrag = [] ∧
      Opcode.setenv.code = Word.opField 0x13000000#32 ∧ [1#32, 2#32, 3#32].length + 1 < Opcode.setenv.length) ∧
    (Opcode.setratio.code = Word.opField 0x10000600#32 ∧ Opcode.setratio.length ≤ [0#32].length + 1 ∧
      decode 1 0x10000600#32 [0#32] = .illegal .operatorRange 2) := by decide

/-- A stream of one SETENV with three payload words and three bytes of the fourth: at the header, at the fragment, and
past it (20_memory.md R64). -/
def cutSetenv (pc : Nat) : State :=
  { boot 1 [0x13000000#32, 1#32, 2#32, 3#32] with progFrag := [4#8, 0#8, 0#8], pc := pc }

theorem witness_FragmentIsATruncatedCommand :
    (cutSetenv 0).progFrag ≠ [] ∧ (cutSetenv 4).pc = (cutSetenv 4).prog.length ∧
      (cutSetenv 0).prog.drop (cutSetenv 0).pc = [0x13000000#32, 1#32, 2#32, 3#32] ∧
      Opcode.setenv.code = Word.opField 0x13000000#32 ∧ [1#32, 2#32, 3#32].length + 1 < Opcode.setenv.length ∧
      (cutSetenv 5).pc = (cutSetenv 5).prog.length + 1 := by decide

theorem witness_BytesCarryWordsLittleEndian : ([] : List Byte).length < 4 ∧ [1#8, 2#8, 3#8].length < 4 := by decide

theorem witness_EveryProgramRunsToItsEnd :
    (boot 1 [0#32]).pc ≤ (boot 1 [0#32]).progLen ∧ (boot 1 []).pc = (boot 1 []).progLen := by decide

theorem witness_RaiseRecordsTheFirstFault :
    (boot 1 [0#32]).ffirst = 0 ∧ (boot 1 [0#32]).prog[(boot 1 [0#32]).pc]? = some 0#32 ∧
      ((boot 1 [0#32]).raise .illegal).ffirst ≠ 0 := by decide

theorem witness_FaultsAreSticky :
    (∃ t, step ((boot 1 [0#32]).raise .noCarrier) = .next t) ∧
      ((boot 1 [0#32]).raise .noCarrier).faultBit .noCarrier = true ∧
      ((boot 1 [0#32]).raise .noCarrier).ffirst ≠ 0 := ⟨⟨_, rfl⟩, by decide, by decide⟩

theorem witness_UninitialisedCommandOnlyFaults :
    (∀ fs, Instr.render ≠ .reset fs) ∧ Instr.wf (boot 1 []).numVoices .render = true ∧ (boot 1 []).init = false :=
  ⟨nofun, by decide, by decide⟩

/-- Every register changes under its own command. -/
theorem witness_RegistersHaveTheirWriters :
    (after (.reset 0x41000000#32) (boot 1 [])).fs ≠ (boot 1 []).fs ∧
    (after (.reset 0x41000000#32) (boot 1 [])).init ≠ (boot 1 []).init ∧
    (after .render half).outS ≠ half.outS ∧ (after (.qactive 0) half).qout ≠ half.qout ∧
    (after (.noteoff 69) half).noteMap ≠ half.noteMap ∧
    (op00 (after (.setratio 0 0 0x40000000#32) half)).ratio ≠ (op00 half).ratio ∧
    (op00 (after (.setlevel 0 0 0#32) half)).level ≠ (op00 half).level ∧
    (op00 (after (.settune 0 0 0x40000000#32 0#32) half)).tuning ≠ (op00 half).tuning ∧
    (op00 (after (.setmode 0 0 .fm) half)).modType ≠ (op00 half).modType ∧
    (op00 (after (.setmidx 0 0 0#32) half)).modIndex ≠ (op00 half).modIndex ∧
    (op00 (after (.setenv 0 0 0x3F800000#32 0#32 0#32 0#32) half)).env.attack ≠ (op00 half).env.attack ∧
    (op00 (after (.setalg 0 1) half)).mods ≠ (op00 half).mods := by decide

/-- Every cause of a change of the fault registers: a voice that is not there, no RESET yet, a refused rate, an
algorithm index of 32, a voice without a carrier. -/
theorem witness_RegistersHaveTheirWriters_faults :
    (after (.qactive 2) half).fault ≠ half.fault ∧ (after .render (boot 1 [])).ffirst ≠ (boot 1 []).ffirst ∧
    (after .render { boot 1 [0#32, 0x20000000#32] with pc := 1 }).fpc ≠ (boot 1 []).fpc ∧
    (after .render { boot 1 [0#32, 0x20000000#32] with pc := 1 }).fword ≠ (boot 1 []).fword ∧
    (after (.reset 0#32) half).fault ≠ half.fault ∧ (after (.setalg 0 32) half).fault ≠ half.fault ∧
    (after .render unwired).fault ≠ unwired.fault := by decide

/-- `playOp` in Decay and in FM, every dynamic field at a value that RESET, a note command or RENDER changes. -/
def busyOp : Operator :=
  { playOp with
    modType := .fm, lastSample := N32.half, cachedSample := N32.half, smoothAmp := N32.half
    osc := ⟨N32.quarter, N32.zero, N32.half⟩, baseFreq := N32.one
    env := { playOp.env with state := .decay, level := N32.one, decayRate := N32.quarter, sustain := N32.quarter } }

/-- A held note 69 on `busyOp`; the configuration rearms a running release. -/
def busy : State :=
  { ready [voiceOf (some 69) busyOp] [(69, 0)] with cfg := ⟨.binary32, N32.one, tableT, true⟩ }

/-- Every dynamic field changes under the commands its clause names. -/
theorem witness_DynamicStateHasItsWriters :
    ((after (.reset 0x41000000#32) busy).voice? 0).map Voice.note ≠ (busy.voice? 0).map Voice.note ∧
    (op00 (after (.reset 0x41000000#32) busy)).note ≠ (op00 busy).note ∧
    (op00 (after (.noteon 69 1) busy)).osc.amplitude ≠ (op00 busy).osc.amplitude ∧
    (op00 (after (.setratio 0 0 0x40000000#32) busy)).baseFreq ≠ (op00 busy).baseFreq ∧
    (op00 (after (.setratio 0 0 0x40000000#32) busy)).osc.inc ≠ (op00 busy).osc.inc ∧
    (op00 (after (.setmode 0 0 .pm) busy)).osc.inc ≠ (op00 busy).osc.inc ∧
    (op00 (after .render busy)).osc.inc ≠ (op00 busy).osc.inc ∧
    (op00 (after (.setenv 0 0 0x40000000#32 0#32 0#32 0x40000000#32) busy)).env.relBaseRate ≠
      (op00 busy).env.relBaseRate ∧
    (op00 (after (.setenv 0 0 0x40000000#32 0#32 0#32 0x40000000#32) busy)).env.relRate ≠ (op00 busy).env.relRate ∧
    (op00 (after (.noteoff 69) busy)).env.state ≠ (op00 busy).env.state ∧
    (op00 (after (.noteoff 69) busy)).env.relStart ≠ (op00 busy).env.relStart ∧
    (op00 (after .render busy)).env.level ≠ (op00 busy).env.level ∧
    (op00 (after .render busy)).smoothAmp ≠ (op00 busy).smoothAmp ∧
    (op00 (after (.noteon 69 1) busy)).lastSample ≠ (op00 busy).lastSample ∧
    (op00 (after .render busy)).cached ≠ (op00 busy).cached ∧
    (op00 (after .clrcache (after .render busy))).cached ≠ (op00 (after .render busy)).cached ∧
    (op00 (after (.reset 0x41000000#32) (ready [voiceOf none { busyOp with inProgress := true }] []))).inProgress ≠
      true := by decide

theorem witness_ConfigurationAndStreamAreConstant : ∃ t, step (half.load [0x20000000#32]) = .next t := ⟨_, rfl⟩

/-- Two states that agree on voice 1 and differ on voice 0; for the note commands they agree on the map and on which
voices are active too. -/
theorem witness_VoicesDoNotInterfere :
    Instr.voice? (.setalg 1 0) = some 1 ∧ (Instr.noteon 0 0).opcode ∈ [Opcode.noteon, .noteoff] ∧
      Instr.render.opcode ∉ [Opcode.noteon, .noteoff] ∧
      (ready [voiceOf none restOp, voiceOf none restOp] []).voice? 1 = half.voice? 1 ∧
      (ready [voiceOf (some 69) busyOp, voiceOf none restOp] []).init = half.init ∧
      (ready [voiceOf (some 69) busyOp, voiceOf none restOp] []).fs = half.fs ∧
      (ready [voiceOf (some 69) busyOp, voiceOf none restOp] []).cfg = half.cfg ∧
      (ready [voiceOf (some 69) busyOp, voiceOf none restOp] []).voice? 1 = half.voice? 1 ∧
      (ready [voiceOf (some 69) busyOp, voiceOf none restOp] []).voice? 0 ≠ half.voice? 0 ∧
      (ready [voiceOf (some 69) busyOp, voiceOf none restOp] []).noteMap.get 0 = half.noteMap.get 0 ∧
      (ready [voiceOf (some 69) busyOp, voiceOf none restOp] []).numVoices = half.numVoices ∧
      ∀ u < 3, (ready [voiceOf (some 69) busyOp, voiceOf none restOp] []).voiceActive u = half.voiceActive u := by
  decide

/-- No third voice is active in either. -/
theorem witness_VoicesDoNotInterfere_active (s : State) (h : s.numVoices ≤ 3) (u : Nat) (hu : 3 ≤ u) :
    s.voiceActive u = false := by
  have : s.voice? u = none := List.getElem?_eq_none (h.trans hu)
  simp [State.voiceActive, this]

/-- The witness of SetratioRetunesTheOperator, SettuneRetunesTheOperator, SetlevelAndSetmidxArePlainWrites,
SetenvRecomputesTheRates and SetmodeSwitchesModulation: an operator with a note and one without. -/
theorem witness_parameter_commands :
    half.init = true ∧ half.operator? 0 0 = some playOp ∧ playOp.note = some 69 ∧
      half.operator? 1 5 = some (.powerOn N32) ∧ (Operator.powerOn N32).note = none := by decide

theorem witness_SetalgRewiresOneVoice :
    half.init = true ∧ half.voice? 1 = some (voiceOf none restOp) ∧ (31 : AlgIx).val < 32 ∧ 32 ≤ (32 : AlgIx).val := by
  decide

theorem witness_AdmissibleTablesGiveACarrier :
    half.init = true ∧ half.hasVoice 1 = true ∧ (31 : AlgIx).val < 32 ∧ half.cfg.algTable.admissible = true := by
  decide

/-- TV47: the least subnormal is a legal rate, +0 is not. -/
theorem witness_ResetClearsTheDynamicState :
    N32.isFinite (N32.ofBits 1#32) = true ∧ N32.gt (N32.ofBits 1#32) N32.zero = true ∧
      N32.gt (N32.ofBits 0#32) N32.zero = false ∧ half.operator? 0 0 = some playOp := by decide

/-- A mapped note; an unmapped one with a free voice; an unmapped one with none. -/
theorem witness_NoteonAllocatesAndStarts :
    half.init = true ∧ full.init = true ∧ (1 : Velocity).val ≠ 0 ∧ 0 < half.numVoices ∧ 0 < full.numVoices ∧
      half.noteMap.get 69 = some 0 ∧ half.noteMap.get 0 = none ∧ half.voiceActive 1 = false ∧
      full.noteMap.get 127 = none ∧ full.voiceActive 0 = true ∧ full.voiceActive 1 = true := by decide

/-- Unmapped; mapped with an idle envelope, one that has a release time, one that has none. -/
theorem witness_NoteoffReleasesTheMappedVoice :
    half.noteMap.get 0 = none ∧ half.noteMap.get 69 = some 0 ∧ (Operator.powerOn N32).env.state = .idle ∧
      playOp.env.state ≠ .idle ∧ N32.gt playOp.env.release N32.zero = false ∧
      N32.gt ({ playOp.env with release := N32.one } : Envelope).release N32.zero = true := by decide

/-- Every voice wired; one that is not. -/
theorem witness_RenderMixesTheVoices :
    half.init = true ∧ unwired.init = true ∧ (∀ vc ∈ half.voices, ∃ i, (vc.op.get i).carrier = true) ∧
      (∃ vc ∈ unwired.voices, ∀ i, (vc.op.get i).carrier = false) := by decide

/-- A voice in which operator 1 modulates the carrier 0, operator 2 modulates operator 1, and the rest is not reached.
-/
def chain (cached1 : Bool) : Voice :=
  { voiceOf (some 69) { playOp with mods := [1] } with
    op := (voiceOf (some 69) { playOp with mods := [1] }).op.set 1
      { Operator.powerOn N32 with mods := [2], cached := cached1 } }

/-- The carrier reaches operators 1 and 2, and not operator 3; with operator 1 cached on entry, only itself. -/
theorem chain_reaches (b : Bool) :
    ReachesOpen (chain b).op 0 0 ∧ (b = false → ReachesOpen (chain b).op 0 2) ∧ Reaches (chain b).op 0 2 ∧
      ¬Reaches (chain b).op 0 3 ∧ (b = true → ¬ReachesOpen (chain b).op 0 1) := by
  have hm : ((chain b).op.get 0).mods = [1] ∧ ((chain b).op.get 1).mods = [2] ∧ ((chain b).op.get 2).mods = [] := by
    cases b <;> decide
  have hc : ((chain b).op.get 0).cached = false ∧ ((chain b).op.get 2).cached = false ∧
      ((chain b).op.get 1).cached = b := by cases b <;> decide
  refine ⟨.refl hc.1, ?_, ?_, ?_, ?_⟩
  · rintro rfl
    exact .edge (k := 1) hc.1 (by rw [hm.1]; decide) (.edge (k := 2) hc.2.2 (by rw [hm.2.1]; decide) (.refl hc.2.1))
  · exact .edge (k := 1) (by rw [hm.1]; decide) (.edge (k := 2) (by rw [hm.2.1]; decide) (.refl 2))
  · have h2 : ¬Reaches (chain b).op 2 3 := by
      intro h; cases h with | edge hk _ => rw [hm.2.2] at hk; cases hk
    have h1 : ¬Reaches (chain b).op 1 3 := by
      intro h
      cases h with
      | edge hk hr => rw [hm.2.1] at hk; obtain rfl := List.mem_singleton.1 hk; exact h2 hr
    intro h
    cases h with
    | edge hk hr => rw [hm.1] at hk; obtain rfl := List.mem_singleton.1 hk; exact h1 hr
  · rintro rfl h
    cases h with
    | edge _ hk hr =>
      rw [hm.1] at hk
      obtain rfl := List.mem_singleton.1 hk
      cases hr with
      | refl h => rw [hc.2.2] at h; cases h
      | edge h _ _ => rw [hc.2.2] at h; cases h

/-- The carrier of `chain` reaches operator 2 or not, and never operator 3; nothing is in progress. -/
theorem witness_RenderAdvancesEachReachedOperatorOnce (b : Bool) :
    (ready [chain b] []).init = true ∧ (∀ v i o, (ready [chain b] []).operator? v i = some o → o.inProgress = false) ∧
      (ready [chain b] []).voice? 0 = some (chain b) ∧ ((chain b).op.get 0).carrier = true ∧
      ∀ i, ((chain b).op.get i).carrier = true → i = 0 := by
  refine ⟨rfl, fun v i o ho => ?_, rfl, by cases b <;> decide, by cases b <;> decide⟩
  simpa using ops_of_all (p := fun o => !o.inProgress) (by cases b <;> decide) v i o ho

theorem witness_ClrcacheForgetsTheTick : half.init = true ∧ half.voice? 0 = some (voiceOf (some 69) playOp) := by decide

/-- The last voice of the default pool; there is no ninth. -/
theorem witness_PowerOnValues :
    7 < Config.defaultVoices ∧ State.reset.operator? 7 5 = some (.powerOn N32) ∧ State.reset.operator? 8 0 = none := by
  decide

theorem witness_OpenFunctionsKeepTheirNamedProperties : N32.isFinite N32.quarter = true := by decide

theorem witness_QactiveAnswersAndChangesNothingElse :
    half.init = true ∧ half.voice? 1 = some (voiceOf none restOp) := by decide

theorem witness_RenderWithoutClrcacheRepeats :
    half.init = true ∧ (∀ v i o, half.operator? v i = some o → o.inProgress = false) ∧
      exec .render half = .next (after .render half) :=
  ⟨rfl, witness_inv.quiet, exec_after _ _⟩

/-- A pool of two wired voices after RESET. -/
def rest : State := ready [voiceOf none restOp, voiceOf none restOp] []

theorem rest_wired : ∀ vc ∈ rest.voices, vc.carriers ≠ [] := by decide

theorem rest_ops : ∀ v i o, rest.operator? v i = some o → o = restOp ∨ o = .powerOn N32 := by
  have hf : ∀ v i o, rest.operator? v i = some o → decide (o = restOp ∨ o = .powerOn N32) = true :=
    ops_of_all (by decide)
  exact fun v i o ho => of_decide_eq_true (hf v i o ho)

theorem rest_quiet : ∀ v i o, rest.operator? v i = some o → o.Silent N32 := by
  intro v i o ho
  rcases rest_ops v i o ho with rfl | rfl <;> constructor <;> decide

theorem rest_silent : rest.Silent :=
  ⟨rfl, by decide, by decide, rest_wired, rest_quiet⟩

theorem witness_SilenceUntilTheFirstNote :
    rest.Silent ∧ rest.cfg.admissible = true ∧ (∀ vc ∈ rest.voices, vc.carriers ≠ []) ∧
      (∀ v i o, rest.operator? v i = some o → N32.isFinite o.level = true ∧ N32.isFinite o.modIndex = true) :=
  ⟨rest_silent, by decide, rest_wired, fun v i o ho =>
    ⟨(rest_quiet v i o ho).level, (rest_quiet v i o ho).modIndex⟩⟩

theorem witness_SilenceUntilTheFirstNote_payload :
    (∀ w ∈ Instr.render.payload, N32.isFinite (N32.ofBits w) = true) ∧
      (∀ w ∈ Instr.payload (.setlevel 0 0 0x7F7FFFFF#32), N32.isFinite (N32.ofBits w) = true) := by
  constructor <;> simp only [Instr.payload, List.mem_singleton, List.not_mem_nil, forall_eq, false_implies,
    implies_true]
  decide

/-- An envelope in a state, with the sustain level 0.5. -/
def envIn (st : EnvState) (level attackRate decayRate relRate : Num32) : Envelope :=
  { Envelope.powerOn N32 with
    state := st, level := .b32 level, sustain := N32.half
    attackRate := .b32 attackRate, decayRate := .b32 decayRate, relRate := .b32 relRate }

/-- The witness of EnvelopeTransitions and EnvelopeFunctionsFollowTheirRules: an envelope in each state and on each side
of each condition. -/
theorem witness_envelope_steps :
    N32.ge (N32.add (envIn .attack .half .half .zero .zero).level N32.half) N32.one = true ∧
    N32.ge (N32.add (envIn .attack .half .quarter .zero .zero).level N32.quarter) N32.one = false ∧
    N32.le (N32.sub (envIn .decay .threeQuarters .zero .quarter .zero).level N32.quarter) N32.half = true ∧
    N32.le (N32.sub (envIn .decay .one .zero .quarter .zero).level N32.quarter) N32.half = false ∧
    N32.le (N32.sub (envIn .release .quarter .zero .zero .quarter).level N32.quarter) N32.zero = true ∧
    N32.le (N32.sub (envIn .release .half .zero .zero .quarter).level N32.quarter) N32.zero = false ∧
    ((envIn .attack .half .half .zero .zero).next N32).state ≠ .attack ∧
    N32.gt ({ Envelope.powerOn N32 with attack := N32.one } : Envelope).attack N32.zero = true ∧
    N32.gt (Envelope.powerOn N32).attack N32.zero = false ∧ N32.gt (Envelope.powerOn N32).decay N32.zero = false ∧
    N32.gt ({ Envelope.powerOn N32 with decay := N32.one } : Envelope).decay N32.zero = true := by decide

/-- The witness of EnvelopeLevelStaysInRange and EnvelopeIsMonotone: levels 0 and 1, the ends of the range, rates 0 and
infinity (40_envelope.md, a tiny time). -/
theorem witness_envelope_range :
    N32.inUnit N32.zero = true ∧ N32.inUnit N32.one = true ∧ N32.inUnit N32.half = true ∧
      N32.le N32.zero (.b32 (.inf false)) = true ∧ N32.le N32.zero N32.zero = true ∧
      N32.le N32.half N32.one = true := by decide

/-- 40_envelope.md R114 and R115 in binary32, log entry 19: with a release of 5 s at `FS` 48000 and a release rate
that is 69.9 units in the last place of a level just below 1, one step lowers the level by 70 units. -/
theorem test_release_step_rounds :
    N32.div N32.one (N32.mul (N32.ofInt 5) (N32.ofInt 48000)) = N32.ofBits 0x368BCF65#32 ∧
      ((envIn .release (.ofBits 0x3F7FFFFF#32) .zero .zero (.ofBits 0x368BCF65#32)).next N32).level =
        N32.ofBits 0x3F7FFFB9#32 := by decide

theorem witness_NumbersTravelAsTheirBits :
    Num32.isNanWord 0x7F800000#32 = false ∧ Num32.isNanWord 0x7F800001#32 = true ∧
      N32.ofBits 0xFFFFFFFF#32 = .b32 .nan := by decide

/-- 0.25 is its own fraction; the least negative number rounds to 1 and gives 0 (00_scope.md R13). -/
theorem witness_WrapLandsInTheUnitInterval :
    N32.isFinite N32.quarter = true ∧ N32.eq (N32.sub N32.quarter (N32.floor N32.quarter)) N32.one = false ∧
      N32.isFinite (N32.ofBits 0x80000001#32) = true ∧
      N32.eq (N32.sub (N32.ofBits 0x80000001#32) (N32.floor (N32.ofBits 0x80000001#32))) N32.one = true := by decide

theorem witness_PhaseOffsetMovesTheReadOnly :
    N32.isFinite (N32.add playOp.osc.phase playOp.osc.inc) = true ∧
      N32.isFinite (N32.add playOp.osc.phase (N32.div N32.zero N32.twoPi)) = true := by decide

theorem witness_PitchFormula : playOp.ratio = N32.one ∧ playOp.tuning = N32.zero := by decide

/-- An open operator in each mode, a cached one, one in progress. -/
theorem witness_EvaluationFollowsTheRule :
    playOp.cached = false ∧ playOp.inProgress = false ∧ playOp.modType = .pm ∧
      ({ playOp with modType := .fm } : Operator).modType = .fm ∧
      ({ playOp with cached := true } : Operator).cached = true ∧
      ({ playOp with inProgress := true } : Operator).inProgress = true := by decide

theorem witness_EvaluatorIsCoherentInATick : ((voiceOf none playOp).op.get 0).inProgress = false := by decide

/-- `chain_reaches` gives the reached and the unreached operators; no operator is in progress. -/
theorem witness_OperatorsAdvanceAtMostOnce (b : Bool) : ∀ k, ((chain b).op.get k).inProgress = false := by
  cases b <;> decide

end Sys2Proof.Tests
end

/-! PROOFS. The numbers of 00_scope.md R11 to R13: the floor of a finite binary32 number is exact, so that `wrap01`
lands in [0,1); the constants of the default format; the named properties of `SIN2PI` and `EXP2`. -/

namespace Sys2Proof.Num32

/-! ### The floor -/

theorem onePow_pos : 0 < onePow := by decide

theorem onePow_eq : onePow = 2 ^ 149 := by decide

/-- The code of 2^23. -/
theorem magUnits_two_pow_23 : magUnits (150 * 2 ^ 23) = 2 ^ 23 * onePow := by decide

/-- A magnitude with a fraction is below 2^23: from there on the last place weighs 1 or more. -/
theorem magUnits_lt_of_fraction {m : Nat} (h : magUnits m % onePow ≠ 0) : magUnits m < 2 ^ 23 * onePow := by
  by_contra hge
  have hcode : magUnits (150 * 2 ^ 23) ≤ magUnits m := by
    rwa [magUnits_two_pow_23, ← not_lt]
  have hm := magUnits_le_iff.1 hcode
  have hdvd : onePow ∣ magUnits m := by
    rw [onePow_eq, magUnits, if_neg (by omega), Nat.shiftLeft_eq]
    exact (Nat.pow_dvd_pow 2 (by omega)).mul_left _
  exact h (Nat.mod_eq_zero_of_dvd hdvd)

/-- A whole number of at most 2^23 is a number of the format. -/
theorem exists_code_of_whole {n : Nat} (hn : n ≤ 2 ^ 23) :
    ∃ f : Fin 0x7F800000, magUnits f.val = n * onePow := by
  have hexact : magUnits (roundRatio (n * onePow) 1) = n * onePow := by
    rw [onePow_eq]; exact magUnits_roundRatio (by omega)
  have hle : magUnits (roundRatio (n * onePow) 1) ≤ magUnits (150 * 2 ^ 23) := by
    rw [hexact, magUnits_two_pow_23]
    exact Nat.mul_le_mul_right _ hn
  exact ⟨⟨_, (magUnits_le_iff.1 hle).trans_lt (by decide)⟩, hexact⟩

/-- The whole numbers next to a finite number are numbers of the format. -/
theorem exists_code_of_neighbour {m : Fin 0x7F800000} {n : Nat}
    (h : n = magUnits m.val / onePow ∨ (magUnits m.val % onePow ≠ 0 ∧ n = magUnits m.val / onePow + 1)) :
    ∃ f : Fin 0x7F800000, magUnits f.val = n * onePow := by
  by_cases hfrac : magUnits m.val % onePow = 0
  · obtain rfl | ⟨hne, -⟩ := h
    · exact ⟨m, (Nat.div_mul_cancel (Nat.dvd_of_mod_eq_zero hfrac)).symm⟩
    · exact absurd hfrac hne
  · have hlt := (Nat.div_lt_iff_lt_mul onePow_pos).2 (magUnits_lt_of_fraction hfrac)
    exact exists_code_of_whole (by omega)

/-- A number whose exact value is a whole one is its own rounding. -/
theorem ofMag_roundRatio_of_magUnits {s : Bool} {f : Fin 0x7F800000} {u : Nat} (h : magUnits f.val = u) :
    ofMag s (roundRatio u 1) = fin s f := by
  rw [← h, roundRatio_magUnits, ofMag, dif_pos f.isLt]

/-- The floor of a finite number is exact: the greatest multiple of 1 not above it (00_scope.md R13). -/
theorem floor_fin (s : Bool) (m : Fin 0x7F800000) :
    ∃ f, (fin s m).floor = fin s f ∧ signedUnits s f = signedUnits s m / onePow * onePow := by
  simp only [floor, Nat.shiftLeft_eq, ← onePow_eq]
  split_ifs with h
  · obtain ⟨rfl, hfrac⟩ := h
    obtain ⟨f, hf⟩ := exists_code_of_neighbour (.inr ⟨hfrac, rfl⟩)
    refine ⟨f, ofMag_roundRatio_of_magUnits hf, ?_⟩
    have hndvd : ¬ (onePow : Int) ∣ magUnits m.val := by
      rwa [Int.natCast_dvd_natCast, Nat.dvd_iff_mod_eq_zero]
    simp only [signedUnits, if_true, hf, Int.neg_ediv, if_neg hndvd, Int.sign_natCast_of_ne_zero onePow_pos.ne']
    push_cast
    ring
  · obtain ⟨f, hf⟩ := exists_code_of_neighbour (m := m) (.inl rfl)
    refine ⟨f, ofMag_roundRatio_of_magUnits hf, ?_⟩
    cases s with
    | false => simp [signedUnits, hf]
    | true =>
      have hdvd : (onePow : Int) ∣ magUnits m.val := by
        rw [Int.natCast_dvd_natCast, Nat.dvd_iff_mod_eq_zero]
        simpa using h
      simp only [signedUnits, if_true, hf, Int.neg_ediv, if_pos hdvd]
      push_cast
      ring

/-! ### The fraction -/

/-- A finite number less its floor is the rounding of its exact fraction. -/
theorem key_sub_floor (s : Bool) (m : Fin 0x7F800000) :
    ((fin s m).sub (fin s m).floor).key = some (roundKey (signedUnits s m % onePow)) := by
  obtain ⟨f, hfloor, hf⟩ := floor_fin s m
  rw [hfloor, sub_fin, key_add_fin, signedUnits_neg, hf, Int.emod_def, Int.mul_comm (onePow : Int), ← sub_eq_add_neg]

theorem roundKey_onePow : roundKey onePow = 0x3F800000 := by decide

/-- The fraction lies in [0,1) but for a rounding to 1 (00_scope.md R13). -/
theorem sub_floor_isPhase {a : Num32} (ha : a.isFinite = true) (hne : (a.sub a.floor).eq one = false) :
    (a.sub a.floor).isPhase = true := by
  cases a with
  | nan => cases ha
  | inf s => cases ha
  | fin s m =>
    have hkey := key_sub_floor s m
    have hpos : (0 : Int) < onePow := by exact_mod_cast onePow_pos
    have hlo := roundKey_mono (Int.emod_nonneg (signedUnits s m) hpos.ne')
    have hhi := roundKey_mono (Int.emod_lt_of_pos (signedUnits s m) hpos).le
    rw [roundKey_zero] at hlo
    rw [roundKey_onePow] at hhi
    have hne1 : roundKey (signedUnits s m % onePow) ≠ 0x3F800000 := fun h => by
      rw [eq_iff.2 ⟨_, hkey, by rw [h, key_one]⟩] at hne
      cases hne
    rw [isPhase, Bool.and_eq_true]
    exact ⟨le_iff.2 ⟨_, _, key_zero, hkey, hlo⟩, lt_iff.2 ⟨_, _, hkey, key_one, by omega⟩⟩

/-! ### Constants -/

/-- The whole constants of the format are the integers they name (00_scope.md R11). -/
theorem constants_eq_ofInt :
    zero = ofInt 0 ∧ one = ofInt 1 ∧ negOne = ofInt (-1) ∧ two = ofInt 2 ∧ twelve = ofInt 12 ∧ hundred = ofInt 100 ∧
      velFull = ofInt 127 ∧ a4Hz = ofInt 440 := by decide

/-- The quarters are quarters of whole numbers. -/
theorem quarters_mul :
    (ofInt 4).mul quarter = one ∧ (ofInt 2).mul half = one ∧ (ofInt 4).mul threeQuarters = ofInt 3 := by decide

/-- The words of the constants (00_scope.md R11). -/
theorem constants_eq_ofBits :
    zero = ofBits 0#32 ∧ one = ofBits 0x3F800000#32 ∧ quarter = ofBits 0x3E800000#32 ∧
      half = ofBits 0x3F000000#32 ∧ twoPi = ofBits 0x40C90FDB#32 := by decide

end Sys2Proof.Num32

namespace Sys2Proof.NumOps

/-! ### `wrap01` -/

theorem wrap01_of_ne_one {N : NumOps} {x : Number} (h : N.eq (N.sub x (N.floor x)) N.one = false) :
    N.wrap01 x = N.sub x (N.floor x) := if_neg (by simp [h])

theorem wrap01_of_eq_one {N : NumOps} {x : Number} (h : N.eq (N.sub x (N.floor x)) N.one = true) :
    N.wrap01 x = N.zero := if_pos h

/-- `wrap01` of a finite binary32 number is a phase (00_scope.md R13). -/
theorem binary32_wrap01_isPhase {x : Number} (h : binary32.isFinite x = true) :
    ∃ y : Num32, binary32.wrap01 x = .b32 y ∧ y.isPhase = true := by
  obtain ⟨a, rfl, ha⟩ := b32_of_isFinite h
  refine ⟨_, binary32_wrap01 a, ?_⟩
  cases hone : (a.sub a.floor).eq .one with
  | true => rw [if_pos rfl]; decide
  | false => rw [if_neg Bool.false_ne_true]; exact Num32.sub_floor_isPhase ha hone

/-! ### `SIN2PI` and `EXP2` -/

/-- `SIN2PI` of a finite binary32 operand is within [-1, 1], whatever the open function is (00_scope.md R12). -/
theorem binary32_sin2pi_range {p : Number} (h : binary32.isFinite p = true) :
    binary32.le binary32.negOne (binary32.sin2pi p) = true ∧ binary32.le (binary32.sin2pi p) binary32.one = true := by
  unfold sin2pi
  split_ifs with hzero hquarter hhalf hthree hout
  · decide
  · decide
  · decide
  · decide
  · decide
  · simpa [h] using hout

/-- `EXP2` in binary32 is above 0 at every operand, whatever the open function is (00_scope.md R12). -/
theorem binary32_exp2_pos (e : Number) : binary32.gt (binary32.exp2 e) binary32.zero = true := by
  unfold exp2
  split_ifs with hzero hone hneg hpos
  · decide
  · decide
  · decide
  · exact hpos
  · decide

theorem binary32_sin2pi_points :
    binary32.sin2pi binary32.zero = binary32.zero ∧ binary32.sin2pi binary32.quarter = binary32.one ∧
      binary32.sin2pi binary32.half = binary32.zero ∧
      binary32.sin2pi binary32.threeQuarters = binary32.negOne := by decide

theorem binary32_exp2_points :
    binary32.exp2 binary32.zero = binary32.one ∧ binary32.exp2 binary32.one = binary32.two ∧
      binary32.exp2 binary32.negOne = binary32.half := by decide

end Sys2Proof.NumOps

namespace Sys2Proof

/-- Settles O46: the floor of a finite number is exact, so the difference is the rounding of a fraction in [0,1), and
rounding keeps order. -/
theorem wrapLandsInTheUnitInterval : Obligations.WrapLandsInTheUnitInterval := by
  intro N x
  refine ⟨NumOps.wrap01_of_ne_one, NumOps.wrap01_of_eq_one, ?_⟩
  rintro rfl hfin
  exact NumOps.binary32_wrap01_isPhase hfin

/-- Settles O44, by the constants of `Num32`. -/
theorem defaultFormatIsBinary32 : Obligations.DefaultFormatIsBinary32 := by
  refine ⟨Machine.State.num_of_binary32 rfl, ?_⟩
  rintro N rfl
  simpa [and_assoc] using
    And.intro Num32.constants_eq_ofInt (And.intro Num32.quarters_mul Num32.constants_eq_ofBits)

/-- Settles O47, by the branches of `sin2pi` and `exp2`: each either is a named value or has passed the check of its
range. -/
theorem openFunctionsKeepTheirNamedProperties : Obligations.OpenFunctionsKeepTheirNamedProperties := by
  rintro N rfl
  obtain ⟨hs0, hs1, hs2, hs3⟩ := NumOps.binary32_sin2pi_points
  obtain ⟨he0, he1, heNeg⟩ := NumOps.binary32_exp2_points
  exact ⟨hs0, hs1, hs2, hs3, fun _ => NumOps.binary32_sin2pi_range, he0, he1, heNeg, NumOps.binary32_exp2_pos⟩

end Sys2Proof

/-! PROOFS. Who writes what (10_state.md): what a command leaves in the registers outside the pool, and which command
may have changed a given field of an operator. -/

namespace Sys2Proof.Machine

/-! ### The registers outside the pool -/

theorem voiceOk_eq_wf (i : Instr) (s : State) : voiceOk i s = i.wf s.numVoices := rfl

/-- A note-off touches the pool and the map. -/
theorem vhNoteOff_frame (n : Note) (s : State) :
    vhNoteOff n s = { s with voices := (vhNoteOff n s).voices, noteMap := (vhNoteOff n s).noteMap } := by
  unfold vhNoteOff
  split <;> rfl

/-- A note-on touches the pool and the map. -/
theorem vhNoteOn_frame (n : Note) (vel : Velocity) (s : State) :
    vhNoteOn n vel s = { s with voices := (vhNoteOn n vel s).voices, noteMap := (vhNoteOn n vel s).noteMap } := by
  unfold vhNoteOn
  split
  · rfl
  · split
    · rfl
    · split <;> rfl

theorem renderVoices_any_noCarrier (s : State) :
    (renderVoices s).any (·.noCarrier) = true ↔ ∃ vc ∈ s.voices, ∀ k, (vc.op.get k).carrier = false := by
  simp [renderVoices, Voice.render_noCarrier, Voice.carriers_eq_nil]

/-- What a command `i` at `s` may leave, before `pc` advances: one constructor per cause of a change outside the
pool. -/
inductive RegistersAfter (s : State) : Instr → State → Prop where
  | illFormed (i : Instr) : i.wf s.numVoices = false → RegistersAfter s i (s.raise .illegal)
  | notInitialised (i : Instr) : s.init = false → (∀ w, i ≠ .reset w) → RegistersAfter s i (s.raise .notInitialised)
  | refusedRate (w : Word) : legalRate s.num (s.num.ofBits w) = false →
      RegistersAfter s (.reset w) (s.raise .illegal)
  | reset (w : Word) : RegistersAfter s (.reset w) (resetAll (s.num.ofBits w) s)
  | pool (i : Instr) (vs : List Voice) : RegistersAfter s i { s with voices := vs }
  | algIndex (v : VoiceIx) (alg : AlgIx) : 32 ≤ alg.val → RegistersAfter s (.setalg v alg) (s.raise .algIndex)
  | render (vs : List Voice) (x : Number) :
      RegistersAfter s .render { s with voices := vs, out := x, outS := s.outS ++ [x] }
  | renderNoCarrier (vs : List Voice) (x : Number) :
      (∃ vc ∈ s.voices, ∀ k, (vc.op.get k).carrier = false) →
      RegistersAfter s .render { s.raise .noCarrier with voices := vs, out := x, outS := s.outS ++ [x] }
  | qactive (v : VoiceIx) (b : Bool) :
      RegistersAfter s (.qactive v) { s with qout := b, outQ := s.outQ ++ [(v, b)] }
  | noteoff (n : Note) (vs : List Voice) (m : NoteMap) :
      RegistersAfter s (.noteoff n) { s with voices := vs, noteMap := m }
  | noteon (n : Note) (vel : Velocity) (vs : List Voice) (m : NoteMap) :
      RegistersAfter s (.noteon n vel) { s with voices := vs, noteMap := m }

/-- What any command's own rule can do outside the pool. -/
theorem effect_registers (i : Instr) (s : State) : RegistersAfter s i (effect i s) := by
  cases i with
  | reset w => exact .pool _ s.voices
  | setalg v alg =>
    simp only [effect, setAlgorithm]
    split
    · exact .pool _ _
    · exact .algIndex v alg (by omega)
  | setmode v k m => cases m <;> exact .pool _ _
  | render =>
    simp only [effect]
    rw [renderAll_eq]
    split
    · exact .renderNoCarrier _ _ ((renderVoices_any_noCarrier s).1 ‹_›)
    · exact .render _ _
  | qactive v => exact .qactive v _
  | noteoff n =>
    simp only [effect]
    rw [vhNoteOff_frame]
    exact .noteoff n _ _
  | noteon n vel =>
    simp only [effect]
    split
    · rw [vhNoteOff_frame]
      exact .noteon n vel _ _
    · rw [vhNoteOn_frame]
      exact .noteon n vel _ _
  | setratio | setlevel | settune | setenv | setmidx | clrcache => exact .pool _ _

/-- What any command can do outside the pool. -/
theorem exec_registers {i : Instr} {s t : State} (h : exec i s = .next t) :
    ∃ r, RegistersAfter s i r ∧ t = r.advance i.length := by
  rcases exec_cases i s with ⟨hv, e⟩ | ⟨hr, -, hi, e⟩ | ⟨-, -, -, e⟩ | ⟨w, rfl, -, e⟩ | ⟨w, rfl, hw, e⟩ <;>
    obtain rfl := Host.Outcome.next.inj (h.symm.trans e)
  · exact ⟨_, .illFormed i ((voiceOk_eq_wf i s).symm.trans hv), rfl⟩
  · exact ⟨_, .notInitialised i hi hr, rfl⟩
  · exact ⟨_, effect_registers i s, rfl⟩
  · exact ⟨_, .reset w, rfl⟩
  · exact ⟨_, .refusedRate w hw, rfl⟩

namespace RegistersAfter

variable {i : Instr} {s r : State}

theorem pc_eq (h : RegistersAfter s i r) : r.pc = s.pc := by cases h <;> rfl

/-- The fault registers change where a fault of 60_exceptions.md R231 is raised. -/
theorem fault_cause (h : RegistersAfter s i r)
    (hne : r.fault ≠ s.fault ∨ r.ffirst ≠ s.ffirst ∨ r.fpc ≠ s.fpc ∨ r.fword ≠ s.fword) :
    i.wf s.numVoices = false ∨ (s.init = false ∧ ∀ w, i ≠ .reset w) ∨
      (∃ w, i = .reset w ∧ legalRate s.num (s.num.ofBits w) = false) ∨
      (∃ v alg, i = .setalg v alg ∧ 32 ≤ alg.val) ∨
      (i = .render ∧ ∃ vc ∈ s.voices, ∀ k, (vc.op.get k).carrier = false) := by
  cases h with
  | illFormed _ hwf => exact .inl hwf
  | notInitialised _ hi hr => exact .inr (.inl ⟨hi, hr⟩)
  | refusedRate w hw => exact .inr (.inr (.inl ⟨w, rfl, hw⟩))
  | algIndex v alg ha => exact .inr (.inr (.inr (.inl ⟨v, alg, rfl, ha⟩)))
  | renderNoCarrier _ _ hc => exact .inr (.inr (.inr (.inr ⟨rfl, hc⟩)))
  | reset | pool | render | qactive | noteoff | noteon => simp [resetAll] at hne

/-- `FS` and `INIT` are RESET's (10_state.md R40). -/
theorem fs_writer (h : RegistersAfter s i r) (hne : r.fs ≠ s.fs) : ∃ w, i = .reset w := by
  cases h with
  | reset w => exact ⟨w, rfl⟩
  | _ => exact absurd rfl hne

theorem init_writer (h : RegistersAfter s i r) (hne : r.init ≠ s.init) : r.init = true ∧ ∃ w, i = .reset w := by
  cases h with
  | reset w => exact ⟨rfl, w, rfl⟩
  | _ => exact absurd rfl hne

/-- `OUT` and its trace are RENDER's (10_state.md R41). -/
theorem out_writer (h : RegistersAfter s i r) (hne : r.out ≠ s.out ∨ r.outS ≠ s.outS) : i = .render := by
  cases h with
  | render | renderNoCarrier => rfl
  | _ => exact hne.elim (absurd rfl) (absurd rfl)

/-- `QOUT` and its trace are QACTIVE's (10_state.md R42). -/
theorem qout_writer (h : RegistersAfter s i r) (hne : r.qout ≠ s.qout ∨ r.outQ ≠ s.outQ) : ∃ v, i = .qactive v := by
  cases h with
  | qactive v => exact ⟨v, rfl⟩
  | _ => exact hne.elim (absurd rfl) (absurd rfl)

/-- `MAP` is RESET's and the note commands' (10_state.md R33). -/
theorem noteMap_writer (h : RegistersAfter s i r) (hne : r.noteMap ≠ s.noteMap) :
    (∃ w, i = .reset w) ∨ (∃ n, i = .noteoff n) ∨ ∃ n vel, i = .noteon n vel := by
  cases h with
  | reset w => exact .inl ⟨w, rfl⟩
  | noteoff n => exact .inr (.inl ⟨n, rfl⟩)
  | noteon n vel => exact .inr (.inr ⟨n, vel, rfl⟩)
  | _ => exact absurd rfl hne

end RegistersAfter

/-! ### The fields the units leave alone -/

namespace Envelope

variable (N : NumOps) (fs : Number) (e : Envelope)

@[simp] theorem next_keeps_setup :
    (e.next N).attack = e.attack ∧ (e.next N).decay = e.decay ∧ (e.next N).sustain = e.sustain ∧
      (e.next N).release = e.release ∧ (e.next N).attackRate = e.attackRate ∧ (e.next N).decayRate = e.decayRate ∧
      (e.next N).relBaseRate = e.relBaseRate ∧ (e.next N).relStart = e.relStart ∧ (e.next N).relRate = e.relRate := by
  rw [next_frame]
  simp

@[simp] theorem noteOn_keeps_setup :
    (e.noteOn N).attack = e.attack ∧ (e.noteOn N).decay = e.decay ∧ (e.noteOn N).sustain = e.sustain ∧
      (e.noteOn N).release = e.release ∧ (e.noteOn N).attackRate = e.attackRate ∧
      (e.noteOn N).decayRate = e.decayRate ∧ (e.noteOn N).relBaseRate = e.relBaseRate := by
  rw [noteOn_frame]
  simp

@[simp] theorem noteOff_keeps_setup :
    (e.noteOff N fs).attack = e.attack ∧ (e.noteOff N fs).decay = e.decay ∧ (e.noteOff N fs).sustain = e.sustain ∧
      (e.noteOff N fs).release = e.release ∧ (e.noteOff N fs).attackRate = e.attackRate ∧
      (e.noteOff N fs).decayRate = e.decayRate ∧ (e.noteOff N fs).relBaseRate = e.relBaseRate := by
  rw [noteOff_frame]
  simp

end Envelope

namespace Operator

variable (N : NumOps) (fs : Number) (o : Operator)

@[simp] theorem oscillate_amplitude (m : Number) : (o.oscillate N fs m).2.amplitude = o.osc.amplitude := by
  rw [oscillate_frame]

/-- In PM an evaluation leaves the increment alone (42_operator.md R146). -/
theorem oscillate_inc_of_pm (m : Number) (h : o.modType = .pm) : (o.oscillate N fs m).2.inc = o.osc.inc := by
  simp [oscillate, h, Oscillator.next, Oscillator.step]

/-- A retune writes the base frequency and the increment, and only where a note is set (42_operator.md R149). -/
theorem retune_eq : ∀ o : Operator, retune N fs o =
      { o with
        baseFreq := o.note.elim o.baseFreq (o.baseFreqOf N)
        osc := { o.osc with inc := o.note.elim o.osc.inc fun n => N.div (o.baseFreqOf N n) fs } }
  | { note := none, .. } => rfl
  | { note := some _, .. } => rfl

end Operator

/-! ### The writers of an operator's fields -/

namespace OperatorAfter

variable {s : State} {v : Nat} {k : OpIx} {o p : Operator} {i : Instr}

/-- Each parameter register has one writer, and routing has SETALG (10_state.md R21 to R23). -/
theorem parameter_writers (h : OperatorAfter s v k o i p) :
    (p.ratio ≠ o.ratio → ∃ u w, u.val = v ∧ i = .setratio u k w) ∧
    (p.level ≠ o.level → ∃ u w, u.val = v ∧ i = .setlevel u k w) ∧
    (p.tuning ≠ o.tuning → ∃ u c f, u.val = v ∧ i = .settune u k c f) ∧
    (p.modType ≠ o.modType → ∃ u m, u.val = v ∧ i = .setmode u k m) ∧
    (p.modIndex ≠ o.modIndex → ∃ u w, u.val = v ∧ i = .setmidx u k w) ∧
    (p.env.attack ≠ o.env.attack ∨ p.env.decay ≠ o.env.decay ∨ p.env.sustain ≠ o.env.sustain ∨
      p.env.release ≠ o.env.release → ∃ u a d x r, u.val = v ∧ i = .setenv u k a d x r) ∧
    (p.mods ≠ o.mods ∨ p.carrier ≠ o.carrier ∨ p.feedback ≠ o.feedback →
      ∃ u alg, u.val = v ∧ i = .setalg u alg) := by
  cases h with
  | same => simp
  | reset => simp [Operator.reset, Envelope.reset, Envelope.recompute]
  | setalg u alg mods carrier feedback hu => simp [hu]
  | setratio u w hu => simp [Operator.retune_eq, hu]
  | setlevel u w hu => simp [hu]
  | settune u c f hu => simp [Operator.retune_eq, hu]
  | setenv u a d x r hu => simp [setEnvelope, hu]
  | setmodePm u hu => simp [hu]
  | setmodeFm u hu => simp [hu]
  | setmidx u w hu => simp [hu]
  | render => simp [Operator.produce]
  | clrcache => simp [Operator.resetCache]
  | noteoff => simp [Operator.noteOff]
  | noteonZero => simp [Operator.noteOff]
  | noteon => simp [Operator.noteOn, Operator.pushBaseFreq]
  | noteonSteals => simp [Operator.noteOn, Operator.pushBaseFreq, Operator.noteOff]

/-- Each dynamic field has the writers of 10_state.md R24 to R30. -/
theorem dynamic_writers (h : OperatorAfter s v k o i p) :
    (p.note ≠ o.note ∨ p.osc.amplitude ≠ o.osc.amplitude → i.opcode ∈ [Opcode.reset, .noteon]) ∧
    (p.baseFreq ≠ o.baseFreq → i.opcode ∈ [Opcode.reset, .noteon] ∨
      (o.note ≠ none ∧ ∃ u, u.val = v ∧ ((∃ w, i = .setratio u k w) ∨ ∃ c f, i = .settune u k c f))) ∧
    (p.env.attackRate ≠ o.env.attackRate ∨ p.env.decayRate ≠ o.env.decayRate ∨
      p.env.relBaseRate ≠ o.env.relBaseRate → i.opcode = .reset ∨ ∃ u a d x r, u.val = v ∧ i = .setenv u k a d x r) ∧
    (p.env.state ≠ o.env.state ∨ p.env.level ≠ o.env.level →
      i.opcode ∈ [Opcode.reset, .noteon, .noteoff, .render]) ∧
    (p.env.relStart ≠ o.env.relStart → i.opcode ∈ [Opcode.reset, .noteon, .noteoff]) ∧
    (p.env.relRate ≠ o.env.relRate → i.opcode ∈ [Opcode.reset, .noteon, .noteoff] ∨
      (s.cfg.rearmsRelease = true ∧ ∃ u a d x r, u.val = v ∧ i = .setenv u k a d x r)) ∧
    (p.osc.phase ≠ o.osc.phase ∨ p.smoothAmp ≠ o.smoothAmp ∨ p.cachedSample ≠ o.cachedSample →
      i.opcode ∈ [Opcode.reset, .render]) ∧
    (p.osc.inc ≠ o.osc.inc → i.opcode ∈ [Opcode.reset, .noteon] ∨ (i = .render ∧ o.modType = .fm) ∨
      ∃ u, u.val = v ∧ (i = .setmode u k .pm ∨
        (o.note ≠ none ∧ ((∃ w, i = .setratio u k w) ∨ ∃ c f, i = .settune u k c f)))) ∧
    (p.lastSample ≠ o.lastSample → i.opcode ∈ [Opcode.reset, .noteon, .render]) ∧
    (p.cached ≠ o.cached → (p.cached = true ∧ i = .render) ∨
      (p.cached = false ∧ i.opcode ∈ [Opcode.reset, .noteon, .clrcache])) ∧
    (p.inProgress ≠ o.inProgress → i.opcode = .reset) := by
  cases h with
  | same => simp
  | reset => simp [Instr.opcode, Operator.reset]
  | setalg u alg mods carrier feedback hu => simp
  | setratio u w hu => cases o.note <;> simp [Operator.retune_eq, hu]
  | setlevel u w hu => simp
  | settune u c f hu => cases o.note <;> simp [Operator.retune_eq, hu]
  | setenv u a d x r hu =>
    cases hr : s.cfg.rearmsRelease <;>
      simp [setEnvelope, Envelope.setParameters, Envelope.recompute, hu]
  | setmodePm u hu => simp [Oscillator.setFrequency, hu]
  | setmodeFm u hu => simp
  | setmidx u w hu => simp
  | render m ho =>
    obtain ⟨hc, hp⟩ := o.isOpen_iff.1 ho
    cases hm : o.modType <;> simp [Instr.opcode, Operator.produce, hc, hp, Operator.oscillate_inc_of_pm, hm]
  | clrcache => simp [Instr.opcode, Operator.resetCache]
  | noteoff => simp [Instr.opcode, Operator.noteOff]
  | noteonZero => simp [Instr.opcode, Operator.noteOff]
  | noteon => simp [Instr.opcode, Operator.noteOn, Operator.pushBaseFreq, Oscillator.setFrequency]
  | noteonSteals =>
    simp [Instr.opcode, Operator.noteOn, Operator.pushBaseFreq, Oscillator.setFrequency, Operator.noteOff]

end OperatorAfter

end Sys2Proof.Machine

namespace Sys2Proof

open Machine

/-- Settles O19: outside the pool by the cases of `RegistersAfter`, in an operator by those of `OperatorAfter`. -/
theorem registersHaveTheirWriters : Obligations.RegistersHaveTheirWriters := by
  intro i s t h
  obtain ⟨r, hr, rfl⟩ := exec_registers h
  exact ⟨congrArg (· + i.length) hr.pc_eq, hr.fault_cause, hr.fs_writer, hr.init_writer, hr.out_writer,
    hr.qout_writer, hr.noteMap_writer, fun v k o p ho hp => (exec_operator h ho hp).parameter_writers⟩

/-- Settles O20: the voice's note by `exec_voice_note`, an operator's fields by the cases of `OperatorAfter`. -/
theorem dynamicStateHasItsWriters : Obligations.DynamicStateHasItsWriters := by
  intro i s t h
  refine ⟨fun v vc tc hv ht hne => ?_, fun v k o p ho hp => (exec_operator h ho hp).dynamic_writers⟩
  rcases exec_voice_note h hv ht with heq | ⟨w, rfl, -⟩ | ⟨n, vel, rfl, -⟩
  · exact absurd heq hne
  · simp [Instr.opcode]
  · simp [Instr.opcode]

end Sys2Proof

/-! PROOFS. The stream and the configuration (20_memory.md R64, R70): what no step changes, and what a step makes of a
trailing fragment. -/

namespace Sys2Proof.Machine

/-! ### What any step can do -/

/-- A step that answers `t` executed a command whose words lie in the stream, skipped an illegal one to a place in the
stream, or waited. -/
theorem step_next_cases {s t : State} (h : step s = .next t) :
    (∃ i : Instr, s.pc + i.length ≤ s.progLen ∧ exec i s = .next t) ∨
    (∃ pc, pc ≤ s.progLen ∧ t = rejectHeader s pc) ∨ t = s := by
  rcases step_cases s with ⟨_, _, i, -, -, hlen, e⟩ | ⟨pc, -, hpc, e⟩ | ⟨-, e⟩ <;> rw [h] at e
  · exact .inl ⟨i, hlen, e.symm⟩
  · exact .inr (.inl ⟨pc, hpc, Host.Outcome.next.inj e⟩)
  · exact .inr (.inr (Host.Outcome.next.inj e))

/-- No command changes the configuration, the stream or the size of the pool. -/
theorem exec_keeps_setup {i : Instr} {s t : State} (h : exec i s = .next t) :
    t.cfg = s.cfg ∧ t.prog = s.prog ∧ t.progFrag = s.progFrag ∧ t.numVoices = s.numVoices := by
  rcases exec_next_cases h with ⟨c, rfl⟩ | ⟨-, -, -, rfl⟩ | ⟨w, rfl, -, rfl⟩
  · exact ⟨rfl, rfl, rfl, rfl⟩
  · obtain ⟨⟨hcfg, hprog, hfrag, -, -, -, hnum⟩, -⟩ := effect_frame i s
    exact ⟨hcfg, hprog, hfrag, hnum⟩
  · exact ⟨rfl, rfl, rfl, List.length_map _⟩

theorem step_keeps_setup {s t : State} (h : step s = .next t) :
    t.cfg = s.cfg ∧ t.prog = s.prog ∧ t.progFrag = s.progFrag ∧ t.numVoices = s.numVoices := by
  rcases step_next_cases h with ⟨i, -, hi⟩ | ⟨pc, -, rfl⟩ | rfl
  · exact exec_keeps_setup hi
  · exact ⟨rfl, rfl, rfl, rfl⟩
  · exact ⟨rfl, rfl, rfl, rfl⟩

/-! ### The end of a stream with a fragment -/

/-- A fragment counts as one word of the stream (log entry 7). -/
theorem State.progLen_of_frag {s : State} (h : s.progFrag ≠ []) : s.progLen = s.prog.length + 1 := by
  simp [State.progLen, h]

/-- A known opcode whose payload the stream cuts off is truncated (30_encoding.md R92). -/
theorem decode_of_short {nv : Nat} {h : Word} {rest : List Word} {op : Opcode} (hop : op.code = h.opField)
    (hs : rest.length + 1 < op.length) : decode nv h rest = .illegal .truncated op.length := by
  have hpay : rest.length < op.payloads := by
    simp only [Opcode.length] at hs
    omega
  simp [decode, (ofCode_eq_some _ _).2 hop, hpay]

/-- A truncated command is skipped to the end of the stream. -/
theorem step_of_truncated {s : State} {h : Word} {rest : List Word} {len : Nat} (hd : s.prog.drop s.pc = h :: rest)
    (hx : decode s.numVoices h rest = .illegal .truncated len) : step s = .next (rejectHeader s s.progLen) := by
  simp [step, fetch, hd, hx]

/-- Behind the last whole word and before the end of the stream a step skips to the end. -/
theorem step_of_no_word {s : State} (hw : s.prog.length ≤ s.pc) (hlt : s.pc < s.progLen) :
    step s = .next (rejectHeader s s.progLen) := by
  simp [step, fetch, List.drop_eq_nil_of_le hw, hlt]

/-- At the end of the stream a step waits (70_reset_and_hazards.md R268). -/
theorem step_of_end {s : State} (h : s.progLen ≤ s.pc) : step s = .next s := by
  have hw : s.prog.length ≤ s.pc := (Nat.le_add_right ..).trans h
  simp [step, fetch, hold, List.drop_eq_nil_of_le hw, not_lt.2 h]

end Sys2Proof.Machine

namespace Sys2Proof

open Machine

/-- Settles O21, by the cases of a step and the frame of every command. -/
theorem configurationAndStreamAreConstant : Obligations.ConfigurationAndStreamAreConstant :=
  fun _ _ => step_keeps_setup

/-- Settles O13: at the fragment there is no whole word, a command it cuts off is truncated, and behind it is the
end. -/
theorem fragmentIsATruncatedCommand : Obligations.FragmentIsATruncatedCommand := by
  intro s hf
  have hlen := State.progLen_of_frag hf
  refine ⟨fun hpc => ?_, fun h rest op hd hop hs => ?_, fun hpc => step_of_end (by omega)⟩
  · rw [step_of_no_word (by omega) (by omega), hlen]
    rfl
  · rw [step_of_truncated hd (decode_of_short hop hs), hlen]
    rfl

end Sys2Proof

/-! PROOFS. The invariant of 20_memory.md R66: each of its clauses is kept by every command. -/

namespace Sys2Proof.NumOps

/-- What binary32 `wrap01` answers is a phase, or a NaN where the operand is not a finite number of the format. -/
theorem binary32_wrap01_isPhase32 (x : Number) : (binary32.wrap01 x).IsPhase32 := by
  cases hfin : binary32.isFinite x with
  | true =>
    obtain ⟨y, hy, hphase⟩ := binary32_wrap01_isPhase hfin
    exact ⟨y, hy, fun _ => hphase⟩
  | false =>
    refine ⟨.nan, ?_, fun h => absurd h (by decide)⟩
    cases x with
    | other k => rfl
    | b32 a =>
      cases a with
      | nan => rfl
      | inf s => cases s <;> rfl
      | fin s m => cases hfin

end Sys2Proof.NumOps

namespace Sys2Proof.Machine

/-! ### The pool keeps its size -/

theorem exists_voice?_of_numVoices_le {s t : State} (h : t.numVoices ≤ s.numVoices) {v : Nat} {tc : Voice}
    (ht : t.voice? v = some tc) : ∃ vc, s.voice? v = some vc := by
  obtain ⟨hlt, -⟩ := List.getElem?_eq_some_iff.1 ht
  exact ⟨_, List.getElem?_eq_getElem (hlt.trans_le h)⟩

theorem exists_operator?_of_numVoices_le {s t : State} (h : t.numVoices ≤ s.numVoices) {v : Nat} {k : OpIx}
    {p : Operator} (hp : t.operator? v k = some p) : ∃ o, s.operator? v k = some o := by
  obtain ⟨tc, ht, -⟩ := (State.operator?_eq_some _ _ _).1 hp
  obtain ⟨vc, hv⟩ := exists_voice?_of_numVoices_le h ht
  exact ⟨_, (State.operator?_eq_some _ _ _).2 ⟨vc, hv, rfl⟩⟩

/-! ### The operators: at rest, and a phase in [0,1) -/

/-- No command leaves an operator in progress (10_state.md R30). -/
theorem OperatorAfter.keeps_quiet {s : State} {v : Nat} {k : OpIx} {o p : Operator} {i : Instr}
    (h : OperatorAfter s v k o i p) (ho : o.inProgress = false) : p.inProgress = false := by
  cases h with
  | reset | render => rfl
  | setratio | settune => simpa [Operator.retune_eq] using ho
  | _ => exact ho

/-- An evaluation in binary32 leaves the phase `wrap01` of something (41_oscillator.md R131). -/
theorem Operator.produce_isPhase32 (o : Operator) {c : EvalEnv} (hc : c.num = .binary32) (m : Number) :
    (o.produce c m).osc.phase.IsPhase32 := by
  simp only [Operator.produce, Operator.oscillate, hc]
  cases o.modType <;> exact NumOps.binary32_wrap01_isPhase32 _

/-- In binary32 a command leaves a phase, writes 0 to it, or wraps it (10_state.md R27). -/
theorem OperatorAfter.keeps_phase {s : State} {v : Nat} {k : OpIx} {o p : Operator} {i : Instr}
    (h : OperatorAfter s v k o i p) (hb : s.num = .binary32) (ho : o.osc.phase.IsPhase32) :
    p.osc.phase.IsPhase32 := by
  cases h with
  | reset w =>
    simp only [Operator.reset, Oscillator.reset, hb]
    exact ⟨.zero, rfl, fun _ => by decide⟩
  | render m => exact o.produce_isPhase32 hb m
  | setratio | settune => simpa [Operator.retune_eq] using ho
  | _ => exact ho

/-! ### The fault registers -/

/-- A raise sets a sticky bit and leaves a cause recorded (60_exceptions.md R233). -/
theorem State.raise_faults (s : State) (c : Cause) : (s.raise c).fault ≠ 0#4 ∧ (s.raise c).ffirst ≠ 0 := by
  refine ⟨setFaultBit_ne_zero _ _, ?_⟩
  rw [State.raise_ffirst]
  split
  · exact c.code_ne_zero
  · assumption

theorem FaultsOf.keeps_faults {s t : State} (h : FaultsOf s t) (hs : s.fault = 0#4 ↔ s.ffirst = 0) :
    t.fault = 0#4 ↔ t.ffirst = 0 := by
  rcases h with ⟨hfault, hffirst, -⟩ | ⟨c, hfault, hffirst, -⟩ <;> rw [hfault, hffirst]
  · exact hs
  · obtain ⟨hbit, hcause⟩ := s.raise_faults c
    exact iff_of_false hbit hcause

/-- A command raises one fault at most. -/
theorem exec_faults {i : Instr} {s t : State} (h : exec i s = .next t) : FaultsOf s t := by
  rcases exec_next_cases h with ⟨c, rfl⟩ | ⟨-, -, -, rfl⟩ | ⟨w, rfl, -, rfl⟩
  · exact .inr ⟨c, rfl, rfl, rfl, rfl⟩
  · exact (effect_frame i s).2
  · exact .inl ⟨rfl, rfl, rfl, rfl⟩

/-! ### The note map -/

/-- A mapped note refers to a voice whose note it is (10_state.md R34): the map clause of `State.Inv`. -/
def State.MapMatches (s : State) : Prop :=
  ∀ n v, s.noteMap.get n = some v → ∃ vc, s.voice? v = some vc ∧ vc.note = some n

namespace State.MapMatches

variable {s t : State}

/-- Unmapping notes, and changing voices without their notes, keeps the map right. -/
theorem of_unmapped (hs : s.MapMatches) (hnum : s.numVoices = t.numVoices)
    (hmap : ∀ n v, t.noteMap.get n = some v → s.noteMap.get n = some v)
    (hnote : ∀ v vc tc, s.voice? v = some vc → t.voice? v = some tc → tc.note = vc.note) : t.MapMatches := by
  intro n v hn
  obtain ⟨vc, hv, hvn⟩ := hs n v (hmap n v hn)
  obtain ⟨tc, ht⟩ := exists_voice?_of_numVoices_le hnum.le hv
  exact ⟨tc, ht, (hnote v vc tc hv ht).trans hvn⟩

theorem evict (hs : s.MapMatches) (n : Note) (v : Nat) : (s.evict n v).MapMatches := by
  refine hs.of_unmapped rfl (fun k w hk => ?_) fun w vc tc hv ht => congrArg Voice.note (voice_of_voices_eq rfl hv ht)
  rw [State.evict_noteMap, NoteMap.get_evict] at hk
  split at hk
  · cases hk
  · exact hk

theorem releaseVoice (hs : s.MapMatches) (v : Nat) : (s.releaseVoice v).MapMatches := by
  refine hs.of_unmapped (State.numVoices_modifyVoice ..).symm (fun _ _ hk => hk) fun w vc tc hv ht => ?_
  rcases voice_of_modify rfl hv ht with ⟨-, rfl⟩ | rfl <;> rfl

/-- Starting a note on a voice of the pool to which no other note is mapped keeps the map right. -/
theorem startNote (hs : s.MapMatches) {n : Note} {w : Nat} (hw : w < s.numVoices)
    (hfree : ∀ k, k ≠ n → s.noteMap.get k ≠ some w) (vel : Velocity) : (s.startNote w n vel).MapMatches := by
  intro k v hk
  have hvoice : (s.startNote w n vel).voice? v =
      if v = w then (s.voice? v).map (·.noteOn s.num s.fs n vel) else s.voice? v := State.voice?_modifyVoice ..
  rw [State.startNote_noteMap, NoteMap.get_set] at hk
  split at hk
  next hkn =>
    obtain rfl : w = v := Option.some.inj hk
    rw [hvoice, if_pos rfl, State.voice?, List.getElem?_eq_getElem hw]
    exact ⟨_, rfl, congrArg some hkn.symm⟩
  next hkn =>
    have hvw : v ≠ w := fun h => hfree k hkn (h ▸ hk)
    rw [hvoice, if_neg hvw]
    exact hs k v hk

/-- Evicting a voice's other notes before a note starts on it keeps the map right (45_voicehandler.md R202). -/
theorem evict_startNote (hs : s.MapMatches) {w : Nat} (hw : w < s.numVoices) (n : Note) (vel : Velocity) :
    ((s.evict n w).startNote w n vel).MapMatches := by
  refine (hs.evict n w).startNote hw (fun k hk => ?_) vel
  rw [State.evict_noteMap, NoteMap.get_evict]
  split
  next => simp
  next h => exact fun hm => h ⟨hk, hm⟩

theorem after_vhNoteOff (hs : s.MapMatches) (n : Note) : (vhNoteOff n s).MapMatches := by
  unfold vhNoteOff
  split
  next v hv =>
    refine (hs.releaseVoice v).of_unmapped rfl (fun k w hk => ?_) fun w vc tc hv ht =>
      congrArg Voice.note (voice_of_voices_eq rfl hv ht)
    rw [NoteMap.get_set] at hk
    split at hk
    · cases hk
    · exact hk
  next => exact hs

/-- The three ways of choosing a voice: the note's own, to which by the map clause no other note is mapped; a free one;
a stolen one. The last two are evicted first. -/
theorem after_vhNoteOn (hs : s.MapMatches) (hpool : 0 < s.numVoices) (n : Note) (vel : Velocity) :
    (vhNoteOn n vel s).MapMatches := by
  rcases vhNoteOn_cases n vel s hpool with ⟨w, hw, e⟩ | ⟨-, w, hw, e⟩ | ⟨-, -, e⟩ <;> rw [e]
  · obtain ⟨vc, hv, hvn⟩ := hs n w hw
    obtain ⟨hlt, -⟩ := List.getElem?_eq_some_iff.1 hv
    refine hs.startNote hlt (fun k hk hm => hk ?_) vel
    obtain ⟨vc', hv', hvk⟩ := hs k w hm
    rw [hv] at hv'
    obtain rfl := Option.some.inj hv'
    exact Option.some.inj (hvk.symm.trans hvn)
  · exact hs.evict_startNote (State.freeVoice_eq_some hw).1 n vel
  · exact (hs.releaseVoice 0).evict_startNote ((State.numVoices_modifyVoice ..).symm ▸ hpool) n vel

end State.MapMatches

/-- A command that is no RESET and no note command changes neither the map nor a voice's note. -/
theorem exec_keeps_notes {i : Instr} {s t : State} (hi : i.opcode ∉ [Opcode.reset, .noteoff, .noteon])
    (h : exec i s = .next t) :
    t.noteMap = s.noteMap ∧
      ∀ v vc tc, s.voice? v = some vc → t.voice? v = some tc → tc.note = vc.note := by
  refine ⟨?_, fun v vc tc hv ht => ?_⟩
  · obtain ⟨r, hr, rfl⟩ := exec_registers h
    by_contra hne
    rcases hr.noteMap_writer hne with ⟨w, rfl⟩ | ⟨n, rfl⟩ | ⟨n, vel, rfl⟩ <;> simp [Instr.opcode] at hi
  · rcases exec_voice_note h hv ht with heq | ⟨w, rfl, -⟩ | ⟨n, vel, rfl, -⟩
    · exact heq
    all_goals simp [Instr.opcode] at hi

/-- The note commands keep the map right, RESET empties it, and the other commands leave it. -/
theorem exec_keeps_mapMatches {i : Instr} {s t : State} (h : exec i s = .next t) (hpool : 0 < s.numVoices)
    (hs : s.MapMatches) : t.MapMatches := by
  rcases exec_next_cases h with ⟨c, rfl⟩ | ⟨-, -, hr, rfl⟩ | ⟨w, rfl, -, rfl⟩
  · exact hs
  · cases i with
    | reset w => exact absurd rfl (hr w)
    | noteoff n => exact hs.after_vhNoteOff n
    | noteon n vel =>
      change (if vel.val = 0 then vhNoteOff n s else vhNoteOn n vel s).MapMatches
      split
      · exact hs.after_vhNoteOff n
      · exact hs.after_vhNoteOn hpool n vel
    | _ =>
      obtain ⟨-, -, -, hnum⟩ := exec_keeps_setup h
      obtain ⟨hmap, hnote⟩ := exec_keeps_notes (by simp [Instr.opcode]) h
      exact hs.of_unmapped hnum.symm (fun n v hn => hmap ▸ hn) hnote
  · intro n v hn
    simp [resetAll] at hn

/-! ### The invariant -/

theorem exec_keeps_inv {i : Instr} {s t : State} (h : exec i s = .next t) (hs : s.Inv)
    (hlen : s.pc + i.length ≤ s.progLen) : t.Inv := by
  obtain ⟨hcfg, hprog, hfrag, hnum⟩ := exec_keeps_setup h
  have operator_before : ∀ v k p, t.operator? v k = some p →
      ∃ o, s.operator? v k = some o ∧ OperatorAfter s v k o i p := fun v k p hp => by
    obtain ⟨o, ho⟩ := exists_operator?_of_numVoices_le hnum.le hp
    exact ⟨o, ho, exec_operator h ho hp⟩
  refine ⟨hnum ▸ hs.pool, ?_, exec_keeps_mapMatches h hs.pool.1 hs.map, fun v k p hp => ?_, fun hb v k p hp => ?_,
    (exec_faults h).keeps_faults hs.faults⟩
  · obtain ⟨r, hr, rfl⟩ := exec_registers h
    rw [State.advance_pc, hr.pc_eq, State.progLen_congr hprog hfrag]
    exact hlen
  · obtain ⟨o, ho, hafter⟩ := operator_before v k p hp
    exact hafter.keeps_quiet (hs.quiet v k o ho)
  · obtain ⟨o, ho, hafter⟩ := operator_before v k p hp
    rw [hcfg] at hb
    exact hafter.keeps_phase (State.num_of_binary32 hb) (hs.phase hb v k o ho)

theorem rejectHeader_keeps_inv {s : State} (hs : s.Inv) {pc : Nat} (hpc : pc ≤ s.progLen) : (rejectHeader s pc).Inv :=
  ⟨hs.pool, hpc, hs.map, hs.quiet, hs.phase, iff_of_false (s.raise_faults .illegal).1 (s.raise_faults .illegal).2⟩

end Sys2Proof.Machine

namespace Sys2Proof

open Machine

/-- Settles O3, by the cases of a step: a command keeps every clause, and an illegal header moves `pc` within the
stream and raises. -/
theorem invariantKeptByEveryStep : Obligations.InvariantKeptByEveryStep := by
  intro s t hs h
  rcases step_next_cases h with ⟨i, hlen, hi⟩ | ⟨pc, hpc, rfl⟩ | rfl
  · exact exec_keeps_inv hi hs hlen
  · exact rejectHeader_keeps_inv hs hpc
  · exact hs

end Sys2Proof

/-! PROOFS. No voice on behalf of another (20_memory.md R61): which voices a command writes, and what of the state it
reads to write one. -/

namespace Sys2Proof.Machine

/-! ### Writes -/

namespace OnlyVoice

variable {s t u : State} {v : Nat}

theorem of_voices_eq (h : t.voices = s.voices) : OnlyVoice s t v := by
  simp [OnlyVoice, State.numVoices, State.voice?, h]

theorem trans (h : OnlyVoice s t v) (h' : OnlyVoice t u v) : OnlyVoice s u v :=
  ⟨h'.1.trans h.1, fun w hw => (h'.2 w hw).trans (h.2 w hw)⟩

theorem modifyVoice (f : Voice → Voice) : OnlyVoice s (s.modifyVoice v f) v :=
  ⟨State.numVoices_modifyVoice .., fun w hw => by rw [State.voice?_modifyVoice, if_neg hw]⟩

theorem evict (n : Note) (w : Nat) : OnlyVoice s (s.evict n w) v := of_voices_eq rfl

theorem releaseVoice : OnlyVoice s (s.releaseVoice v) v := modifyVoice _

theorem startNote (n : Note) (vel : Velocity) : OnlyVoice s (s.startNote v n vel) v :=
  (modifyVoice _).trans (of_voices_eq rfl)

theorem of_vhNoteOff (n : Note) (s : State) : ∃ v, OnlyVoice s (vhNoteOff n s) v := by
  unfold vhNoteOff
  split
  next w _ => exact ⟨w, releaseVoice.trans (of_voices_eq rfl)⟩
  next => exact ⟨0, of_voices_eq rfl⟩

/-- A note-on writes the voice it chose, releasing it first where it is stolen. -/
theorem of_vhNoteOn (n : Note) (vel : Velocity) (s : State) : ∃ v, OnlyVoice s (vhNoteOn n vel s) v := by
  unfold vhNoteOn
  split
  next w _ => exact ⟨w, startNote n vel⟩
  next =>
    split
    next w _ => exact ⟨w, (evict n w).trans (startNote n vel)⟩
    next =>
      split
      next w _ => exact ⟨w, releaseVoice.trans ((evict n w).trans (startNote n vel))⟩
      next => exact ⟨0, of_voices_eq rfl⟩

/-- A command that names a voice writes that voice only. -/
theorem of_effect {i : Instr} {w : VoiceIx} (hi : i.voice? = some w) (s : State) : OnlyVoice s (effect i s) w.val := by
  cases i with
  | setalg x alg =>
    obtain rfl := Option.some.inj hi
    simp only [effect, setAlgorithm]
    split
    · exact modifyVoice _
    · exact of_voices_eq rfl
  | setmode x k m =>
    obtain rfl := Option.some.inj hi
    cases m <;> exact modifyVoice _
  | setratio | setlevel | settune | setenv | setmidx =>
    obtain rfl := Option.some.inj hi
    exact modifyVoice _
  | qactive => exact of_voices_eq rfl
  | reset | render | clrcache | noteoff | noteon => cases hi

/-- A note command writes one voice at most. -/
theorem of_note_effect {i : Instr} (hi : i.opcode ∈ [Opcode.noteon, .noteoff]) (s : State) :
    ∃ v, OnlyVoice s (effect i s) v := by
  cases i with
  | noteoff n => exact of_vhNoteOff n s
  | noteon n vel =>
    simp only [effect]
    split
    · exact of_vhNoteOff n s
    · exact of_vhNoteOn n vel s
  | _ => simp [Instr.opcode] at hi

end OnlyVoice

/-- Every command but RESET writes at most what its own rule writes. -/
theorem exec_onlyVoice {i : Instr} {s t : State} {v : Nat} (hr : ∀ w, i ≠ .reset w) (h : exec i s = .next t)
    (he : OnlyVoice s (effect i s) v) : OnlyVoice s t v := by
  rcases exec_next_cases h with ⟨c, rfl⟩ | ⟨-, -, -, rfl⟩ | ⟨w, hw, -, -⟩
  · exact .of_voices_eq rfl
  · exact he.trans (.of_voices_eq rfl)
  · exact absurd hw (hr w)

/-! ### Reads -/

/-- What a command but RESET makes of a voice: before the first RESET nothing, and then its own rule's effect, which for
a voice operand outside the pool is none. -/
theorem exec_voice? {i : Instr} {s t : State} (hr : ∀ w, i ≠ .reset w) (h : exec i s = .next t) (v : Nat) :
    t.voice? v = if s.init then (effect i s).voice? v else s.voice? v := by
  rw [exec_eq_runCommand i s hr] at h
  rcases runCommand_cases i.length (voiceOk i s) (effect i) s with ⟨hok, e⟩ | ⟨-, hi, e⟩ | ⟨-, hi, e⟩ <;>
    obtain rfl := Host.Outcome.next.inj (h.symm.trans e)
  · have hout : (effect i s).voice? v = s.voice? v := by
      unfold voiceOk at hok
      split at hok
      next w hw =>
        obtain ⟨hnum, hother⟩ := OnlyVoice.of_effect hw s
        by_cases hv : v = w.val
        · have hge : s.numVoices ≤ v := by simpa [State.hasVoice, hv] using hok
          rw [State.voice?, State.voice?, List.getElem?_eq_none hge, List.getElem?_eq_none (hnum.trans_le hge)]
        · exact hother v hv
      next => cases hok
    simp [hout]
  · simp [hi]
  · simp [hi]

/-- What RESET makes of a voice: nothing where it refuses the rate (45_voicehandler.md R201). -/
theorem exec_reset_voice? {w : Word} {s t : State} (h : exec (.reset w) s = .next t) (v : Nat) :
    t.voice? v =
      if legalRate s.num (s.num.ofBits w) then
        (s.voice? v).map fun vc => vc.reset s.num s.cfg.rearmsRelease (s.num.ofBits w)
      else s.voice? v := by
  simp only [exec, execReset] at h
  split at h
  next hrate =>
    obtain rfl := Host.Outcome.next.inj h
    rw [if_pos hrate]
    exact List.getElem?_map ..
  next hrate =>
    obtain rfl := Host.Outcome.next.inj h
    rw [if_neg hrate]
    rfl

/-! ### What allocation reads -/

section Allocation

variable {s s' : State}

/-- The pool's size and the activity of each voice. -/
theorem map_isActive_congr (hnum : s.numVoices = s'.numVoices) (hact : ∀ u, s.voiceActive u = s'.voiceActive u) :
    s.voices.map Voice.isActive = s'.voices.map Voice.isActive := by
  refine List.ext_getElem (by simpa [State.numVoices] using hnum) fun u hu hu' => ?_
  rw [List.length_map] at hu hu'
  rw [List.getElem_map, List.getElem_map, ← State.voiceActive_of_voice? (List.getElem?_eq_getElem hu), hact u,
    State.voiceActive_of_voice? (List.getElem?_eq_getElem hu')]

theorem State.freeVoice_congr (hnum : s.numVoices = s'.numVoices)
    (hact : ∀ u, s.voiceActive u = s'.voiceActive u) : s.freeVoice = s'.freeVoice := by
  have key := congrArg (List.findIdx? (!·)) (map_isActive_congr hnum hact)
  rwa [List.findIdx?_map, List.findIdx?_map] at key

theorem State.stealVoice_congr (hnum : s.numVoices = s'.numVoices)
    (hact : ∀ u, s.voiceActive u = s'.voiceActive u) : s.stealVoice = s'.stealVoice := by
  have key := congrArg (List.findIdx? id) (map_isActive_congr hnum hact)
  rwa [List.findIdx?_map, List.findIdx?_map] at key

end Allocation

/-! ### States that agree on a voice -/

/-- Two states that agree in what every command reads to write voice `v`. -/
structure AgreeOn (v : Nat) (s s' : State) : Prop where
  init : s.init = s'.init
  fs : s.fs = s'.fs
  cfg : s.cfg = s'.cfg
  voice : s.voice? v = s'.voice? v

namespace AgreeOn

variable {s s' : State} {v : Nat}

theorem num (h : AgreeOn v s s') : s.num = s'.num := congrArg (·.num.ops) h.cfg

/-- The same change of the same voice. -/
theorem modifyVoice_voice? (h : AgreeOn v s s') (w : Nat) (f : Voice → Voice) :
    (s.modifyVoice w f).voice? v = (s'.modifyVoice w f).voice? v := by
  simp only [State.voice?_modifyVoice, h.voice]

theorem evalEnv (h : AgreeOn v s s') : s.evalEnv = s'.evalEnv := by
  simp only [State.evalEnv, h.num, h.cfg, h.fs]

/-- A command that is no note command reads of the pool the voice it writes alone. -/
theorem effect_voice? (h : AgreeOn v s s') {i : Instr} (hi : i.opcode ∉ [Opcode.noteon, .noteoff]) :
    (effect i s).voice? v = (effect i s').voice? v := by
  cases i with
  | setalg w alg =>
    simp only [effect, setAlgorithm, h.cfg]
    split
    · exact h.modifyVoice_voice? ..
    · exact h.voice
  | setmode w k m =>
    cases m <;> simp only [effect, h.num, h.fs] <;> exact h.modifyVoice_voice? ..
  | setratio | setlevel | settune | setenv | setmidx =>
    simp only [effect, h.num, h.fs, h.cfg]
    exact h.modifyVoice_voice? ..
  | render => simp only [effect, renderAll_voice?, h.voice, h.evalEnv]
  | clrcache => simp only [effect, State.voice?_mapVoices, h.voice]
  | reset | qactive => exact h.voice
  | noteoff | noteon => simp [Instr.opcode] at hi

/-- RESET makes the same of a voice. -/
theorem exec_reset_voice? (h : AgreeOn v s s') {w : Word} {t t' : State} (ht : exec (.reset w) s = .next t)
    (ht' : exec (.reset w) s' = .next t') : t.voice? v = t'.voice? v := by
  rw [Machine.exec_reset_voice? ht, Machine.exec_reset_voice? ht', h.num, h.cfg, h.voice]

/-- Every other command makes the same of a voice where its effect does. -/
theorem exec_voice?_of_effect (h : AgreeOn v s s') {i : Instr} (hr : ∀ w, i ≠ .reset w) {t t' : State}
    (ht : exec i s = .next t) (ht' : exec i s' = .next t')
    (he : (effect i s).voice? v = (effect i s').voice? v) : t.voice? v = t'.voice? v := by
  rw [exec_voice? hr ht, exec_voice? hr ht', h.init, he, h.voice]

theorem startNote_voice? (h : AgreeOn v s s') (w : Nat) (n : Note) (vel : Velocity) :
    (s.startNote w n vel).voice? v = (s'.startNote w n vel).voice? v := by
  have key := h.modifyVoice_voice? w fun vc => vc.noteOn s'.num s'.fs n vel
  unfold State.startNote
  rw [h.num, h.fs]
  exact key

theorem evict (h : AgreeOn v s s') (n : Note) (w : Nat) : AgreeOn v (s.evict n w) (s'.evict n w) :=
  ⟨h.init, h.fs, h.cfg, h.voice⟩

theorem releaseVoice (h : AgreeOn v s s') (w : Nat) : AgreeOn v (s.releaseVoice w) (s'.releaseVoice w) := by
  refine ⟨h.init, h.fs, h.cfg, ?_⟩
  unfold State.releaseVoice
  rw [h.num, h.fs]
  exact h.modifyVoice_voice? ..

theorem vhNoteOff_voice? (h : AgreeOn v s s') {n : Note} (hmap : s.noteMap.get n = s'.noteMap.get n) :
    (vhNoteOff n s).voice? v = (vhNoteOff n s').voice? v := by
  unfold vhNoteOff
  rw [hmap]
  split
  · exact (h.releaseVoice _).voice
  · exact h.voice

/-- Where two states agree on the map entry and on what allocation reads, a note-on chooses the same voice. -/
theorem vhNoteOn_voice? (h : AgreeOn v s s') {n : Note} (hmap : s.noteMap.get n = s'.noteMap.get n)
    (hnum : s.numVoices = s'.numVoices) (hact : ∀ u, s.voiceActive u = s'.voiceActive u) (vel : Velocity) :
    (vhNoteOn n vel s).voice? v = (vhNoteOn n vel s').voice? v := by
  unfold vhNoteOn
  rw [hmap, State.freeVoice_congr hnum hact, State.stealVoice_congr hnum hact]
  split
  · exact h.startNote_voice? ..
  · split
    · exact (h.evict ..).startNote_voice? ..
    · split
      · exact ((h.releaseVoice _).evict ..).startNote_voice? ..
      · exact h.voice

end AgreeOn

end Sys2Proof.Machine

namespace Sys2Proof

open Machine

/-- Settles O22. Writes: by the voice each command's effect modifies. Reads: a command makes the same of a voice on
which two states agree; for a note command, allocation chooses the same voice in both. -/
theorem voicesDoNotInterfere : Obligations.VoicesDoNotInterfere := by
  refine ⟨fun i v s t hi h => ?_, fun i s t hi h => ?_, fun i s s' t t' v hinit hfs hcfg hvoice ht ht' => ?_⟩
  · exact exec_onlyVoice (by rintro w rfl; cases hi) h (.of_effect hi s)
  · have hr : ∀ w, i ≠ .reset w := by
      rintro w rfl
      simp [Instr.opcode] at hi
    obtain ⟨v, hv⟩ := OnlyVoice.of_note_effect hi s
    exact ⟨v, exec_onlyVoice hr h hv⟩
  · have hagree : AgreeOn v s s' := ⟨hinit, hfs, hcfg, hvoice⟩
    refine ⟨fun hi => ?_, fun n hi hmap hnum hact => ?_⟩
    · by_cases hr : ∃ w, i = .reset w
      · obtain ⟨w, rfl⟩ := hr
        exact hagree.exec_reset_voice? ht ht'
      · exact hagree.exec_voice?_of_effect (not_exists.1 hr) ht ht' (hagree.effect_voice? hi)
    · rcases hi with rfl | ⟨vel, rfl⟩
      · exact hagree.exec_voice?_of_effect (by simp) ht ht' (hagree.vhNoteOff_voice? hmap)
      · refine hagree.exec_voice?_of_effect (by simp) ht ht' ?_
        simp only [effect]
        split
        · exact hagree.vhNoteOff_voice? hmap
        · exact hagree.vhNoteOn_voice? hmap hnum hact vel

end Sys2Proof

/-! PROOFS. What the decoder makes of a header with a known opcode (30_encoding.md R89 to R94): the checks an operand
passes, the three answers, and the step each illegal header causes. -/

namespace Sys2Proof

open Machine

/-! ### The fields a header carries -/

theorem toNat_mkHeader (op a b c : BitVec 8) :
    (mkHeader op a b c).toNat = op.toNat * 2 ^ 24 + a.toNat * 2 ^ 16 + b.toNat * 2 ^ 8 + c.toNat := by
  simp only [mkHeader, BitVec.toNat_append]
  rw [← Nat.shiftLeft_add_eq_or_of_lt c.isLt, ← Nat.shiftLeft_add_eq_or_of_lt b.isLt,
    ← Nat.shiftLeft_add_eq_or_of_lt a.isLt]
  simp only [Nat.shiftLeft_eq]
  omega

theorem reservedZero_iff {op : Opcode} {h : Word} :
    reservedZero op h = true ↔ (op.usesA = false → h.aField = 0#8) ∧ (op.usesB = false → h.bField = 0#8) ∧
      (op.usesC = false → h.cField = 0#8) := by
  simp only [reservedZero, Bool.and_eq_true, Bool.or_eq_true, beq_iff_eq, ← Bool.not_eq_true, ← or_iff_not_imp_left,
    and_assoc]

/-! ### The checks of R90 -/

section Operands

variable {h : Word} {i : Instr}

theorem withVoice_eq_ok {nv : Nat} {k : VoiceIx → Except DecodeError Instr} :
    withVoice nv h k = .ok i ↔ h.aField.toNat < nv ∧ k h.aField.toFin = .ok i := by
  unfold withVoice
  split <;> simp [*]

theorem withOperator_eq_ok {k : OpIx → Except DecodeError Instr} :
    withOperator h k = .ok i ↔ ∃ hb : h.bField.toNat < 6, k ⟨h.bField.toNat, hb⟩ = .ok i := by
  unfold withOperator
  split <;> simp [*]

theorem withNote_eq_ok {k : Note → Except DecodeError Instr} :
    withNote h k = .ok i ↔ ∃ hb : h.bField.toNat < 128, k ⟨h.bField.toNat, hb⟩ = .ok i := by
  unfold withNote
  split <;> simp [*]

theorem withVelocity_eq_ok {k : Velocity → Except DecodeError Instr} :
    withVelocity h k = .ok i ↔ ∃ hc : h.cField.toNat < 128, k ⟨h.cField.toNat, hc⟩ = .ok i := by
  unfold withVelocity
  split <;> simp [*]

theorem lt_two_of_withMode_eq_ok {k : ModType → Except DecodeError Instr} (hk : withMode h k = .ok i) :
    h.cField.toNat < 2 := by
  unfold withMode at hk
  split at hk
  next h0 => simp [beq_iff_eq.1 h0]
  next =>
    split at hk
    next h1 => simp [beq_iff_eq.1 h1]
    next => cases hk

/-- The value checks of R90 on a header whose opcode is `op`. -/
structure OperandsInRange (nv : Nat) (op : Opcode) (h : Word) : Prop where
  voice : op.usesA = true → h.aField.toNat < nv
  operator : op.format = .o ∨ op.format = .oc → h.bField.toNat < 6
  mode : op = .setmode → h.cField.toNat < 2
  note : op = .noteon ∨ op = .noteoff → h.bField.toNat < 128
  velocity : op = .noteon → h.cField.toNat < 128

/-- Operands that decode passed every check of their opcode's format. -/
theorem operandsInRange_of_decodeOperands {nv : Nat} {op : Opcode} {p : List Word}
    (hd : decodeOperands nv op h p = .ok i) : OperandsInRange nv op h := by
  cases op with
  | reset | render | clrcache => constructor <;> simp [Opcode.usesA, Opcode.format]
  | setalg | qactive =>
    simp only [decodeOperands, withVoice_eq_ok] at hd
    obtain ⟨ha, -⟩ := hd
    constructor <;> simp [Opcode.format, ha]
  | setratio | setlevel | settune | setenv | setmidx =>
    simp only [decodeOperands, withVoice_eq_ok, withOperator_eq_ok] at hd
    obtain ⟨ha, hb, -⟩ := hd
    constructor <;> simp [ha, hb]
  | setmode =>
    simp only [decodeOperands, withVoice_eq_ok, withOperator_eq_ok] at hd
    obtain ⟨ha, hb, hm⟩ := hd
    constructor <;> simp [ha, hb, lt_two_of_withMode_eq_ok hm]
  | noteoff =>
    simp only [decodeOperands, withNote_eq_ok] at hd
    obtain ⟨hb, -⟩ := hd
    constructor <;> simp [Opcode.usesA, Opcode.format, hb]
  | noteon =>
    simp only [decodeOperands, withNote_eq_ok, withVelocity_eq_ok] at hd
    obtain ⟨hb, hc, -⟩ := hd
    constructor <;> simp [Opcode.usesA, Opcode.format, hb, hc]

end Operands

/-! ### What `decode` answers -/

section Decoding

variable {nv : Nat} {h : Word} {rest : List Word} {op : Opcode}

/-- No opcode has the code: check (1) of R94. -/
theorem decode_of_unknown (hop : ∀ op : Opcode, op.code ≠ h.opField) :
    decode nv h rest = .illegal .unknownOpcode 1 := by
  simp [decode, (ofCode_eq_none _).2 hop]

/-- A header of known opcode that passes the checks (2) to (4) of R94 is legal. -/
theorem decode_of_operands (hop : op.code = h.opField) (hlen : op.payloads ≤ rest.length)
    (hres : reservedZero op h = true) {i : Instr} (ho : decodeOperands nv op h rest = .ok i) :
    decode nv h rest = .ok i := by
  simp [decode, (ofCode_eq_some _ _).2 hop, not_lt.2 hlen, hres, ho]

/-- A known opcode whose payload is in the stream is legal and passed the checks (3) and (4) of R94, or is illegal with
its opcode's length and not called truncated. -/
theorem decode_of_long (hop : op.code = h.opField) (hlen : op.length ≤ rest.length + 1) :
    (∃ i, decode nv h rest = .ok i ∧ reservedZero op h = true ∧ OperandsInRange nv op h) ∨
    ∃ why, why ≠ .truncated ∧ decode nv h rest = .illegal why op.length := by
  have hpay : op.payloads ≤ rest.length := by
    simp only [Opcode.length] at hlen
    omega
  cases hres : reservedZero op h with
  | false => exact .inr ⟨.reservedField, by simp, by simp [decode, (ofCode_eq_some _ _).2 hop, not_lt.2 hpay, hres]⟩
  | true =>
    cases ho : decodeOperands nv op h rest with
    | ok i => exact .inl ⟨i, decode_of_operands hop hpay hres ho, rfl, operandsInRange_of_decodeOperands ho⟩
    | error why =>
      refine .inr ⟨why, ?_, by simp [decode, (ofCode_eq_some _ _).2 hop, not_lt.2 hpay, hres, ho]⟩
      rintro rfl
      exact decodeOperands_ne_truncated _ _ _ _ ho

/-- A known opcode keeps its length where the header is illegal, whichever check refused it (R83, R92). -/
theorem decode_of_known (hop : op.code = h.opField) :
    (∃ i, decode nv h rest = .ok i ∧ reservedZero op h = true ∧ OperandsInRange nv op h) ∨
    ∃ why, decode nv h rest = .illegal why op.length := by
  rcases Nat.lt_or_ge (rest.length + 1) op.length with hs | hl
  · exact .inr ⟨_, decode_of_short hop hs⟩
  · exact (decode_of_long hop hl).imp_right fun ⟨why, _, hx⟩ => ⟨why, hx⟩

end Decoding

/-! ### NOTEON with velocity 0 (R93) -/

/-- The word 0x9000nn00 is the header of the note-on with velocity 0. -/
theorem noteonZero_word_eq_mkHeader (note : Note) :
    BitVec.ofNat 32 (0x90000000 + 0x100 * note.val) = mkHeader 0x90#8 0#8 (fieldOf note) 0#8 := by
  have hlt := note.isLt
  apply BitVec.eq_of_toNat_eq
  rw [toNat_mkHeader, toNat_fieldOf (by decide) note, BitVec.toNat_ofNat, BitVec.toNat_ofNat, BitVec.toNat_ofNat]
  omega

theorem decode_noteonZero_word (nv : Nat) (note : Note) (rest : List Word) :
    decode nv (BitVec.ofNat 32 (0x90000000 + 0x100 * note.val)) rest = .ok (.noteon note 0) := by
  rw [noteonZero_word_eq_mkHeader]
  refine decode_of_operands (op := .noteon) (by simp [Opcode.code]) (Nat.zero_le _) ?_ ?_
  · simp [reservedZero_iff, Opcode.usesB, Opcode.usesC, Opcode.format]
  · simp [decodeOperands, withNote_eq_ok, withVelocity_eq_ok, toNat_fieldOf (show 128 ≤ 256 by decide) note]

/-! ### The step at an illegal header -/

namespace Machine

variable {s : State} {h : Word} {rest : List Word}

/-- A stream of whole words is as long as its words. -/
theorem State.progLen_of_no_frag (hf : s.progFrag = []) : s.progLen = s.prog.length := by
  simp [State.progLen, hf]

/-- An illegal header that is not truncated is skipped by the length decoding gave it (R91, R92). -/
theorem step_of_illegal {why : DecodeError} {len : Nat} (hd : s.prog.drop s.pc = h :: rest)
    (hx : decode s.numVoices h rest = .illegal why len) (hw : why ≠ .truncated) :
    step s = .next (rejectHeader s (s.pc + len)) := by
  cases why with
  | truncated => exact absurd rfl hw
  | _ => simp [step, fetch, hd, hx]

end Machine

/-- Settles O10: a header that decodes has its unused fields zero and its operands in range, so each disjunct refuses
it; what is left is illegal with its opcode's length. -/
theorem reservedAndOutOfRangeHeadersAreIllegal : Obligations.ReservedAndOutOfRangeHeadersAreIllegal := by
  intro nv h rest op hop
  have hcode := (ofCode_eq_some _ _).1 hop
  refine ⟨fun hbad => ?_, ?_⟩
  · rcases decode_of_known hcode with ⟨i, -, hres, hin⟩ | hill
    · obtain ⟨ha, hb, hc⟩ := reservedZero_iff.1 hres
      exfalso
      rcases hbad with ⟨hu, hne⟩ | ⟨hu, hne⟩ | ⟨hu, hne⟩ | ⟨hu, hge⟩ | ⟨hu, hge⟩ | ⟨hu, hge⟩ | ⟨hu, hge⟩ | ⟨hu, hge⟩
      · exact hne (ha hu)
      · exact hne (hb hu)
      · exact hne (hc hu)
      · exact hge.not_gt (hin.voice hu)
      · exact hge.not_gt (hin.operator hu)
      · exact hge.not_gt (hin.mode hu)
      · exact hge.not_gt (hin.note hu)
      · exact hge.not_gt (hin.velocity hu)
    · exact hill
  · rintro rfl hb ha
    refine decode_of_operands hcode (Nat.zero_le _) ?_ ?_
    · simp [reservedZero_iff, Opcode.usesA, Opcode.usesC, Opcode.format, hb]
    · simp [decodeOperands, withVoice_eq_ok, ha]

/-- Settles O11, by check (1) of the decoder; no opcode has the code 0x00 or 0xFF. -/
theorem unknownOpcodeSkipsOneWord : Obligations.UnknownOpcodeSkipsOneWord := by
  refine ⟨fun s h rest hd hop => step_of_illegal hd (decode_of_unknown hop) (by simp), fun op h hh => ?_⟩
  refine (ofCode_eq_none _).1 ?_ op
  rcases hh with rfl | rfl <;> decide

/-- Settles O12: too few words are called truncated; with enough of them, what is not legal is illegal for another
reason. -/
theorem illegalCommandIsSkippedWhole : Obligations.IllegalCommandIsSkippedWhole := by
  intro s h rest op hd hop
  refine ⟨fun hf hs => ?_, fun hlen hno => ?_⟩
  · rw [step_of_truncated hd (decode_of_short hop hs), State.progLen_of_no_frag hf]
    rfl
  · rcases decode_of_long hop hlen with ⟨i, hi, -⟩ | ⟨why, hw, hx⟩
    · exact absurd hi (hno i)
    · exact step_of_illegal hd hx hw

/-- Settles O6: closed words, encoded and decoded by evaluation. -/
theorem workedEncodings : Obligations.WorkedEncodings := by
  unfold Obligations.WorkedEncodings
  decide

/-- Settles O32: the word is the note-on's header, and both commands are one effect behind the same checks. -/
theorem noteonOfVelocityZeroIsNoteoff : Obligations.NoteonOfVelocityZeroIsNoteoff := by
  intro s note
  refine ⟨decode_noteonZero_word s.numVoices note, ?_⟩
  rw [exec_eq_runCommand _ s (by simp), exec_eq_runCommand _ s (by simp)]
  rfl

end Sys2Proof

/-! PROOFS. The envelope (40_envelope.md): what each function does in each state, the two moves of the level, up to 1
and down to a floor, in binary32, and the effect of a command on one operator. -/

namespace Sys2Proof.Num32

/-- What lies in [0, 1] is finite. -/
theorem isFinite_of_unit {a : Num32} (h0 : zero.le a = true) (h1 : a.le one = true) : a.isFinite = true := by
  cases a with
  | nan => cases h0
  | inf s => cases s with
    | false => exact absurd h1 (by decide)
    | true => exact absurd h0 (by decide)
  | fin s m => rfl

/-- For numbers, not `a <= b` gives `b <= a`. -/
theorem le_of_not_le {a b : Num32} (ha : a ≠ nan) (hb : b ≠ nan) (h : a.le b = false) : b.le a = true :=
  le_of_lt (lt_of_not_le ha hb h)

end Sys2Proof.Num32

namespace Sys2Proof.NumOps

/-! ### The moves of the level -/

/-- Up from `l` by `r`, stopped at 1: a tick's level in Attack (40_envelope.md R115). -/
def climb (N : NumOps) (l r : Number) : Number := if N.ge (N.add l r) N.one then N.one else N.add l r

/-- Down from `l` by `r`, stopped at `b`: a tick's level in Decay and in Release (40_envelope.md R115). -/
def fall (N : NumOps) (l r b : Number) : Number := if N.le (N.sub l r) b then b else N.sub l r

theorem binary32_inUnit_zero : binary32.inUnit binary32.zero = true := by decide

theorem binary32_inUnit_one : binary32.inUnit binary32.one = true := by decide

variable {l r b : Number}

/-- The climb does not lower the level: 1 is not below it, and a sum with a rate not below 0 is not. -/
theorem binary32_le_climb (hl : binary32.inUnit l = true) (hr : binary32.le binary32.zero r = true) :
    binary32.le l (binary32.climb l r) = true := by
  obtain ⟨a, rfl, ha0, ha1⟩ := b32_of_inUnit hl
  obtain ⟨-, q, -, rfl, -⟩ := b32_of_le hr
  unfold climb
  split
  · exact ha1
  · exact Num32.le_add_of_nonneg (Num32.isFinite_of_unit ha0 ha1) hr

/-- A climb that is not stopped stays below 1. -/
theorem binary32_climb_inUnit (hl : binary32.inUnit l = true) (hr : binary32.le binary32.zero r = true) :
    binary32.inUnit (binary32.climb l r) = true := by
  obtain ⟨a, rfl, ha0, ha1⟩ := b32_of_inUnit hl
  obtain ⟨-, q, -, rfl, -⟩ := b32_of_le hr
  have hup := Num32.le_add_of_nonneg (Num32.isFinite_of_unit ha0 ha1) hr
  obtain ⟨-, hsum⟩ := Num32.ne_nan_of_le hup
  unfold climb
  split
  · exact binary32_inUnit_one
  · next hstop =>
    have hle := Num32.le_of_not_le (by decide) hsum (Bool.eq_false_of_not_eq_true hstop)
    exact Bool.and_eq_true_iff.2 ⟨Num32.le_trans ha0 hup, hle⟩

/-- The fall does not raise a level that is not below where it stops. -/
theorem binary32_fall_le (hl : binary32.inUnit l = true) (hr : binary32.le binary32.zero r = true)
    (hb : binary32.le b l = true) : binary32.le (binary32.fall l r b) l = true := by
  obtain ⟨a, rfl, ha0, ha1⟩ := b32_of_inUnit hl
  obtain ⟨-, q, -, rfl, -⟩ := b32_of_le hr
  unfold fall
  split
  · exact hb
  · exact Num32.sub_le_of_nonneg (Num32.isFinite_of_unit ha0 ha1) hr

/-- A fall that is not stopped stays above where it would stop, and not above where it began. -/
theorem binary32_fall_inUnit (hl : binary32.inUnit l = true) (hr : binary32.le binary32.zero r = true)
    (hb : binary32.inUnit b = true) : binary32.inUnit (binary32.fall l r b) = true := by
  obtain ⟨a, rfl, ha0, ha1⟩ := b32_of_inUnit hl
  obtain ⟨-, q, -, rfl, -⟩ := b32_of_le hr
  obtain ⟨c, rfl, hc0, -⟩ := b32_of_inUnit hb
  have hdown := Num32.sub_le_of_nonneg (Num32.isFinite_of_unit ha0 ha1) hr
  obtain ⟨hdiff, -⟩ := Num32.ne_nan_of_le hdown
  obtain ⟨-, hc⟩ := Num32.ne_nan_of_le hc0
  unfold fall
  split
  · exact hb
  · next hstop =>
    have hle := Num32.le_of_not_le hdiff hc (Bool.eq_false_of_not_eq_true hstop)
    exact Bool.and_eq_true_iff.2 ⟨Num32.le_trans hc0 hle, Num32.le_trans hdown ha1⟩

end Sys2Proof.NumOps

namespace Sys2Proof.Machine.Envelope

variable {N : NumOps} {e : Envelope}

/-! ### Note-on and note-off (40_envelope.md R113, R114) -/

theorem noteOn_of_attack (h : N.gt e.attack N.zero = true) :
    e.noteOn N = { e with state := .attack, level := if e.state = .idle then N.zero else e.level } := if_pos h

theorem noteOn_of_decay (ha : N.gt e.attack N.zero = false) (hd : N.gt e.decay N.zero = true) :
    e.noteOn N = { e with state := .decay, level := N.one } := by
  simp [noteOn, ha, hd]

theorem noteOn_of_sustain (ha : N.gt e.attack N.zero = false) (hd : N.gt e.decay N.zero = false) :
    e.noteOn N = { e with state := .sustain, level := e.sustain } := by
  simp [noteOn, ha, hd]

theorem noteOn_state :
    (e.noteOn N).state =
      if N.gt e.attack N.zero then .attack else if N.gt e.decay N.zero then .decay else .sustain := by
  unfold noteOn
  split_ifs <;> rfl

/-- A note-on starts at 0, at the present level, at 1 or at the sustain level. -/
theorem noteOn_level :
    (e.noteOn N).level = N.zero ∨ (e.noteOn N).level = e.level ∨ (e.noteOn N).level = N.one ∨
      (e.noteOn N).level = e.sustain := by
  unfold noteOn
  split_ifs <;> simp

theorem noteOff_state (fs : Number) :
    (e.noteOff N fs).state =
      if e.state = .idle then .idle else if N.gt e.release N.zero then .release else .idle := by
  unfold noteOff
  split_ifs with hidle
  · exact hidle
  · rfl
  · rfl

/-- A note-off keeps the level or, with no release time, ends at 0. -/
theorem noteOff_level (fs : Number) : (e.noteOff N fs).level = e.level ∨ (e.noteOff N fs).level = N.zero := by
  unfold noteOff
  split_ifs <;> simp

/-! ### One tick, by the state on entry (40_envelope.md R115) -/

theorem next_of_idle (h : e.state = .idle) : e.next N = { e with level := N.zero } := by
  simp [next, h]

theorem next_of_attack_reached (h : e.state = .attack) (hg : N.ge (N.add e.level e.attackRate) N.one = true) :
    e.next N = { e with level := N.one, state := if N.gt e.decay N.zero then .decay else .sustain } := by
  simp [next, h, hg]

theorem next_of_attack_below (h : e.state = .attack) (hg : N.ge (N.add e.level e.attackRate) N.one = false) :
    e.next N = { e with level := N.add e.level e.attackRate } := by
  simp [next, h, hg]

theorem next_of_decay_reached (h : e.state = .decay) (hg : N.le (N.sub e.level e.decayRate) e.sustain = true) :
    e.next N = { e with level := e.sustain, state := .sustain } := by
  simp [next, h, hg]

theorem next_of_decay_above (h : e.state = .decay) (hg : N.le (N.sub e.level e.decayRate) e.sustain = false) :
    e.next N = { e with level := N.sub e.level e.decayRate } := by
  simp [next, h, hg]

theorem next_of_sustain (h : e.state = .sustain) : e.next N = { e with level := e.sustain } := by
  simp [next, h]

theorem next_of_release_reached (h : e.state = .release) (hg : N.le (N.sub e.level e.relRate) N.zero = true) :
    e.next N = { e with level := N.zero, state := .idle } := by
  simp [next, h, hg]

theorem next_of_release_above (h : e.state = .release) (hg : N.le (N.sub e.level e.relRate) N.zero = false) :
    e.next N = { e with level := N.sub e.level e.relRate } := by
  simp [next, h, hg]

theorem next_level_of_attack (h : e.state = .attack) : (e.next N).level = N.climb e.level e.attackRate := by
  cases hg : N.ge (N.add e.level e.attackRate) N.one with
  | true => simp [NumOps.climb, hg, next_of_attack_reached h hg]
  | false => simp [NumOps.climb, hg, next_of_attack_below h hg]

theorem next_level_of_decay (h : e.state = .decay) : (e.next N).level = N.fall e.level e.decayRate e.sustain := by
  cases hg : N.le (N.sub e.level e.decayRate) e.sustain with
  | true => simp [NumOps.fall, hg, next_of_decay_reached h hg]
  | false => simp [NumOps.fall, hg, next_of_decay_above h hg]

theorem next_level_of_release (h : e.state = .release) : (e.next N).level = N.fall e.level e.relRate N.zero := by
  cases hg : N.le (N.sub e.level e.relRate) N.zero with
  | true => simp [NumOps.fall, hg, next_of_release_reached h hg]
  | false => simp [NumOps.fall, hg, next_of_release_above h hg]

/-- A tick that leaves the state has run a branch of Attack, Decay or Release that reached its end: Idle and Sustain are
left by no tick. -/
theorem next_transition (hne : (e.next N).state ≠ e.state) :
    (e.state = .attack ∧ (e.next N).level = N.one ∧ N.ge (N.add e.level e.attackRate) N.one = true ∧
      (e.next N).state = (if N.gt e.decay N.zero then .decay else .sustain)) ∨
    (e.state = .decay ∧ N.le (N.sub e.level e.decayRate) e.sustain = true ∧ (e.next N).state = .sustain) ∨
    (e.state = .release ∧ N.le (N.sub e.level e.relRate) N.zero = true ∧ (e.next N).state = .idle) := by
  cases h : e.state with
  | idle => exact absurd (by rw [next_of_idle h]) hne
  | attack =>
    cases hg : N.ge (N.add e.level e.attackRate) N.one with
    | true => simp [next_of_attack_reached h hg]
    | false => exact absurd (by rw [next_of_attack_below h hg]) hne
  | decay =>
    cases hg : N.le (N.sub e.level e.decayRate) e.sustain with
    | true => simp [next_of_decay_reached h hg]
    | false => exact absurd (by rw [next_of_decay_above h hg]) hne
  | sustain => exact absurd (by rw [next_of_sustain h]) hne
  | release =>
    cases hg : N.le (N.sub e.level e.relRate) N.zero with
    | true => simp [next_of_release_reached h hg]
    | false => exact absurd (by rw [next_of_release_above h hg]) hne

theorem next_state_ne_attack (h : e.state = .attack) (hg : N.ge (N.add e.level e.attackRate) N.one = true) :
    (e.next N).state ≠ .attack := by
  rw [next_of_attack_reached h hg]
  dsimp only
  split_ifs <;> simp

end Sys2Proof.Machine.Envelope

namespace Sys2Proof

open Machine

/-! ### A command on one operator -/

/-- A command of a voice whose effect is a change of one operator of the pool completes and changes that operator
alone. -/
theorem Machine.exec_of_effect_modifyOp {c : Instr} {s : State} {v : VoiceIx} {i : OpIx} {f : Operator → Operator}
    {o : Operator} (hr : ∀ w, c ≠ .reset w) (hv : c.voice? = some v) (he : effect c s = s.modifyOp v.val i f)
    (hinit : s.init = true) (ho : s.operator? v.val i = some o) :
    ∃ t, exec c s = .next t ∧ OnlyPool s t c.length ∧ OnlyOperator s t v.val i ∧ t.operator? v.val i = some (f o) := by
  have hok : voiceOk c s = true := by
    simp only [voiceOk, hv]
    exact s.hasVoice_of_operator? i ho
  refine ⟨_, by rw [exec_of_ready hr hok hinit, he], onlyPool_modifyOp s _ i f _, onlyOperator_modifyOp s _ i f _, ?_⟩
  rw [State.operator?_advance, State.operator?_modifyOp, if_pos ⟨rfl, rfl⟩, ho]
  rfl

/-- Settles O26: SETENV's effect is `setEnvelope` on the operator it names, whose rates are the formulas of R111. -/
theorem setenvRecomputesTheRates : Obligations.SetenvRecomputesTheRates := by
  rintro s N v i wa wd ws wr o rfl hinit ho
  obtain ⟨t, hexec, hpool, hop, ht⟩ :=
    exec_of_effect_modifyOp (c := .setenv v i wa wd ws wr) (by simp) rfl rfl hinit ho
  refine ⟨t, hexec, hpool, hop, ?_⟩
  rintro a d x r ra rd rr rfl rfl rfl rfl rfl rfl rfl
  exact ht

/-- Settles O40, by the states that note-on, note-off and one tick give. -/
theorem envelopeTransitions : Obligations.EnvelopeTransitions := by
  intro N e
  refine ⟨Envelope.noteOn_state, Envelope.noteOff_state, Envelope.next_transition, Envelope.next_state_ne_attack,
    fun h hg => ?_, fun h hg => ?_, fun _ _ => rfl, fun _ _ _ _ _ _ => rfl⟩
  · rw [Envelope.next_of_decay_reached h hg]
  · rw [Envelope.next_of_release_reached h hg]

/-- Settles O41, by the equation of each branch. -/
theorem envelopeFunctionsFollowTheirRules : Obligations.EnvelopeFunctionsFollowTheirRules := by
  intro N e
  refine ⟨Envelope.noteOn_of_attack, Envelope.noteOn_of_decay, Envelope.noteOn_of_sustain, Envelope.next_of_idle,
    ?_, ?_, Envelope.next_of_sustain, ?_⟩
  · rintro h l rfl
    exact ⟨Envelope.next_of_attack_reached h, Envelope.next_of_attack_below h⟩
  · rintro h l rfl
    exact ⟨Envelope.next_of_decay_reached h, Envelope.next_of_decay_above h⟩
  · rintro h l rfl
    exact ⟨Envelope.next_of_release_reached h, Envelope.next_of_release_above h⟩

/-- Settles O42: a tick's level is 0, the sustain level, a climb or a fall, and none of them leaves [0, 1]. -/
theorem envelopeLevelStaysInRange : Obligations.EnvelopeLevelStaysInRange := by
  rintro N e rfl hl hs ha hd hr
  have hzero := NumOps.binary32_inUnit_zero
  refine ⟨?_, ?_, fun fs => ?_⟩
  · cases h : e.state with
    | idle => rwa [Envelope.next_of_idle h]
    | attack => exact Envelope.next_level_of_attack h ▸ NumOps.binary32_climb_inUnit hl ha
    | decay => exact Envelope.next_level_of_decay h ▸ NumOps.binary32_fall_inUnit hl hd hs
    | sustain => rwa [Envelope.next_of_sustain h]
    | release => exact Envelope.next_level_of_release h ▸ NumOps.binary32_fall_inUnit hl hr hzero
  · obtain h | h | h | h := e.noteOn_level (N := .binary32) <;> rw [h]
    exacts [hzero, hl, NumOps.binary32_inUnit_one, hs]
  · obtain h | h := e.noteOff_level (N := .binary32) fs <;> rw [h]
    exacts [hl, hzero]

/-- Settles O43: a climb does not lower the level and a fall does not raise it, to the sustain level or to 0. -/
theorem envelopeIsMonotone : Obligations.EnvelopeIsMonotone := by
  rintro N e rfl hl ha hd hr
  refine ⟨fun h => ?_, fun h hs => ?_, fun h => ?_, fun h => ?_⟩
  · exact Envelope.next_level_of_attack h ▸ NumOps.binary32_le_climb hl ha
  · exact Envelope.next_level_of_decay h ▸ NumOps.binary32_fall_le hl hd hs
  · rw [Envelope.next_of_sustain h]
    exact ⟨rfl, h⟩
  · obtain ⟨hzero, -⟩ := Bool.and_eq_true_iff.1 hl
    exact Envelope.next_level_of_release h ▸ NumOps.binary32_fall_le hl hr hzero

end Sys2Proof

/-! PROOFS. The oscillator (41_oscillator.md): `oscNext` is a read that sees the offset and an advance that does not,
and where the value read and the stored phase lie in binary32. -/

namespace Sys2Proof.Num32

/-- A phase is finite: [0,1) lies in [0, 1]. -/
theorem isFinite_of_isPhase {a : Num32} (h : a.isPhase = true) : a.isFinite = true := by
  obtain ⟨h0, h1⟩ := Bool.and_eq_true_iff.1 h
  exact isFinite_of_unit h0 (le_of_lt h1)

end Sys2Proof.Num32

namespace Sys2Proof.NumOps

/-- `wrap01` of a finite binary32 number is finite. -/
theorem binary32_isFinite_wrap01 {x : Number} (h : binary32.isFinite x = true) :
    binary32.isFinite (binary32.wrap01 x) = true := by
  obtain ⟨y, hy, hphase⟩ := binary32_wrap01_isPhase h
  rw [hy, binary32_isFinite]
  exact Num32.isFinite_of_isPhase hphase

end Sys2Proof.NumOps

namespace Sys2Proof.Machine.Oscillator

section

variable (N : NumOps) (osc : Oscillator) (off : Number)

@[simp] theorem next_fst : (osc.next N off).1 = osc.read N off := rfl
@[simp] theorem next_snd : (osc.next N off).2 = osc.step N := rfl
@[simp] theorem step_phase : (osc.step N).phase = N.wrap01 (N.add osc.phase osc.inc) := rfl
@[simp] theorem step_inc : (osc.step N).inc = osc.inc := rfl
@[simp] theorem step_amplitude : (osc.step N).amplitude = osc.amplitude := rfl

end

variable {osc : Oscillator} {off : Number}

/-- The advance stores a phase in [0,1) (41_oscillator.md R131). -/
theorem binary32_step_isPhase (h : NumOps.binary32.isFinite (NumOps.binary32.add osc.phase osc.inc) = true) :
    ∃ y : Num32, (osc.step .binary32).phase = .b32 y ∧ y.isPhase = true := by
  rw [step_phase]
  exact NumOps.binary32_wrap01_isPhase h

/-- The read is `SIN2PI` of a finite phase, so it lies in [-1, 1] (41_oscillator.md R131; 00_scope.md R12). -/
theorem binary32_read_range
    (h : NumOps.binary32.isFinite (NumOps.binary32.add osc.phase (NumOps.binary32.div off NumOps.binary32.twoPi))
      = true) :
    NumOps.binary32.le NumOps.binary32.negOne (osc.read .binary32 off) = true ∧
      NumOps.binary32.le (osc.read .binary32 off) NumOps.binary32.one = true :=
  NumOps.binary32_sin2pi_range (NumOps.binary32_isFinite_wrap01 h)

end Sys2Proof.Machine.Oscillator

namespace Sys2Proof

open Machine

/-- Settles O48: the advance does not mention the offset, `wrap01` answers a phase, and a phase is a finite operand of
`SIN2PI`. -/
theorem phaseOffsetMovesTheReadOnly : Obligations.PhaseOffsetMovesTheReadOnly := by
  intro N osc off
  simp only [Oscillator.next_fst, Oscillator.next_snd, Oscillator.step_inc, Oscillator.step_amplitude, implies_true,
    true_and]
  constructor
  · rintro rfl hsum
    exact Oscillator.binary32_step_isPhase hsum
  · rintro rfl hsum
    exact Oscillator.binary32_read_range hsum

end Sys2Proof

/-! PROOFS. The operator (42_operator.md): its pitch, and the commands that retune it at once. -/

namespace Sys2Proof.Machine.Operator

variable {N : NumOps} {o : Operator}

/-! ### The pitch (42_operator.md R142) -/

/-- At ratio 1 and tuning 0 the pitch of a note is 440 Hz times `EXP2` of the note's distance from A4 in octaves. -/
theorem binary32_baseFreqOf_of_octaves {n : Note} {e : Number} (hr : o.ratio = NumOps.binary32.one)
    (ht : o.tuning = NumOps.binary32.zero)
    (he : NumOps.binary32.div (NumOps.binary32.add (NumOps.binary32.ofInt ((n.val : Int) - 69)) NumOps.binary32.zero)
      NumOps.binary32.twelve = e) :
    o.baseFreqOf .binary32 n =
      NumOps.binary32.mul (NumOps.binary32.mul NumOps.binary32.one NumOps.binary32.a4Hz) (NumOps.binary32.exp2 e) := by
  rw [baseFreqOf, hr, ht, he]

/-! ### The retune (42_operator.md R149) -/

theorem retune_of_no_note (fs : Number) (h : o.note = none) : o.retune N fs = o := by
  simp only [retune, h]

theorem retune_of_note (fs : Number) {n : Note} (h : o.note = some n) :
    o.retune N fs =
      { o with baseFreq := o.baseFreqOf N n, osc := { o.osc with inc := N.div (o.baseFreqOf N n) fs } } := by
  simp only [retune_eq, h, Option.elim_some]

end Sys2Proof.Machine.Operator

namespace Sys2Proof

open Machine

/-- Settles O49: the formula is `baseFreqOf`, and the two notes have the exponents 0 and 1, at which `EXP2` is named. -/
theorem pitchFormula : Obligations.PitchFormula := by
  intro N o
  refine ⟨fun n => rfl, ?_⟩
  rintro rfl hr ht
  obtain ⟨hzero, hone, -⟩ := NumOps.binary32_exp2_points
  constructor
  · rw [Operator.binary32_baseFreqOf_of_octaves (e := NumOps.binary32.zero) hr ht (by decide), hzero]
    decide
  · rw [Operator.binary32_baseFreqOf_of_octaves (e := NumOps.binary32.one) hr ht (by decide), hone]
    decide

/-- Settles O23: SETRATIO's effect is the retune of the operator with its new ratio. -/
theorem setratioRetunesTheOperator : Obligations.SetratioRetunesTheOperator := by
  rintro s N v i w o rfl hinit ho
  obtain ⟨t, hexec, hpool, hop, ht⟩ := exec_of_effect_modifyOp (c := .setratio v i w) (by simp) rfl rfl hinit ho
  refine ⟨t, _, hexec, hpool, hop, ht, fun hn => Operator.retune_of_no_note _ hn, ?_⟩
  rintro n hn f rfl
  exact Operator.retune_of_note _ hn

/-- Settles O24: SETTUNE's effect is the retune of the operator with its new tuning. -/
theorem settuneRetunesTheOperator : Obligations.SettuneRetunesTheOperator := by
  rintro s N v i coarse fine o rfl hinit ho
  obtain ⟨t, hexec, hpool, hop, ht⟩ :=
    exec_of_effect_modifyOp (c := .settune v i coarse fine) (by simp) rfl rfl hinit ho
  refine ⟨t, _, hexec, hpool, hop, ht, ?_⟩
  rintro tu rfl
  refine ⟨fun hn => Operator.retune_of_no_note _ hn, ?_⟩
  rintro n hn f rfl
  exact Operator.retune_of_note _ hn

end Sys2Proof

/-! PROOFS. The modulation-graph evaluator (42_operator.md R146, R156): its depth bound is never met, so that it obeys
its own text, and what one call makes of an operator. -/

namespace Sys2Proof.Machine

/-! ### The depth bound (R156) -/

section DepthBound

variable {c : EvalEnv} {call call' : Six Operator → OpIx → Number × Six Operator} {n : Nat}

/-- Two ways to evaluate modulators that agree wherever fewer than `n` operators are open have the same sum there: a
call opens no operator. -/
theorem sumModulators_congr (he : ∀ ops j, Evaluated c ops (call ops j).2)
    (hcall : ∀ ops j, openCount ops < n → call ops j = call' ops j) (ms : List OpIx) (st : Number × Six Operator)
    (hst : openCount st.2 < n) : sumModulators c.num call ms st = sumModulators c.num call' ms st := by
  induction ms generalizing st with
  | nil => rfl
  | cons j ms ih =>
    have hle : openCount (call st.2 j).2 ≤ openCount st.2 := (he st.2 j).openCount_le
    rw [sumModulators_cons, sumModulators_cons, ← hcall st.2 j hst]
    exact ih _ (hle.trans_lt hst)

/-- The body evaluates the modulators of an open operator with that operator no longer open, so it needs its calls on
fewer open operators only. -/
theorem sampleBody_congr (he : ∀ ops j, Evaluated c ops (call ops j).2)
    (hcall : ∀ ops j, openCount ops < n → call ops j = call' ops j) (ops : Six Operator) (i : OpIx)
    (hops : openCount ops < n + 1) : sampleBody c call ops i = sampleBody c call' ops i := by
  cases hc : (ops.get i).cached with
  | true => rw [sampleBody_of_cached _ _ _ _ hc, sampleBody_of_cached _ _ _ _ hc]
  | false =>
    cases hp : (ops.get i).inProgress with
    | true => rw [sampleBody_of_inProgress _ _ _ _ hc hp, sampleBody_of_inProgress _ _ _ _ hc hp]
    | false =>
      have hlt := openCount_visiting ops i ((ops.get i).isOpen_iff.2 ⟨hc, hp⟩)
      have hmod : modulation c call ops i = modulation c call' ops i :=
        sumModulators_congr he hcall _ _ (show openCount (visiting ops i) < n by omega)
      rw [sampleBody_of_open _ _ _ _ hc hp, sampleBody_of_open _ _ _ _ hc hp, hmod]

/-- A depth above the number of open operators is as good as one more. -/
theorem getSampleFuel_succ_of_openCount_lt (c : EvalEnv) (n : Nat) :
    ∀ (ops : Six Operator) (i : OpIx), openCount ops < n → getSampleFuel c n ops i = getSampleFuel c (n + 1) ops i := by
  induction n with
  | zero => exact fun _ _ h => absurd h (Nat.not_lt_zero _)
  | succ n ih => exact sampleBody_congr (getSampleFuel_evaluated c n) ih

end DepthBound

theorem openCount_lt_evalFuel (ops : Six Operator) : openCount ops < evalFuel := Nat.lt_succ_of_le (openCount_le ops)

/-- The evaluator is its own text (42_operator.md R146): six operators never meet a depth bound of seven. -/
theorem getSample_eq_sampleBody (c : EvalEnv) (ops : Six Operator) (i : OpIx) :
    getSample c ops i = sampleBody c (getSample c) ops i :=
  getSampleFuel_succ_of_openCount_lt c evalFuel ops i (openCount_lt_evalFuel ops)

/-! ### One call -/

section Call

variable {c : EvalEnv} {ops : Six Operator} {i : OpIx}

theorem getSample_of_cached (h : (ops.get i).cached = true) : getSample c ops i = ((ops.get i).cachedSample, ops) := by
  rw [getSample_eq_sampleBody, sampleBody_of_cached _ _ _ _ h]

theorem getSample_of_inProgress (hc : (ops.get i).cached = false) (hp : (ops.get i).inProgress = true) :
    getSample c ops i = ((ops.get i).lastSample, ops) := by
  rw [getSample_eq_sampleBody, sampleBody_of_inProgress _ _ _ _ hc hp]

@[simp] theorem visiting_get_self (ops : Six Operator) (i : OpIx) :
    (visiting ops i).get i = { ops.get i with inProgress := true } := Six.get_set_same ..

theorem visiting_get_of_ne {j : OpIx} (h : j ≠ i) : (visiting ops i).get j = ops.get j := Six.get_set_of_ne _ _ _ _ h

/-- While its modulators are evaluated an operator is in progress, and nothing changes it. -/
theorem modulation_get_self {call : Six Operator → OpIx → Number × Six Operator}
    (he : ∀ ops j, Evaluated c ops (call ops j).2) :
    (modulation c call ops i).2.get i = { ops.get i with inProgress := true } := by
  have h := sumModulators_evaluated he (ops.get i).mods ((ops.get i).feedbackTerm c.num, visiting ops i)
  rw [modulation, h.of_inProgress i (by simp), visiting_get_self]

/-- An open operator is evaluated once, with its modulation sum. -/
theorem sampleBody_of_open_eq_produce {call : Six Operator → OpIx → Number × Six Operator}
    (he : ∀ ops j, Evaluated c ops (call ops j).2) (hc : (ops.get i).cached = false)
    (hp : (ops.get i).inProgress = false) :
    sampleBody c call ops i =
      (((ops.get i).produce c (modulation c call ops i).1).cachedSample,
        (modulation c call ops i).2.set i ((ops.get i).produce c (modulation c call ops i).1)) := by
  rw [sampleBody_of_open _ _ _ _ hc hp, modulation_get_self he, Operator.produce_of_inProgress]

theorem getSample_of_open (hc : (ops.get i).cached = false) (hp : (ops.get i).inProgress = false) :
    getSample c ops i =
      (((ops.get i).produce c (modulation c (getSample c) ops i).1).cachedSample,
        (modulation c (getSample c) ops i).2.set i ((ops.get i).produce c (modulation c (getSample c) ops i).1)) := by
  rw [getSample_eq_sampleBody, sampleBody_of_open_eq_produce (getSample_evaluated c) hc hp]

/-- A call on an operator that is not in progress leaves it cached, with the value it answers (42_operator.md R157). -/
theorem getSample_caches (hp : (ops.get i).inProgress = false) :
    ((getSample c ops i).2.get i).cached = true ∧
      ((getSample c ops i).2.get i).cachedSample = (getSample c ops i).1 := by
  cases hc : (ops.get i).cached with
  | true => rw [getSample_of_cached hc]; exact ⟨hc, rfl⟩
  | false => rw [getSample_of_open hc hp]; simp

end Call

/-! ### One evaluation, mode by mode (R146, R147) -/

namespace Operator

variable (c : EvalEnv) {o : Operator} (m : Number)

/-- The smoothed amplitude after one evaluation (42_operator.md R147). -/
def nextAmp (c : EvalEnv) (o : Operator) : Number :=
  smooth c.num c.coef o.smoothAmp (c.num.mul (c.num.mul o.osc.amplitude o.level) (o.env.next c.num).level)

theorem produce_of_oscillate {y : Number} {osc : Oscillator} (h : o.oscillate c.num c.fs m = (y, osc)) :
    o.produce c m =
      { o with
        env := o.env.next c.num, smoothAmp := o.nextAmp c, osc := osc
        cachedSample := c.num.mul y (o.nextAmp c)
        lastSample := c.num.div (c.num.add o.lastSample (c.num.mul y (o.nextAmp c))) c.num.two
        cached := true, inProgress := false } := by
  simp only [produce, h]
  rfl

theorem oscillate_of_pm (N : NumOps) (fs : Number) (h : o.modType = .pm) :
    o.oscillate N fs m = o.osc.next N (N.mul o.modIndex m) := by
  simp [oscillate, h]

theorem oscillate_of_fm (N : NumOps) (fs : Number) (h : o.modType = .fm) :
    o.oscillate N fs m =
      (o.osc.setFrequency N fs (N.max N.zero (N.add o.baseFreq (N.mul (N.mul o.modIndex m) o.baseFreq)))).next N
        N.zero := by
  simp [oscillate, h]

/-- In either mode the phase moves once, by the increment the evaluation leaves (41_oscillator.md R131). -/
theorem oscillate_phase (N : NumOps) (fs : Number) (o : Operator) :
    (o.oscillate N fs m).2.phase = N.wrap01 (N.add o.osc.phase (o.oscillate N fs m).2.inc) := by
  cases h : o.modType with
  | pm => rw [oscillate_of_pm m N fs h]; rfl
  | fm => rw [oscillate_of_fm m N fs h]; rfl

end Operator

end Sys2Proof.Machine

namespace Sys2Proof

open Machine

/-- Settles O51: a call opens no operator and a body closes one, so the depth bound exceeds what is left to enter. -/
theorem evaluatorObeysItsText : Obligations.EvaluatorObeysItsText := getSample_eq_sampleBody

/-- Settles O50, by the three cases of a call; in the third the modulation sum is the fold of the statement, and the
evaluation follows the operator's mode. -/
theorem evaluationFollowsTheRule : Obligations.EvaluationFollowsTheRule := by
  rintro c N ops i o rfl rfl
  refine ⟨getSample_of_cached, getSample_of_inProgress, ?_⟩
  rintro hc hp r amp hr rfl
  obtain rfl : r = modulation c (getSample c) ops i := hr
  rw [getSample_of_open hc hp]
  constructor
  · rintro hm y rfl
    rw [Operator.produce_of_oscillate c _ (Operator.oscillate_of_pm _ c.num c.fs hm)]
    rfl
  · rintro hm y f rfl rfl
    rw [Operator.produce_of_oscillate c _ (Operator.oscillate_of_fm _ c.num c.fs hm)]
    rfl

/-- Settles O52: the first call caches the value it answers, and no call changes a cached operator. -/
theorem evaluatorIsCoherentInATick : Obligations.EvaluatorIsCoherentInATick := by
  intro c ops i j hp
  obtain ⟨hcached, hvalue⟩ := getSample_caches (c := c) hp
  have hkept := (getSample_evaluated c (getSample c ops i).2 j).of_cached i hcached
  refine ⟨hcached, ?_, ?_⟩
  · rw [getSample_of_cached hcached, hvalue]
  · rw [getSample_of_cached (by rw [hkept]; exact hcached), hkept, hvalue]

end Sys2Proof

/-! PROOFS. Which operators a call and a RENDER advance (42_operator.md R146, R156, R158): those reached along open
operators, each once. -/

namespace Sys2Proof.Machine

/-! ### Reachability (R140) -/

section Reachability

variable {a b : Six Operator} {i j : OpIx}

theorem ReachesOpen.reaches (h : ReachesOpen a i j) : Reaches a i j := by
  induction h with
  | refl _ => exact .refl _
  | edge _ hk _ ih => exact .edge hk ih

theorem ReachesOpen.last_not_cached (h : ReachesOpen a i j) : (a.get j).cached = false := by
  induction h with
  | refl hc => exact hc
  | edge _ _ _ ih => exact ih

/-- Fewer operators cached on the same routing: no less is reached. -/
theorem ReachesOpen.mono (hc : ∀ k, (b.get k).cached = false → (a.get k).cached = false)
    (hm : ∀ k, (b.get k).mods = (a.get k).mods) (h : ReachesOpen b i j) : ReachesOpen a i j := by
  induction h with
  | refl hi => exact .refl (hc _ hi)
  | edge hi hk _ ih => exact .edge (hc _ hi) (hm _ ▸ hk) ih

/-- What is reached after a call was reached before it. -/
theorem ReachesOpen.of_evaluated {c : EvalEnv} (h : Evaluated c a b) (hr : ReachesOpen b i j) : ReachesOpen a i j := by
  refine hr.mono (fun k hk => ?_) h.mods
  by_contra hne
  rw [h.of_cached k (by simpa using hne)] at hk
  exact hne hk

theorem ReachesOpen.of_visiting {k : OpIx} (h : ReachesOpen (visiting a k) i j) : ReachesOpen a i j := by
  refine h.mono (fun l hl => ?_) (fun l => ?_) <;> obtain rfl | hne := eq_or_ne l k
  · simpa using hl
  · rwa [visiting_get_of_ne hne] at hl
  · simp
  · rw [visiting_get_of_ne hne]

end Reachability

/-! ### A sweep over some operators and what they reach -/

/-- Calls on the operators `is` lead from `a` to `b`: only what they reach along operators not cached changed; each of
them is no longer open; and of an operator that has been evaluated no modulator is left open. -/
structure Swept (c : EvalEnv) (a : Six Operator) (is : List OpIx) (b : Six Operator) : Prop where
  evaluated : Evaluated c a b
  reached : ∀ j, b.get j = a.get j ∨ ∃ i ∈ is, ReachesOpen a i j
  roots : ∀ i ∈ is, (b.get i).isOpen = false
  closed : ∀ k, (a.get k).isOpen = true → (b.get k).isOpen = false → ∀ m ∈ (a.get k).mods, (b.get m).isOpen = false

/-- No call opens an operator. -/
theorem Evaluated.not_open {c : EvalEnv} {a b : Six Operator} (h : Evaluated c a b) {j : OpIx}
    (hj : (a.get j).isOpen = false) : (b.get j).isOpen = false := by
  by_contra hb
  obtain ⟨ha, -⟩ := h.of_open j (by simpa using hb)
  rw [hj] at ha
  cases ha

namespace Swept

variable {c : EvalEnv} {a b d : Six Operator} {is js : List OpIx} {i j : OpIx}

/-- Operators that are not open answer at once: a call on them is a sweep that changes nothing. -/
theorem refl (c : EvalEnv) (h : ∀ i ∈ is, (a.get i).isOpen = false) : Swept c a is a where
  evaluated := .refl c a
  reached _ := .inl rfl
  roots := h
  closed k hk hk' := by rw [hk] at hk'; cases hk'

theorem nil (c : EvalEnv) (a : Six Operator) : Swept c a [] a := .refl c (by simp)

/-- One sweep after another is a sweep over both lists. -/
theorem append (h : Swept c a is b) (h' : Swept c b js d) : Swept c a (is ++ js) d where
  evaluated := h.evaluated.trans h'.evaluated
  reached j := by
    rcases h.reached j with hj | ⟨i, hi, hr⟩
    · rcases h'.reached j with hj' | ⟨i, hi, hr⟩
      · exact .inl (hj'.trans hj)
      · exact .inr ⟨i, List.mem_append_right _ hi, hr.of_evaluated h.evaluated⟩
    · exact .inr ⟨i, List.mem_append_left _ hi, hr⟩
  roots i hi := by
    rcases List.mem_append.1 hi with hi | hi
    · exact h'.evaluated.not_open (h.roots i hi)
    · exact h'.roots i hi
  closed k hk hk' m hm := by
    cases hb : (b.get k).isOpen with
    | false => exact h'.evaluated.not_open (h.closed k hk hb m hm)
    | true => exact h'.closed k hb hk' m (by rwa [h.evaluated.mods k])

/-- A sweep over the modulators of an open operator, and then its evaluation, is a sweep over that operator. -/
theorem produce {x : Number} (hi : (a.get i).isOpen = true) (h : Swept c (visiting a i) (a.get i).mods b)
    (he : Evaluated c a (b.set i ((a.get i).produce c x))) : Swept c a [i] (b.set i ((a.get i).produce c x)) := by
  have hc : (a.get i).cached = false := ((a.get i).isOpen_iff.1 hi).1
  have hclosed : ∀ m, (b.get m).isOpen = false → ((b.set i ((a.get i).produce c x)).get m).isOpen = false := by
    intro m hm
    obtain rfl | hne := eq_or_ne m i
    · simp [Operator.isOpen]
    · rwa [Six.get_set_of_ne _ _ _ _ hne]
  refine ⟨he, fun j => ?_, by simp [Operator.isOpen], fun k hk hk' m hm => hclosed m ?_⟩
  · obtain rfl | hne := eq_or_ne j i
    · exact .inr ⟨j, List.mem_singleton_self j, .refl hc⟩
    · rcases h.reached j with hj | ⟨m, hm, hr⟩
      · exact .inl (by rw [Six.get_set_of_ne _ _ _ _ hne, hj, visiting_get_of_ne hne])
      · exact .inr ⟨i, List.mem_singleton_self i, .edge hc hm hr.of_visiting⟩
  · obtain rfl | hne := eq_or_ne k i
    · exact h.roots m hm
    · rw [Six.get_set_of_ne _ _ _ _ hne] at hk'
      rw [← visiting_get_of_ne hne] at hk hm
      exact h.closed k hk hk' m hm

/-- What none of its operators reaches, a sweep leaves as it is. -/
theorem keeps (h : Swept c a is b) (hr : ∀ i ∈ is, ¬ReachesOpen a i j) : b.get j = a.get j :=
  (h.reached j).resolve_right fun ⟨i, hi, hij⟩ => hr i hi hij

/-- Where nothing was in progress a sweep evaluates all that its operators reach along operators not cached: a path
enters no operator that is left open. -/
theorem advances (h : Swept c a is b) (hquiet : ∀ k, (a.get k).inProgress = false) (hi : (b.get i).isOpen = false)
    (hr : ReachesOpen a i j) : (b.get j).cached = true ∧ ∃ m, b.get j = (a.get j).produce c m := by
  have hj : (b.get j).isOpen = false := by
    induction hr with
    | refl _ => exact hi
    | edge hc hk _ ih => exact ih (h.closed _ ((Operator.isOpen_iff _).2 ⟨hc, hquiet _⟩) hi _ hk)
  rcases h.evaluated j with hsame | ⟨-, m, hm⟩
  · have hopen := (Operator.isOpen_iff _).2 ⟨hr.last_not_cached, hquiet j⟩
    rw [hsame, hopen] at hj
    cases hj
  · exact ⟨by rw [hm, Operator.produce_cached], m, hm⟩

end Swept

/-! ### The evaluator sweeps -/

/-- Calls that sweep, each over its operator, sweep over a list of them. -/
theorem sumModulators_swept {c : EvalEnv} {call : Six Operator → OpIx → Number × Six Operator} {n : Nat}
    (hcall : ∀ ops j, openCount ops < n → Swept c ops [j] (call ops j).2) (ms : List OpIx) (st : Number × Six Operator)
    (hst : openCount st.2 < n) : Swept c st.2 ms (sumModulators c.num call ms st).2 := by
  induction ms generalizing st with
  | nil => exact .nil c st.2
  | cons j ms ih =>
    have hj := hcall st.2 j hst
    have hle : openCount (call st.2 j).2 ≤ openCount st.2 := hj.evaluated.openCount_le
    exact hj.append (ih (c.num.add st.1 (call st.2 j).1, (call st.2 j).2) (hle.trans_lt hst))

theorem getSampleFuel_swept (c : EvalEnv) (n : Nat) (ops : Six Operator) (i : OpIx) (h : openCount ops < n) :
    Swept c ops [i] (getSampleFuel c n ops i).2 := by
  induction n generalizing ops i with
  | zero => exact absurd h (Nat.not_lt_zero _)
  | succ n ih =>
    rw [getSampleFuel_succ]
    cases hc : (ops.get i).cached with
    | true => rw [sampleBody_of_cached _ _ _ _ hc]; exact .refl c (by simp [Operator.isOpen, hc])
    | false =>
      cases hp : (ops.get i).inProgress with
      | true => rw [sampleBody_of_inProgress _ _ _ _ hc hp]; exact .refl c (by simp [Operator.isOpen, hp])
      | false =>
        have hopen := (ops.get i).isOpen_iff.2 ⟨hc, hp⟩
        have hlt := openCount_visiting ops i hopen
        have hmods : Swept c (visiting ops i) (ops.get i).mods (modulation c (getSampleFuel c n) ops i).2 :=
          sumModulators_swept ih (ops.get i).mods ((ops.get i).feedbackTerm c.num, visiting ops i)
            (show openCount (visiting ops i) < n by omega)
        have he := sampleBody_evaluated (getSampleFuel_evaluated c n) ops i
        rw [sampleBody_of_open_eq_produce (getSampleFuel_evaluated c n) hc hp] at he ⊢
        exact hmods.produce hopen he

theorem getSample_swept (c : EvalEnv) (ops : Six Operator) (i : OpIx) : Swept c ops [i] (getSample c ops i).2 :=
  getSampleFuel_swept c evalFuel ops i (openCount_lt_evalFuel ops)

namespace Voice

theorem mem_carriers {v : Voice} {i : OpIx} : i ∈ v.carriers ↔ (v.op.get i).carrier = true := by
  simp [carriers, mem_opIndices]

/-- Rendering a voice sweeps over its carriers (44_voice.md R191). -/
theorem render_swept (c : EvalEnv) (v : Voice) : Swept c v.op v.carriers (v.render c).voice.op := by
  by_cases h : v.carriers = []
  · rw [render_of_no_carrier _ _ h, h]; exact .nil c v.op
  · rw [render_of_carrier _ _ h]
    exact sumModulators_swept (fun ops j _ => getSample_swept c ops j) v.carriers (c.num.zero, v.op)
      (openCount_lt_evalFuel v.op)

end Voice

end Sys2Proof.Machine

namespace Sys2Proof

open Machine

/-- Settles O53: one call is a sweep over the operator called. -/
theorem operatorsAdvanceAtMostOnce : Obligations.OperatorsAdvanceAtMostOnce := by
  intro c ops i j
  have hswept := getSample_swept c ops i
  have hkeeps : ¬ReachesOpen ops i j → (getSample c ops i).2.get j = ops.get j := fun hr =>
    hswept.keeps (by simpa using hr)
  refine ⟨(hswept.evaluated j).imp_right fun ⟨_, h⟩ => h, fun hr => hkeeps fun h => hr h.reaches, hkeeps, ?_⟩
  intro hquiet hr
  exact hswept.advances hquiet (hswept.roots i (List.mem_singleton_self i)) hr

/-- Settles O35: RENDER sweeps over the carriers of every voice. -/
theorem renderAdvancesEachReachedOperatorOnce : Obligations.RenderAdvancesEachReachedOperatorOnce := by
  intro s hinit hquiet
  refine ⟨_, exec_of_ready (i := .render) (by simp) rfl hinit, fun v vc hv => ?_⟩
  refine ⟨(vc.render s.evalEnv).voice, ?_, ?_⟩
  · rw [State.voice?_advance]
    exact (renderAll_voice? s v).trans (by rw [hv]; rfl)
  rintro j o p rfl rfl
  have hswept := vc.render_swept s.evalEnv
  have hkeeps : (∀ i, (vc.op.get i).carrier = true → ¬ReachesOpen vc.op i j) →
      (vc.render s.evalEnv).voice.op.get j = vc.op.get j := fun hr =>
    hswept.keeps fun i hi => hr i (Voice.mem_carriers.1 hi)
  refine ⟨fun hr => hkeeps fun i hi h => hr i hi h.reaches, hkeeps, ?_⟩
  rintro ⟨i, hi, hr⟩
  have hvoice : ∀ k, (vc.op.get k).inProgress = false := fun k =>
    hquiet v k _ ((s.operator?_eq_some v k).2 ⟨vc, hv, rfl⟩)
  obtain ⟨hcached, m, hm⟩ := hswept.advances hvoice (hswept.roots i (Voice.mem_carriers.2 hi)) hr
  refine ⟨⟨m, hm⟩, hcached, ?_, ?_⟩ <;> rw [hm]
  · rfl
  · exact Operator.oscillate_phase m s.num s.fs (vc.op.get j)

end Sys2Proof

/-! PROOFS. SETALG (43_algorithm.md R175): the voice it names gets the wiring of the table's entry, or AlgIndex is
raised. -/

namespace Sys2Proof.Machine

variable {s : State} {v : VoiceIx} {alg : AlgIx}

theorem State.hasVoice_of_voice? {vc : Voice} (h : s.voice? v.val = some vc) : s.hasVoice v = true :=
  s.hasVoice_of_operator? 0 ((s.operator?_eq_some v.val 0).2 ⟨vc, h, rfl⟩)

theorem setAlgorithm_of_lt (h : alg.val < 32) :
    setAlgorithm v alg s =
      s.modifyVoice v.val fun vc => { vc with op := wire (s.cfg.algTable.get ⟨alg.val, h⟩) vc.op } := dif_pos h

theorem setAlgorithm_of_ge (h : 32 ≤ alg.val) : setAlgorithm v alg s = s.raise .algIndex := dif_neg (by omega)

/-- SETALG on a voice of the pool, after the first RESET, is `setAlgorithm` and the advance. -/
theorem exec_setalg (hinit : s.init = true) (hv : s.hasVoice v = true) :
    exec (.setalg v alg) s = .next ((setAlgorithm v alg s).advance 1) :=
  exec_of_ready (i := .setalg v alg) (by simp) hv hinit

theorem voice?_setAlgorithm_of_lt {vc : Voice} (h : alg.val < 32) (hv : s.voice? v.val = some vc) :
    (setAlgorithm v alg s).voice? v.val =
      some { vc with op := wire (s.cfg.algTable.get ⟨alg.val, h⟩) vc.op } := by
  rw [setAlgorithm_of_lt h, State.voice?_modifyVoice, if_pos rfl, hv]
  rfl

end Sys2Proof.Machine

namespace Sys2Proof

open Machine

/-- Settles O28: below 32 the effect is the wiring of one voice, which `get_wire` reads slot by slot; from 32 on it is
the fault. -/
theorem setalgRewiresOneVoice : Obligations.SetalgRewiresOneVoice := by
  intro s v alg vc hinit hv
  have hexec := exec_setalg (alg := alg) hinit (State.hasVoice_of_voice? hv)
  constructor
  · intro h
    have hpool : OnlyPool s ((setAlgorithm v alg s).advance 1) 1 := by rw [setAlgorithm_of_lt h]; rfl
    have hvoice : OnlyVoice s ((setAlgorithm v alg s).advance 1) v.val :=
      OnlyVoice.of_effect (i := .setalg v alg) rfl s
    refine ⟨_, _, hexec, hpool, hvoice, voice?_setAlgorithm_of_lt h hv, rfl, ?_⟩
    rintro d rfl i
    exact get_wire _ vc.op i
  · intro h
    rw [hexec, setAlgorithm_of_ge h]
    rfl

end Sys2Proof

/-! PROOFS. RENDER and QACTIVE (44_voice.md R191, R194; 45_voicehandler.md R207, R211): one voice's sample, the mix and
the frame of RENDER, and what it is for a voice to be active. -/

namespace Sys2Proof.Machine

namespace Voice

/-- A voice's sample (44_voice.md R191). -/
theorem render_sample (c : EvalEnv) (v : Voice) :
    (v.render c).sample =
      if v.carriers = [] then c.num.zero
      else c.num.div (sumCarriers c v.carriers v.op).1 (c.num.ofInt v.carriers.length) := by
  by_cases h : v.carriers = []
  · rw [render_of_no_carrier c v h, if_pos h]
  · rw [render_of_carrier c v h, if_neg h]

/-- A voice is active if one of its carriers is (44_voice.md R194). -/
theorem isActive_iff (v : Voice) :
    v.isActive = true ↔ ∃ i, (v.op.get i).carrier = true ∧ (v.op.get i).env.state ≠ .idle := by
  simp [isActive, Envelope.isActive, Six.mem_toList]

end Voice

section Render

variable {s : State}

/-- RENDER after the first RESET is the mix and the advance. -/
theorem exec_render (hinit : s.init = true) : exec .render s = .next ((renderAll s).advance 1) :=
  exec_of_ready (i := .render) (by simp) rfl hinit

/-- Where every voice has a carrier, RENDER raises nothing. -/
theorem renderAll_of_wired (h : ∀ vc ∈ s.voices, ∃ i, (vc.op.get i).carrier = true) :
    renderAll s =
      { s with
        out := (renderAll s).out, outS := s.outS ++ [(renderAll s).out], voices := (renderAll s).voices } := by
  have hnone : ¬(renderVoices s).any (·.noCarrier) = true := fun hany => by
    obtain ⟨vc, hvc, hoff⟩ := (renderVoices_any_noCarrier s).1 hany
    obtain ⟨i, hi⟩ := h vc hvc
    exact Bool.false_ne_true ((hoff i).symm.trans hi)
  have heq := renderAll_eq s
  rwa [if_neg hnone] at heq

/-- Where a voice has no carrier, RENDER raises NoCarrier once (60_exceptions.md R238, R239). -/
theorem renderAll_of_unwired (h : ∃ vc ∈ s.voices, ∀ i, (vc.op.get i).carrier = false) :
    renderAll s =
      { s.raise .noCarrier with
        out := (renderAll s).out, outS := s.outS ++ [(renderAll s).out], voices := (renderAll s).voices } := by
  have heq := renderAll_eq s
  rwa [if_pos ((renderVoices_any_noCarrier s).2 h)] at heq

end Render

end Sys2Proof.Machine

namespace Sys2Proof

open Machine

/-- Settles O34: the carriers and the sum of the statement are the model's own, so `OUT` is the mix of `render_sample`
and each voice is left as `render` leaves it. -/
theorem renderMixesTheVoices : Obligations.RenderMixesTheVoices := by
  rintro s N carriers sum rfl hinit hcarriers hsum
  obtain rfl : carriers = Voice.carriers := funext hcarriers
  obtain rfl : sum = fun vc => Voice.sumCarriers s.evalEnv vc.carriers vc.op := funext hsum
  refine ⟨_, exec_render hinit, fun h => ?_, fun h => ?_, ?_, numVoices_renderAll s, fun v vc hv => ?_⟩
  · exact congrArg (State.advance · 1) (renderAll_of_wired h)
  · exact congrArg (State.advance · 1) (renderAll_of_unwired h)
  · exact (mix_renderVoices s).trans (by simp only [Voice.render_sample]; rfl)
  · have hrendered : (renderAll s).voice? v = some (vc.render s.evalEnv).voice := by rw [renderAll_voice?, hv]; rfl
    refine ⟨_, hrendered, Voice.render_note s.evalEnv vc, fun h => ?_, fun h => ?_, fun i => ?_⟩
    · rw [Voice.render_of_no_carrier s.evalEnv vc h]
    · rw [Voice.render_of_carrier s.evalEnv vc h]
    · exact (vc.render_evaluated s.evalEnv).sameSetup i

/-- Settles O37: the answer is `isActive` of the voice named. -/
theorem qactiveAnswersAndChangesNothingElse : Obligations.QactiveAnswersAndChangesNothingElse := by
  intro s v vc hinit hv
  have hexec := exec_of_ready (i := .qactive v) (by simp) (State.hasVoice_of_voice? hv) hinit
  refine ⟨s.voiceActive v.val, hexec, ?_⟩
  rw [State.voiceActive_of_voice? hv]
  exact vc.isActive_iff

end Sys2Proof

/-! PROOFS. RESET, NOTEON, NOTEOFF and CLRCACHE (45_voicehandler.md R201, R202, R204, R209). -/

namespace Sys2Proof.Machine

/-! ### RESET -/

section Reset

variable {s : State} {w : Word}

theorem legalRate_iff {N : NumOps} {fs : Number} :
    legalRate N fs = true ↔ N.isFinite fs = true ∧ N.gt fs N.zero = true := Bool.and_eq_true_iff

theorem exec_reset_of_legal (h : legalRate s.num (s.num.ofBits w) = true) :
    exec (.reset w) s = .next ((resetAll (s.num.ofBits w) s).advance 2) := if_pos h

theorem exec_reset_of_not_legal (h : ¬legalRate s.num (s.num.ofBits w) = true) :
    exec (.reset w) s = .next ((s.raise .illegal).advance 2) := if_neg h

@[simp] theorem numVoices_resetAll (fs : Number) (s : State) : (resetAll fs s).numVoices = s.numVoices :=
  List.length_map _

theorem resetAll_voice? (fs : Number) (s : State) (v : Nat) :
    (resetAll fs s).voice? v = (s.voice? v).map fun vc => vc.reset s.num s.cfg.rearmsRelease fs :=
  List.getElem?_map ..

theorem resetAll_operator? (fs : Number) (s : State) (v : Nat) (i : OpIx) :
    (resetAll fs s).operator? v i = (s.operator? v i).map fun o => o.reset s.num s.cfg.rearmsRelease fs := by
  have hop : ∀ vc : Voice, (vc.reset s.num s.cfg.rearmsRelease fs).op.get i =
      (vc.op.get i).reset s.num s.cfg.rearmsRelease fs := fun vc => Six.get_map ..
  simp only [State.operator?, resetAll_voice?, Option.map_map, Function.comp_def, hop]

/-- No voice has a note after RESET. -/
theorem resetAll_note {fs : Number} {v : Nat} {tc : Voice} (h : (resetAll fs s).voice? v = some tc) :
    tc.note = none := by
  rw [resetAll_voice?] at h
  obtain ⟨vc, -, rfl⟩ := Option.map_eq_some_iff.1 h
  rfl

end Reset

/-! ### Note-off (R204; 40_envelope.md R114) -/

section NoteOff

variable {N : NumOps} {fs : Number} {e : Envelope} {s : State} {n : Note} {v : Nat}

theorem Envelope.noteOff_of_idle (h : e.state = .idle) : e.noteOff N fs = e := if_pos h

theorem Envelope.noteOff_of_release (h : e.state ≠ .idle) (hr : N.gt e.release N.zero = true) :
    e.noteOff N fs =
      { e with state := .release, relStart := e.level, relRate := N.div e.level (N.mul e.release fs) } := by
  simp [noteOff, h, hr]

theorem Envelope.noteOff_of_no_release (h : e.state ≠ .idle) (hr : N.gt e.release N.zero = false) :
    e.noteOff N fs = { e with state := .idle, relStart := e.level, level := N.zero } := by
  simp [noteOff, h, hr]

theorem Operator.noteOff_of_idle {o : Operator} (h : o.env.state = .idle) : o.noteOff N fs = o := by
  rw [noteOff, Envelope.noteOff_of_idle h]

theorem vhNoteOff_of_mapped (h : s.noteMap.get n = some v) :
    vhNoteOff n s = { s.releaseVoice v with noteMap := s.noteMap.set n none } := by
  simp only [vhNoteOff, h]

theorem vhNoteOff_of_unmapped (h : s.noteMap.get n = none) : vhNoteOff n s = s := by
  simp only [vhNoteOff, h]

theorem exec_noteoff (hinit : s.init = true) : exec (.noteoff n) s = .next ((vhNoteOff n s).advance 1) :=
  exec_of_ready (i := .noteoff n) (by simp) rfl hinit

theorem State.voice?_releaseVoice_self (s : State) (v : Nat) :
    (s.releaseVoice v).voice? v = (s.voice? v).map fun vc => vc.noteOff s.num s.fs :=
  (s.voice?_modifyVoice v v _).trans (if_pos rfl)

end NoteOff

/-! ### Note-on (R202) -/

section NoteOn

variable {s : State} {note : Note} {vel : Velocity}

/-- The voice a note-on takes: the note's own, else the lowest that is not active, else voice 0. -/
def State.chosenVoice (s : State) (note : Note) : Nat := (s.noteMap.get note).getD (s.freeVoice.getD 0)

/-- The state in which the chosen voice is free for the note: a new allocation unmaps the voice's other notes, and a
stolen voice is released first. -/
def State.prepared (s : State) (note : Note) : State :=
  if s.noteMap.get note = none then
    (if s.freeVoice = none then s.releaseVoice (s.chosenVoice note) else s).evict note (s.chosenVoice note)
  else s

/-- A note-on prepares the voice it takes and starts the note on it. -/
theorem vhNoteOn_eq (hpool : 0 < s.numVoices) (note : Note) (vel : Velocity) :
    vhNoteOn note vel s = (s.prepared note).startNote (s.chosenVoice note) note vel := by
  rcases vhNoteOn_cases note vel s hpool with ⟨w, hm, e⟩ | ⟨hm, v, hf, e⟩ | ⟨hm, hf, e⟩
  · simp [e, State.prepared, State.chosenVoice, hm]
  · simp [e, State.prepared, State.chosenVoice, hm, hf]
  · simp [e, State.prepared, State.chosenVoice, hm, hf]

theorem exec_noteon (hinit : s.init = true) (hvel : vel.val ≠ 0) :
    exec (.noteon note vel) s = .next ((vhNoteOn note vel s).advance 1) := by
  have he : effect (.noteon note vel) s = vhNoteOn note vel s := if_neg hvel
  rw [← he]
  exact exec_of_ready (i := .noteon note vel) (by simp) rfl hinit

theorem State.freeVoice_eq_none_iff : s.freeVoice = none ↔ ∀ u, u < s.numVoices → s.voiceActive u = true := by
  refine ⟨State.freeVoice_eq_none, fun h => ?_⟩
  cases hf : s.freeVoice with
  | none => rfl
  | some v =>
    obtain ⟨hlt, hoff, -⟩ := State.freeVoice_eq_some hf
    rw [h v hlt] at hoff
    cases hoff

theorem State.chosenVoice_of_mapped {w : Nat} (h : s.noteMap.get note = some w) : s.chosenVoice note = w := by
  rw [chosenVoice, h, Option.getD_some]

/-- An unmapped note takes the lowest voice that is not active, and with every voice active voice 0. -/
theorem State.chosenVoice_of_unmapped (hpool : 0 < s.numVoices) (h : s.noteMap.get note = none) :
    s.chosenVoice note < s.numVoices ∧
      ((∃ u, u < s.numVoices ∧ s.voiceActive u = false) →
        s.voiceActive (s.chosenVoice note) = false ∧ ∀ u, u < s.chosenVoice note → s.voiceActive u = true) ∧
      ((∀ u, u < s.numVoices → s.voiceActive u = true) → s.chosenVoice note = 0) := by
  rw [chosenVoice, h, Option.getD_none]
  cases hf : s.freeVoice with
  | none =>
    have hall := State.freeVoice_eq_none hf
    refine ⟨hpool, ?_, fun _ => rfl⟩
    rintro ⟨u, hu, hoff⟩
    rw [hall u hu] at hoff
    cases hoff
  | some v =>
    obtain ⟨hlt, hoff, hbelow⟩ := State.freeVoice_eq_some hf
    refine ⟨hlt, fun _ => ⟨hoff, hbelow⟩, fun hall => ?_⟩
    rw [State.freeVoice_eq_none_iff.2 hall] at hf
    cases hf

@[simp] theorem State.prepared_num (s : State) (note : Note) : (s.prepared note).num = s.num := by
  unfold prepared
  split_ifs <;> rfl

@[simp] theorem State.prepared_fs (s : State) (note : Note) : (s.prepared note).fs = s.fs := by
  unfold prepared
  split_ifs <;> rfl

/-- A new allocation unmaps what else was mapped to the voice (R202, eviction). -/
theorem State.prepared_noteMap_get {n : Note} (hn : n ≠ note) :
    (s.prepared note).noteMap.get n =
      if s.noteMap.get note = none ∧ s.noteMap.get n = some (s.chosenVoice note) then none else s.noteMap.get n := by
  cases hm : s.noteMap.get note with
  | some w => simp [prepared, hm]
  | none =>
    have hmap : (s.prepared note).noteMap = s.noteMap.evict note (s.chosenVoice note) := by
      rw [prepared, if_pos hm]
      split_ifs <;> rfl
    rw [hmap, NoteMap.get_evict]
    simp [hn]

/-- Preparing writes the chosen voice only. -/
theorem onlyVoice_prepared (s : State) (note : Note) : OnlyVoice s (s.prepared note) (s.chosenVoice note) := by
  unfold State.prepared
  split_ifs
  · exact OnlyVoice.releaseVoice.trans (.evict note _)
  · exact .evict note _
  · exact .of_voices_eq rfl

/-- Preparing releases the chosen voice where it is stolen, and leaves it otherwise. -/
theorem State.prepared_voice? (s : State) (note : Note) :
    (s.prepared note).voice? (s.chosenVoice note) =
      if s.noteMap.get note = none ∧ (∀ u, u < s.numVoices → s.voiceActive u = true) then
        (s.voice? (s.chosenVoice note)).map fun vc => vc.noteOff s.num s.fs
      else s.voice? (s.chosenVoice note) := by
  cases hm : s.noteMap.get note with
  | some w => simp [prepared, hm]
  | none =>
    cases hf : s.freeVoice with
    | none =>
      rw [prepared, if_pos hm, if_pos hf, if_pos ⟨rfl, State.freeVoice_eq_none hf⟩]
      exact s.voice?_releaseVoice_self _
    | some v =>
      have hfree : ¬s.freeVoice = none := by simp [hf]
      rw [prepared, if_pos hm, if_neg hfree, if_neg fun h => hfree (State.freeVoice_eq_none_iff.2 h.2)]
      rfl

theorem State.voice?_startNote_self (s : State) (v : Nat) (note : Note) (vel : Velocity) :
    (s.startNote v note vel).voice? v = (s.voice? v).map fun vc => vc.noteOn s.num s.fs note vel :=
  (s.voice?_modifyVoice v v _).trans (if_pos rfl)

end NoteOn

/-! ### CLRCACHE (R209) -/

theorem exec_clrcache {s : State} (hinit : s.init = true) :
    exec .clrcache s = .next ((s.mapVoices Voice.resetCache).advance 1) :=
  exec_of_ready (i := .clrcache) (by simp) rfl hinit

@[simp] theorem Voice.get_resetCache (vc : Voice) (i : OpIx) : vc.resetCache.op.get i = (vc.op.get i).resetCache :=
  Six.get_map ..

theorem Voice.resetCache_resetCache (vc : Voice) : vc.resetCache.resetCache = vc.resetCache := rfl

/-- With every cache cleared there is nothing to clear (R71). -/
theorem State.mapVoices_resetCache_idem (s : State) :
    (s.mapVoices Voice.resetCache).mapVoices Voice.resetCache = s.mapVoices Voice.resetCache := by
  simp only [mapVoices, List.map_map, Function.comp_def, Voice.resetCache_resetCache]

end Sys2Proof.Machine

namespace Sys2Proof

open Machine

/-- Settles O30: RESET resets every operator, and refuses a rate that is not legal. -/
theorem resetClearsTheDynamicState : Obligations.ResetClearsTheDynamicState := by
  rintro s N w rfl
  rw [← legalRate_iff]
  refine ⟨?_, exec_reset_of_not_legal⟩
  rintro hw fs rfl
  refine ⟨_, exec_reset_of_legal hw, rfl, fun _ => NoteMap.get_empty .., numVoices_resetAll _ s,
    fun _ _ => resetAll_note, ?_⟩
  rintro v i o ho ra rd rr rfl rfl rfl
  rw [State.operator?_advance, resetAll_operator?, ho]
  rfl

/-- Settles O31: the voice is `chosenVoice`, and the note starts on it after it was prepared. -/
theorem noteonAllocatesAndStarts : Obligations.NoteonAllocatesAndStarts := by
  rintro s N note vel rfl hinit hvel hpool
  have hstart := vhNoteOn_eq hpool note vel
  refine ⟨_, s.chosenVoice note, exec_noteon hinit hvel, congrArg (State.advance · 1) (vhNoteOn_frame note vel s),
    fun _ => State.chosenVoice_of_mapped, State.chosenVoice_of_unmapped hpool, ?_, fun n hn => ?_, ?_,
    fun vc hv => ?_⟩
  · simp [hstart]
  · rw [State.advance_noteMap, hstart, State.startNote_noteMap, NoteMap.get_set, if_neg hn,
      State.prepared_noteMap_get hn]
  · rw [hstart]
    exact (onlyVoice_prepared s note).trans ((OnlyVoice.startNote note vel).trans (.of_voices_eq rfl))
  · rw [State.voice?_advance, hstart, State.voice?_startNote_self, State.prepared_voice?, hv,
      State.prepared_num, State.prepared_fs]
    split_ifs with hsteal
    · refine ⟨_, rfl, rfl, ?_⟩
      rintro i o f rfl rfl
      rw [operator_noteOn, operator_noteOff]
      rfl
    · refine ⟨_, rfl, rfl, ?_⟩
      rintro i o f rfl rfl
      rw [operator_noteOn]
      rfl

/-- Settles O33: NOTEOFF of a mapped note releases the voice, whose envelopes follow the branches of note-off. -/
theorem noteoffReleasesTheMappedVoice : Obligations.NoteoffReleasesTheMappedVoice := by
  rintro s N note rfl hinit
  have hexec := exec_noteoff (n := note) hinit
  refine ⟨fun hm => ?_, fun v hm => ?_⟩
  · rw [hexec, vhNoteOff_of_unmapped hm]
    rfl
  rw [vhNoteOff_of_mapped hm] at hexec
  refine ⟨_, hexec, rfl, NoteMap.get_set_same .., fun n hn => ?_, ?_, fun vc hv => ?_⟩
  · exact (NoteMap.get_set ..).trans (if_neg hn)
  · exact OnlyVoice.releaseVoice.trans (.of_voices_eq rfl)
  · refine ⟨vc.noteOff s.num s.fs, ?_, rfl, ?_⟩
    · exact (s.voice?_releaseVoice_self v).trans (by rw [hv]; rfl)
    rintro i o rfl
    rw [operator_noteOff]
    refine ⟨Operator.noteOff_of_idle, fun hs hr => ?_, fun hs hr => ?_⟩
    · rw [Operator.noteOff, Envelope.noteOff_of_release hs hr]
    · rw [Operator.noteOff, Envelope.noteOff_of_no_release hs hr]

/-- Settles O36: CLRCACHE maps `resetCache` over the pool, and twice is once. -/
theorem clrcacheForgetsTheTick : Obligations.ClrcacheForgetsTheTick := by
  intro s hinit
  refine ⟨_, exec_clrcache hinit, rfl, s.numVoices_mapVoices _, fun v vc hv => ?_, ?_⟩
  · refine ⟨vc.resetCache, ?_, rfl, fun i => vc.get_resetCache i⟩
    rw [State.voice?_advance, State.voice?_mapVoices, hv]
    rfl
  · rw [exec_clrcache (s := (s.mapVoices Voice.resetCache).advance 1) hinit]
    exact congrArg (fun u => Host.Outcome.next (State.advance (State.advance u 1) 1)) s.mapVoices_resetCache_idem

end Sys2Proof

/-! PROOFS. Silence until the first note (45_voicehandler.md R208): in binary32 an evaluation of silent operators adds
and multiplies zeros, so that its sample is 0 and they stay silent; and no command but a note-on wakes an operator. -/

namespace Sys2Proof.Num32

/-- A zero divided by a positive number is that zero. -/
theorem signedZero_div_of_pos {a : Num32} (ha : a.isFinite = true) (hpos : a.gt zero = true) (s : Bool) :
    (signedZero s).div a = signedZero s := by
  cases a with
  | nan => cases ha
  | inf _ => cases ha
  | fin r m =>
    cases r with
    | true =>
      have hneg : (m.val : Int) < 0 := by simpa [gt, lt] using hpos
      omega
    | false =>
      have hm : m.val ≠ 0 := by simpa [gt, lt, Nat.pos_iff_ne_zero] using hpos
      simp only [signedZero, div, hm, if_false, magUnits_zero, Nat.zero_shiftLeft, roundRatio_zero, Bool.bne_false]
      exact ofMag_zero s

end Sys2Proof.Num32

namespace Sys2Proof.NumOps

/-! ### Zeros of the format -/

/-- A zero of binary32, of either sign. -/
def IsZero32 (x : Number) : Prop := ∃ s, x = .b32 (Num32.signedZero s)

variable {x y : Number}

theorem isZero32_zero : IsZero32 binary32.zero := ⟨false, rfl⟩

theorem IsZero32.isFinite (hx : IsZero32 x) : binary32.isFinite x = true := by
  obtain ⟨s, rfl⟩ := hx
  rfl

theorem IsZero32.mul_left (hy : IsZero32 y) (hx : binary32.isFinite x = true) : IsZero32 (binary32.mul x y) := by
  obtain ⟨a, rfl, ha⟩ := b32_of_isFinite hx
  obtain ⟨s, rfl⟩ := hy
  obtain ⟨t, ht⟩ := Num32.mul_signedZero a ha s
  exact ⟨t, congrArg Number.b32 ht⟩

theorem IsZero32.mul_right (hx : IsZero32 x) (hy : binary32.isFinite y = true) : IsZero32 (binary32.mul x y) := by
  obtain ⟨s, rfl⟩ := hx
  obtain ⟨a, rfl, ha⟩ := b32_of_isFinite hy
  obtain ⟨t, ht⟩ := Num32.signedZero_mul a ha s
  exact ⟨t, congrArg Number.b32 ht⟩

theorem IsZero32.sub_zero (hx : IsZero32 x) : IsZero32 (binary32.sub x binary32.zero) := by
  obtain ⟨s, rfl⟩ := hx
  cases s
  exacts [⟨false, by decide⟩, ⟨true, by decide⟩]

theorem IsZero32.div_pos (hx : IsZero32 x) (hy : binary32.isFinite y = true)
    (hpos : binary32.gt y binary32.zero = true) : IsZero32 (binary32.div x y) := by
  obtain ⟨s, rfl⟩ := hx
  obtain ⟨a, rfl, ha⟩ := b32_of_isFinite hy
  exact ⟨s, congrArg Number.b32 (Num32.signedZero_div_of_pos ha hpos s)⟩

theorem zero_div_pos (hy : binary32.isFinite y = true) (hpos : binary32.gt y binary32.zero = true) :
    binary32.div binary32.zero y = binary32.zero := by
  obtain ⟨a, rfl, ha⟩ := b32_of_isFinite hy
  exact congrArg Number.b32 (Num32.signedZero_div_of_pos ha hpos false)

/-- The positive zero and any zero sum to the positive zero. -/
theorem IsZero32.zero_add (hx : IsZero32 x) : binary32.add binary32.zero x = binary32.zero := by
  obtain ⟨s, rfl⟩ := hx
  exact congrArg Number.b32 (Num32.zero_add_signedZero s)

theorem binary32_wrap01_zero : binary32.wrap01 binary32.zero = binary32.zero := by decide

/-- What lies in (0, 1] is finite. -/
theorem isFinite_of_pos_le_one (hpos : binary32.gt x binary32.zero = true) (hle : binary32.le x binary32.one = true) :
    binary32.isFinite x = true := by
  obtain ⟨a, -, rfl, -, -⟩ := b32_of_le hle
  exact Num32.isFinite_of_unit (Num32.le_of_lt hpos) hle

/-- Zeros sum to zero. -/
theorem foldl_add_zeros {xs : List Number} (h : ∀ x ∈ xs, x = binary32.zero) :
    xs.foldl binary32.add binary32.zero = binary32.zero := by
  induction xs with
  | nil => rfl
  | cons x xs ih =>
    obtain ⟨rfl, hxs⟩ := List.forall_mem_cons.1 h
    rw [List.foldl_cons, isZero32_zero.zero_add, ih hxs]

end Sys2Proof.NumOps

namespace Sys2Proof

/-- Every entry of an admissible table is admissible (43_algorithm.md R172). -/
theorem AlgTable.get_admissible {t : AlgTable} (h : t.admissible = true) (idx : Fin 32) :
    (t.get idx).admissible = true := List.all_eq_true.1 h _ (List.getElem_mem _)

/-- An admissible description names a carrier in some slot (43_algorithm.md R172). -/
theorem AlgDesc.exists_carrier_slot {d : AlgDesc} (h : d.admissible = true) :
    ∃ k ∈ d.carriers, ∃ i, slotIndex k = some i := by
  simp only [AlgDesc.admissible, AlgDesc.slotsValid, Bool.and_eq_true, List.all_eq_true] at h
  obtain ⟨⟨⟨⟨⟨-, hslots⟩, -⟩, hne⟩, -⟩, -⟩ := h
  obtain ⟨k, hk⟩ := List.exists_mem_of_ne_nil d.carriers (by simpa using hne)
  exact ⟨k, hk, Option.isSome_iff_exists.1 (hslots k hk)⟩

end Sys2Proof

namespace Sys2Proof.Machine

/-! ### One evaluation of a silent operator (42_operator.md R146, R147) -/

/-- A binary32 environment with a finite smoothing coefficient and a legal rate. -/
structure EvalEnv.Regular (c : EvalEnv) : Prop where
  num : c.num = .binary32
  coef : NumOps.binary32.isFinite c.coef = true
  rate : legalRate .binary32 c.fs = true

namespace Oscillator

/-- An oscillator at rest, read at no offset, gives 0 and stays at rest. -/
theorem next_reset {off : Number} (h : NumOps.IsZero32 off) :
    (reset .binary32).next .binary32 off = (NumOps.binary32.zero, reset .binary32) := by
  have hoff : NumOps.IsZero32 (NumOps.binary32.div off NumOps.binary32.twoPi) := h.div_pos (by decide) (by decide)
  obtain ⟨hsin, -⟩ := NumOps.binary32_sin2pi_points
  have hread : (reset .binary32).read .binary32 off = NumOps.binary32.zero := by
    rw [read, reset, hoff.zero_add, NumOps.binary32_wrap01_zero, hsin]
  have hstep : (reset .binary32).step .binary32 = reset .binary32 := by
    rw [step, reset, NumOps.isZero32_zero.zero_add, NumOps.binary32_wrap01_zero]
  rw [next, hread, hstep]

theorem setFrequency_reset {fs : Number} (h : legalRate .binary32 fs = true) :
    (reset .binary32).setFrequency .binary32 fs NumOps.binary32.zero = reset .binary32 := by
  obtain ⟨hfin, hpos⟩ := legalRate_iff.1 h
  rw [setFrequency, NumOps.zero_div_pos hfin hpos, reset]

end Oscillator

namespace Operator.Silent

variable {c : EvalEnv} {N : NumOps} {o : Operator}

/-- A silent operator's oscillator is at rest. -/
theorem osc_eq (h : o.Silent N) : o.osc = Oscillator.reset N :=
  congr (congr (congrArg Oscillator.mk h.phase) h.inc) h.amplitude

/-- With modulation sum 0 the oscillator gives 0 and stays at rest in both modes. -/
theorem oscillate (h : o.Silent .binary32) {fs : Number} (hfs : legalRate .binary32 fs = true) :
    o.oscillate .binary32 fs NumOps.binary32.zero = (NumOps.binary32.zero, Oscillator.reset .binary32) := by
  have hoff := NumOps.isZero32_zero.mul_left h.modIndex
  cases hm : o.modType with
  | pm => rw [oscillate_of_pm _ _ _ hm, h.osc_eq, Oscillator.next_reset hoff]
  | fm =>
    have hdev := hoff.mul_right NumOps.isZero32_zero.isFinite
    have hmax : NumOps.binary32.max NumOps.binary32.zero NumOps.binary32.zero = NumOps.binary32.zero := by decide
    rw [oscillate_of_fm _ _ _ hm, h.osc_eq, h.baseFreq, hdev.zero_add, hmax, Oscillator.setFrequency_reset hfs,
      Oscillator.next_reset NumOps.isZero32_zero]

/-- The smoothed amplitude stays 0: the level of an idle envelope is 0 (40_envelope.md R115). -/
theorem nextAmp (h : o.Silent .binary32) (hc : c.Regular) : o.nextAmp c = NumOps.binary32.zero := by
  have htarget := (NumOps.isZero32_zero.mul_right h.level).mul_right NumOps.isZero32_zero.isFinite
  have hstep := htarget.sub_zero.mul_left hc.coef
  rw [Operator.nextAmp, hc.num, Envelope.next_of_idle h.idle, h.amplitude, h.smoothAmp]
  exact hstep.zero_add

/-- One evaluation with modulation sum 0 leaves a silent operator silent. -/
theorem produce (h : o.Silent .binary32) (hc : c.Regular) : (o.produce c NumOps.binary32.zero).Silent .binary32 := by
  have hosc : o.oscillate c.num c.fs NumOps.binary32.zero = (NumOps.binary32.zero, Oscillator.reset .binary32) := by
    rw [hc.num, h.oscillate hc.rate]
  have hout : NumOps.binary32.mul NumOps.binary32.zero NumOps.binary32.zero = NumOps.binary32.zero := by decide
  have hlast : NumOps.binary32.div (NumOps.binary32.add NumOps.binary32.zero NumOps.binary32.zero) NumOps.binary32.two
      = NumOps.binary32.zero := by decide
  rw [produce_of_oscillate c _ hosc, h.nextAmp hc, hc.num, Envelope.next_of_idle h.idle, h.lastSample, hout, hlast]
  exact ⟨h.idle, h.note, h.baseFreq, rfl, rfl, rfl, rfl, rfl, rfl, rfl, h.level, h.modIndex⟩

end Operator.Silent

/-! ### Calls of the evaluator on silent operators -/

/-- Silent but for `inProgress`, which a call sets while it runs. -/
def Operator.Still (o : Operator) : Prop := Operator.Silent .binary32 { o with inProgress := false }

/-- Six operators that are silent but for `inProgress`. -/
def Six.Still (ops : Six Operator) : Prop := ∀ i, (ops.get i).Still

theorem Operator.Silent.still {o : Operator} (h : o.Silent .binary32) : o.Still := { h with inProgress := rfl }

theorem Operator.Still.silent {o : Operator} (h : o.Still) (hp : o.inProgress = false) : o.Silent .binary32 :=
  { h with inProgress := hp }

theorem Six.Still.set {ops : Six Operator} (h : ops.Still) (i : OpIx) {o : Operator} (ho : o.Still) :
    (ops.set i o).Still := by
  intro j
  rw [Six.get_set]
  split_ifs
  · exact ho
  · exact h j

/-- A sample of 0 and operators as silent as before. -/
def SilentAnswer (r : Number × Six Operator) : Prop := r.1 = NumOps.binary32.zero ∧ r.2.Still

section Calls

variable {c : EvalEnv} {call : Six Operator → OpIx → Number × Six Operator}

/-- Calls that answer 0 sum to 0. -/
theorem sumModulators_silentAnswer (hcall : ∀ ops j, ops.Still → SilentAnswer (call ops j)) (ms : List OpIx)
    (st : Number × Six Operator) (h : SilentAnswer st) : SilentAnswer (sumModulators .binary32 call ms st) := by
  induction ms generalizing st with
  | nil => exact h
  | cons j ms ih =>
    obtain ⟨hsum, hops⟩ := h
    obtain ⟨hsample, hafter⟩ := hcall st.2 j hops
    refine ih _ ⟨?_, hafter⟩
    dsimp only
    rw [hsum, hsample, NumOps.isZero32_zero.zero_add]

/-- With a feedback memory of 0 the modulation sum starts from 0. -/
theorem Operator.Still.feedbackTerm {o : Operator} (h : o.Still) : o.feedbackTerm .binary32 = NumOps.binary32.zero := by
  have hlast : o.lastSample = NumOps.binary32.zero := h.lastSample
  have hterm := (NumOps.isZero32_zero.mul_right (y := NumOps.binary32.quarter) (by decide)).zero_add
  rw [Operator.feedbackTerm, hlast, hterm, ite_self]

/-- The evaluator's body answers 0 where its calls do. -/
theorem sampleBody_silentAnswer (hc : c.Regular) (hcall : ∀ ops j, ops.Still → SilentAnswer (call ops j))
    (ops : Six Operator) (i : OpIx) (h : ops.Still) : SilentAnswer (sampleBody c call ops i) := by
  cases hcached : (ops.get i).cached with
  | true => rw [sampleBody_of_cached _ _ _ _ hcached]; exact ⟨(h i).cachedSample, h⟩
  | false =>
    cases hp : (ops.get i).inProgress with
    | true => rw [sampleBody_of_inProgress _ _ _ _ hcached hp]; exact ⟨(h i).lastSample, h⟩
    | false =>
      obtain ⟨hsum, hops⟩ : SilentAnswer (modulation c call ops i) := by
        rw [modulation, hc.num]
        exact sumModulators_silentAnswer hcall _ _ ⟨(h i).feedbackTerm, h.set i (h i)⟩
      have hsilent := (hops i).produce hc
      rw [Operator.produce_of_inProgress, ← hsum] at hsilent
      rw [sampleBody_of_open _ _ _ _ hcached hp]
      exact ⟨hsilent.cachedSample, hops.set i hsilent.still⟩

theorem getSampleFuel_silentAnswer (hc : c.Regular) (n : Nat) (ops : Six Operator) (i : OpIx) (h : ops.Still) :
    SilentAnswer (getSampleFuel c n ops i) := by
  induction n generalizing ops i with
  | zero => exact ⟨(h i).lastSample, h⟩
  | succ n ih => exact sampleBody_silentAnswer hc ih ops i h

end Calls

/-! ### RENDER -/

section Render

variable {c : EvalEnv} {vc : Voice}

/-- The number of carriers is a positive number of the format. -/
theorem Voice.zero_div_carriers (h : vc.carriers ≠ []) :
    NumOps.binary32.div NumOps.binary32.zero (NumOps.binary32.ofInt vc.carriers.length) = NumOps.binary32.zero := by
  have hpos : 0 < vc.carriers.length := List.length_pos_iff.2 h
  have hle : vc.carriers.length ≤ 6 := List.length_filter_le ..
  generalize vc.carriers.length = n at hpos hle
  interval_cases n <;> decide

/-- A wired voice of silent operators gives 0 and stays silent. -/
theorem Voice.render_silent (hc : c.Regular) (hops : ∀ i, (vc.op.get i).Silent .binary32) (hw : vc.carriers ≠ []) :
    (vc.render c).sample = NumOps.binary32.zero ∧ ∀ i, ((vc.render c).voice.op.get i).Silent .binary32 := by
  have hsum : SilentAnswer (sumCarriers c vc.carriers vc.op) := by
    unfold sumCarriers
    rw [hc.num]
    exact sumModulators_silentAnswer (fun ops j h => getSampleFuel_silentAnswer hc evalFuel ops j h) _ _
      ⟨rfl, fun i => (hops i).still⟩
  obtain ⟨hzero, hstill⟩ := hsum
  constructor
  · rw [render_sample, if_neg hw, hzero, hc.num, zero_div_carriers hw]
  · intro i
    have hquiet : ((vc.render c).voice.op.get i).inProgress = false := by
      by_contra hp
      have hbefore := (vc.render_evaluated c).inProgress_before i (by simpa using hp)
      rw [(hops i).inProgress] at hbefore
      cases hbefore
    rw [render_of_carrier c vc hw] at hquiet ⊢
    exact (hstill i).silent hquiet

end Render

/-! ### What the other commands do to a silent operator -/

/-- RESET silences an operator with finite level and modulation index. -/
theorem Operator.reset_silent {N : NumOps} {o : Operator} (hlevel : N.isFinite o.level = true)
    (hindex : N.isFinite o.modIndex = true) (rearms : Bool) (fs : Number) : (o.reset N rearms fs).Silent N :=
  ⟨rfl, rfl, rfl, rfl, rfl, rfl, rfl, rfl, rfl, rfl, hlevel, hindex⟩

/-- A retune does nothing to an operator without a note (42_operator.md R149). -/
theorem Operator.Silent.retune {N : NumOps} {o : Operator} (h : o.Silent N) (fs : Number) :
    (o.retune N fs).Silent N := by
  rwa [retune_of_no_note fs h.note]

/-- A command of finite payloads that is no note-on of a velocity above 0. -/
structure QuietCommand (N : NumOps) (i : Instr) : Prop where
  payload : ∀ w ∈ i.payload, N.isFinite (N.ofBits w) = true
  note : ∀ n vel, i = .noteon n vel → vel = 0

/-- A quiet command that is no RENDER leaves a silent operator silent. -/
theorem OperatorAfter.keeps_silent {s : State} {v : Nat} {k : OpIx} {o p : Operator} {i : Instr}
    (h : OperatorAfter s v k o i p) (hb : s.num = .binary32) (hrate : legalRate s.num s.fs = true)
    (hq : QuietCommand s.num i) (hi : i ≠ .render) (ho : o.Silent s.num) : p.Silent s.num := by
  cases h with
  | same => exact ho
  | reset w => exact Operator.reset_silent ho.level ho.modIndex _ _
  | setalg | setenv | setmodeFm | clrcache => exact { ho with }
  | setratio | settune => refine Operator.Silent.retune ?_ s.fs; exact { ho with }
  | setlevel u w => exact { ho with level := hq.payload w (List.mem_singleton_self w) }
  | setmidx u w => exact { ho with modIndex := hq.payload w (List.mem_singleton_self w) }
  | setmodePm =>
    obtain ⟨hfin, hpos⟩ := legalRate_iff.1 hrate
    have hinc : s.num.div o.baseFreq s.fs = s.num.zero := by
      rw [ho.baseFreq, hb]
      exact NumOps.zero_div_pos (hb ▸ hfin) (hb ▸ hpos)
    exact { ho with inc := hinc }
  | render => exact absurd rfl hi
  | noteoff | noteonZero => rwa [Operator.noteOff_of_idle ho.idle]
  | noteon n vel hvel | noteonSteals n vel hvel => exact absurd (congrArg Fin.val (hq.note n vel rfl)) hvel

/-! ### Wiring -/

section Wired

variable {s t : State} {i : Instr}

/-- The wiring of an admissible description has a carrier. -/
theorem exists_carrier_wire {d : AlgDesc} (h : d.admissible = true) (ops : Six Operator) :
    ∃ i, ((wire d ops).get i).carrier = true := by
  obtain ⟨k, hk, i, hi⟩ := d.exists_carrier_slot h
  refine ⟨i, ?_⟩
  rw [get_wire]
  exact List.any_eq_true.2 ⟨k, hk, by simp [hi]⟩

/-- A voice with a carrier is one whose list of carriers is not empty. -/
theorem Voice.carriers_ne_nil {vc : Voice} : vc.carriers ≠ [] ↔ ∃ i, (vc.op.get i).carrier = true := by
  simp [Voice.carriers_eq_nil]

/-- Every voice has a carrier. -/
def State.Wired (s : State) : Prop := ∀ vc ∈ s.voices, vc.carriers ≠ []

/-- No command but SETALG unwires a voice. -/
theorem State.Wired.of_exec (hs : s.Wired) (h : exec i s = .next t) (hi : ∀ u alg, i ≠ .setalg u alg) :
    t.Wired := by
  intro tc htc
  obtain ⟨v, hv⟩ := List.mem_iff_getElem?.1 htc
  obtain ⟨-, -, -, hnum⟩ := exec_keeps_setup h
  obtain ⟨vc, hvc⟩ := exists_voice?_of_numVoices_le hnum.le hv
  obtain ⟨k, hk⟩ := Voice.carriers_ne_nil.1 (hs vc (List.mem_of_getElem? hvc))
  have hbefore := (s.operator?_eq_some v k).2 ⟨vc, hvc, rfl⟩
  have hafter := (t.operator?_eq_some v k).2 ⟨tc, hv, rfl⟩
  obtain ⟨-, -, -, -, -, -, hrouting⟩ := (exec_operator h hbefore hafter).parameter_writers
  refine Voice.carriers_ne_nil.2 ⟨k, ?_⟩
  by_contra hne
  obtain ⟨u, alg, -, hsetalg⟩ := hrouting (.inr (.inl fun heq => hne (heq.trans hk)))
  exact hi u alg hsetalg

/-- SETALG wires its voice by the table, whose entries all have carriers. -/
theorem State.Wired.of_setAlgorithm (hs : s.Wired) (htable : s.cfg.algTable.admissible = true) (u : VoiceIx)
    (alg : AlgIx) : (setAlgorithm u alg s).Wired := by
  by_cases ha : alg.val < 32
  · intro tc htc
    obtain ⟨v, hv⟩ := List.mem_iff_getElem?.1 htc
    rw [setAlgorithm_of_lt ha] at hv
    obtain ⟨vc, hvc⟩ := exists_voice?_of_numVoices_le (State.numVoices_modifyVoice ..).le hv
    rcases voice_of_modify rfl hvc hv with ⟨-, rfl⟩ | rfl
    · exact Voice.carriers_ne_nil.2 (exists_carrier_wire (AlgTable.get_admissible htable _) _)
    · exact hs _ (List.mem_of_getElem? hvc)
  · rw [setAlgorithm_of_ge (by omega)]
    exact hs

/-- With an admissible table no command unwires a voice. -/
theorem State.Wired.of_exec_admissible (hs : s.Wired) (htable : s.cfg.algTable.admissible = true)
    (h : exec i s = .next t) : t.Wired := by
  by_cases hi : ∃ u alg, i = .setalg u alg
  · obtain ⟨u, alg, rfl⟩ := hi
    rcases exec_next_cases h with ⟨c, rfl⟩ | ⟨-, -, -, rfl⟩ | ⟨w, hw, -⟩
    · exact hs
    · exact hs.of_setAlgorithm htable u alg
    · cases hw
  · exact hs.of_exec h fun u alg heq => hi ⟨u, alg, heq⟩

end Wired

/-! ### A silent machine -/

namespace State.Silent

variable {s t : State} {i : Instr}

theorem num (hs : s.Silent) : s.num = .binary32 := State.num_of_binary32 hs.format

/-- What a silent machine evaluates with. -/
theorem evalEnv_regular (hs : s.Silent) (hcfg : s.cfg.admissible = true) : s.evalEnv.Regular := by
  obtain ⟨⟨hpos, hle⟩, -⟩ : (_ ∧ _) ∧ _ := by simpa only [Config.admissible, Bool.and_eq_true] using hcfg
  rw [hs.format] at hpos hle
  exact ⟨hs.num, NumOps.isFinite_of_pos_le_one hpos hle, hs.num ▸ hs.rate⟩

/-- INIT stays, and the rate stays or is one RESET accepted. -/
theorem keeps_rate (hs : s.Silent) (h : exec i s = .next t) : t.init = true ∧ legalRate t.num t.fs = true := by
  obtain ⟨hcfg, -⟩ := exec_keeps_setup h
  have hnum : t.num = s.num := congrArg (·.num.ops) hcfg
  rcases exec_next_cases h with ⟨c, rfl⟩ | ⟨-, -, -, rfl⟩ | ⟨w, -, hw, rfl⟩
  · exact ⟨hs.init, hs.rate⟩
  · obtain ⟨⟨-, -, -, -, hfs, hinit, -⟩, -⟩ := effect_frame i s
    refine ⟨hinit.trans hs.init, ?_⟩
    rw [hnum, State.advance_fs, hfs]
    exact hs.rate
  · exact ⟨rfl, hw⟩

/-- A rendered voice of a silent machine. -/
theorem render_voice (hs : s.Silent) (hcfg : s.cfg.admissible = true) {vc : Voice} (hvc : vc ∈ s.voices) :
    (vc.render s.evalEnv).sample = NumOps.binary32.zero ∧
      ∀ k, ((vc.render s.evalEnv).voice.op.get k).Silent .binary32 := by
  obtain ⟨v, hv⟩ := List.mem_iff_getElem?.1 hvc
  refine Voice.render_silent (hs.evalEnv_regular hcfg) (fun k => ?_) (hs.wired vc hvc)
  rw [← hs.num]
  exact hs.ops v k _ ((s.operator?_eq_some v k).2 ⟨vc, hv, rfl⟩)

/-- The mix of a silent machine is 0. -/
theorem mix_eq_zero (hs : s.Silent) (hcfg : s.cfg.admissible = true) :
    mix s.num (renderVoices s) = NumOps.binary32.zero := by
  rw [mix_renderVoices, hs.num]
  refine NumOps.foldl_add_zeros fun x hx => ?_
  obtain ⟨vc, hvc, rfl⟩ := List.mem_map.1 hx
  obtain ⟨hsample, -⟩ := hs.render_voice hcfg hvc
  exact hsample

/-- RENDER leaves every operator of a silent machine silent. -/
theorem renderAll_ops (hs : s.Silent) (hcfg : s.cfg.admissible = true) {v : Nat} {k : OpIx} {p : Operator}
    (hp : (renderAll s).operator? v k = some p) : p.Silent s.num := by
  obtain ⟨tc, htc, rfl⟩ := (State.operator?_eq_some _ _ _).1 hp
  rw [renderAll_voice?] at htc
  obtain ⟨vc, hv, rfl⟩ := Option.map_eq_some_iff.1 htc
  obtain ⟨-, hops⟩ := hs.render_voice hcfg (List.mem_of_getElem? hv)
  exact hs.num ▸ hops k

/-- A quiet command leaves every operator of a silent machine silent. -/
theorem exec_ops (hs : s.Silent) (hcfg : s.cfg.admissible = true) (hq : QuietCommand s.num i)
    (h : exec i s = .next t) {v : Nat} {k : OpIx} {p : Operator} (hp : t.operator? v k = some p) : p.Silent s.num := by
  by_cases hi : i = .render
  · subst hi
    obtain rfl := Host.Outcome.next.inj (h.symm.trans (exec_render hs.init))
    exact hs.renderAll_ops hcfg hp
  · obtain ⟨-, -, -, hnum⟩ := exec_keeps_setup h
    obtain ⟨o, ho⟩ := exists_operator?_of_numVoices_le hnum.le hp
    exact (exec_operator h ho hp).keeps_silent hs.num hs.rate hq hi (hs.ops v k o ho)

/-- Silence is kept by every quiet command. -/
theorem of_exec (hs : s.Silent) (hcfg : s.cfg.admissible = true) (hq : QuietCommand s.num i)
    (h : exec i s = .next t) : t.Silent := by
  obtain ⟨htcfg, -⟩ := exec_keeps_setup h
  obtain ⟨hinit, hrate⟩ := hs.keeps_rate h
  have hnum : t.num = s.num := congrArg (·.num.ops) htcfg
  obtain ⟨-, htable⟩ := Bool.and_eq_true_iff.1 hcfg
  refine ⟨htcfg ▸ hs.format, hinit, hrate, State.Wired.of_exec_admissible hs.wired htable h, fun v k p hp => ?_⟩
  rw [hnum]
  exact hs.exec_ops hcfg hq h hp

/-- A RENDER of a silent machine writes 0. -/
theorem render_out (hs : s.Silent) (hcfg : s.cfg.admissible = true) (h : exec .render s = .next t) :
    t.out = .b32 .zero ∧ t.outS = s.outS ++ [.b32 .zero] := by
  obtain rfl := Host.Outcome.next.inj (h.symm.trans (exec_render hs.init))
  have hmix := hs.mix_eq_zero hcfg
  exact ⟨hmix, congrArg (fun x => s.outS ++ [x]) hmix⟩

end State.Silent

/-- RESET with a legal rate silences a wired machine of finite levels and modulation indices. -/
theorem exec_reset_silent {s t : State} {w : Word} (hformat : s.cfg.num = .binary32)
    (hw : legalRate s.num (s.num.ofBits w) = true) (hwired : s.Wired)
    (hfin : ∀ v i o, s.operator? v i = some o → s.num.isFinite o.level = true ∧ s.num.isFinite o.modIndex = true)
    (h : exec (.reset w) s = .next t) : t.Silent := by
  have htwired : t.Wired := hwired.of_exec h (by simp)
  obtain rfl := Host.Outcome.next.inj (h.symm.trans (exec_reset_of_legal hw))
  refine ⟨hformat, rfl, hw, htwired, fun v k p hp => ?_⟩
  rw [State.operator?_advance, resetAll_operator?] at hp
  obtain ⟨o, ho, rfl⟩ := Option.map_eq_some_iff.1 hp
  obtain ⟨hlevel, hindex⟩ := hfin v k o ho
  exact Operator.reset_silent hlevel hindex _ _

end Sys2Proof.Machine

namespace Sys2Proof

open Machine

/-- Settles O39: RESET clears what sounds, an evaluation of silent operators works on zeros alone, and no other command
but a note-on wakes an operator. -/
theorem silenceUntilTheFirstNote : Obligations.SilenceUntilTheFirstNote := by
  refine ⟨fun s w hformat hw hwired hfin => ?_, fun s i hs hcfg hpay hnote => ?_⟩
  · obtain ⟨t, h⟩ := exec_total (.reset w) s
    exact ⟨t, h, exec_reset_silent hformat hw hwired hfin h⟩
  · obtain ⟨t, h⟩ := exec_total i s
    obtain ⟨htcfg, -⟩ := exec_keeps_setup h
    refine ⟨t, h, hs.of_exec hcfg ⟨hpay, hnote⟩ h, htcfg, ?_, fun hi => ?_⟩
    · rintro rfl
      exact hs.render_out hcfg h
    · obtain ⟨r, hr, rfl⟩ := exec_registers h
      by_contra hne
      exact hi (hr.out_writer (.inr hne))

end Sys2Proof

/-! PROOFS. The exceptions (60_exceptions.md): what raising a fault does to the fault registers (R233), and the one
fault of a command before the first RESET (R236). -/

namespace Sys2Proof.Machine

theorem Cause.mask_eq_twoPow (c : Cause) : c.mask = BitVec.twoPow 4 (c.code.val - 1) := by cases c <;> rfl

theorem Cause.getLsbD_mask (c : Cause) (k : Nat) : c.mask.getLsbD k = decide (k + 1 = c.code.val) := by
  have hpos := Fin.pos_iff_ne_zero.2 c.code_ne_zero
  rw [c.mask_eq_twoPow, BitVec.getLsbD_twoPow, ← Bool.decide_and, decide_eq_decide]
  omega

theorem getLsbD_setFaultBit (f : BitVec 4) (c : Cause) (k : Nat) :
    (setFaultBit f c).getLsbD k = (f.getLsbD k || decide (k + 1 = c.code.val)) := by
  rw [setFaultBit, BitVec.getLsbD_or, c.getLsbD_mask]

theorem State.faultBit_eq_getLsbD (s : State) (c : Cause) : s.faultBit c = s.fault.getLsbD (c.code.val - 1) := by
  have hmask : BitVec.twoPow 4 (c.code.val - 1) ≠ 0#4 := by cases c <;> decide
  rw [State.faultBit, c.mask_eq_twoPow, BitVec.and_twoPow]
  cases s.fault.getLsbD (c.code.val - 1) <;> simp [hmask]

theorem State.headerWord_of_getElem? {s : State} {h : Word} (hw : s.prog[s.pc]? = some h) : s.headerWord = h := by
  rw [State.headerWord, hw]

end Sys2Proof.Machine

namespace Sys2Proof

open Machine

/-- Settles O18: a command other than RESET is its effect behind the shared checks, and of these the one for `INIT` is
the first to fail. -/
theorem uninitialisedCommandOnlyFaults : Obligations.UninitialisedCommandOnlyFaults := by
  intro i s hreset hwf hinit
  rw [exec_eq_runCommand i s hreset]
  exact runCommand_of_not_init ((voiceOk_eq_wf i s).trans hwf) hinit

/-- Settles O16: the first-fault registers by whether a fault is recorded, and FAULT bit by bit, since the mask of a
cause is the one bit below its code. -/
theorem raiseRecordsTheFirstFault : Obligations.RaiseRecordsTheFirstFault := by
  refine ⟨⟨rfl, rfl, rfl, rfl⟩, fun s c => ⟨fun hnone => ?_, fun hrecorded => ?_,
    getLsbD_setFaultBit s.fault c, s.faultBit_eq_getLsbD c, rfl⟩⟩
  · simp only [State.raise_ffirst, State.raise_fpc, State.raise_fword, if_pos hnone, true_and]
    exact fun _ => State.headerWord_of_getElem?
  · simp only [State.raise_ffirst, State.raise_fpc, State.raise_fword, if_neg hrecorded, and_self]

end Sys2Proof

/-! PROOFS. The encoding (30_encoding.md R80 to R84, R94): decoding and encoding are inverse to each other, so an
encoded command runs, and the match and mask columns select the decoded row. -/

namespace Sys2Proof

open Machine

/-! ### Decoding what was encoded -/

section OperandOfField

variable {op a b c : BitVec 8}

@[simp] theorem withVoice_mkHeader {nv : Nat} {k : VoiceIx → Except DecodeError Instr} {v : VoiceIx}
    (hv : v.val < nv) :
    withVoice nv (mkHeader op (fieldOf v) b c) k = k v := by
  simp [withVoice, toNat_fieldOf (le_refl 256) v, hv]

@[simp] theorem withOperator_mkHeader {k : OpIx → Except DecodeError Instr} (i : OpIx) :
    withOperator (mkHeader op a (fieldOf i) c) k = k i := by
  simp [withOperator, toNat_fieldOf (show 6 ≤ 256 by decide) i]

@[simp] theorem withMode_mkHeader {k : ModType → Except DecodeError Instr} (m : ModType) :
    withMode (mkHeader op a b m.field) k = k m := by
  cases m <;> simp [withMode, ModType.field]

@[simp] theorem withNote_mkHeader {k : Note → Except DecodeError Instr} (n : Note) :
    withNote (mkHeader op a (fieldOf n) c) k = k n := by
  simp [withNote, toNat_fieldOf (show 128 ≤ 256 by decide) n]

@[simp] theorem withVelocity_mkHeader {k : Velocity → Except DecodeError Instr} (vel : Velocity) :
    withVelocity (mkHeader op a b (fieldOf vel)) k = k vel := by
  simp [withVelocity, toNat_fieldOf (show 128 ≤ 256 by decide) vel]

end OperandOfField

@[simp] theorem length_payload (i : Instr) : i.payload.length = i.opcode.payloads := by cases i <;> rfl

/-- A command's header leaves the fields its format does not use zero (R89). -/
theorem reservedZero_header (i : Instr) : reservedZero i.opcode i.header = true := by
  rw [reservedZero_iff]
  cases i <;> simp [Instr.opcode, Instr.header, Opcode.usesA, Opcode.usesB, Opcode.usesC, Opcode.format]

/-- The operands of a well-formed command's header and payload are the command's. -/
theorem decodeOperands_header {nv : Nat} {i : Instr} (hwf : i.wf nv = true) (post : List Word) :
    decodeOperands nv i.opcode i.header (i.payload ++ post) = .ok i := by
  cases i with
  | reset | render | clrcache => rfl
  | noteoff | noteon => simp [decodeOperands, Instr.opcode, Instr.header]
  | setalg v | setratio v | setlevel v | settune v | setenv v | setmode v | setmidx v | qactive v =>
    have hv : v.val < nv := of_decide_eq_true hwf
    simp [decodeOperands, Instr.opcode, Instr.header, Instr.payload, hv]

/-- Settles O7: the encoding has its opcode's code and length, its reserved fields are zero, and its operands are the
command's. -/
theorem decodeInvertsEncode : Obligations.DecodeInvertsEncode := fun _ i post hwf =>
  decode_of_operands (header_opField i).symm (by simp) (reservedZero_header i) (decodeOperands_header hwf post)

/-! ### Encoding what was decoded -/

theorem withMode_eq_ok {h : Word} {i : Instr} {k : ModType → Except DecodeError Instr} :
    withMode h k = .ok i ↔ ∃ m, m.field = h.cField ∧ k m = .ok i := by
  constructor
  · intro hk
    unfold withMode at hk
    split at hk
    next h0 => exact ⟨.pm, (beq_iff_eq.1 h0).symm, hk⟩
    next =>
      split at hk
      next h1 => exact ⟨.fm, (beq_iff_eq.1 h1).symm, hk⟩
      next => cases hk
  · rintro ⟨m, hm, hk⟩
    cases m <;> simp [withMode, ← hm, ModType.field, hk]

/-- What the operand checks build from a header and a payload: the header's operand fields and zeros, the payload's
words, and the voice the header names. -/
structure OperandsRead (op : Opcode) (h : Word) (p : List Word) (i : Instr) : Prop where
  header : i.header = mkHeader op.code (if op.usesA then h.aField else 0#8) (if op.usesB then h.bField else 0#8)
    (if op.usesC then h.cField else 0#8)
  payload : i.payload = (List.range op.payloads).map (p.getD · 0#32)
  voice : i.voice? = if op.usesA then some h.aField.toFin else none

section Decoded

variable {nv : Nat} {op : Opcode} {h : Word} {p rest : List Word} {i : Instr}

theorem operandsRead_of_decodeOperands (hd : decodeOperands nv op h p = .ok i) : OperandsRead op h p i := by
  cases op with
  | reset | render | clrcache =>
    cases hd
    exact ⟨rfl, rfl, rfl⟩
  | setalg | qactive =>
    simp only [decodeOperands, withVoice_eq_ok] at hd
    obtain ⟨-, ⟨⟩⟩ := hd
    exact ⟨by rw [Instr.header]; simp only [fieldOf_toFin]; rfl, rfl, rfl⟩
  | setratio | setlevel | settune | setenv | setmidx =>
    simp only [decodeOperands, withVoice_eq_ok, withOperator_eq_ok] at hd
    obtain ⟨-, hb, ⟨⟩⟩ := hd
    exact ⟨by rw [Instr.header, fieldOf_toFin, fieldOf_mk (by decide)]; rfl, rfl, rfl⟩
  | setmode =>
    simp only [decodeOperands, withVoice_eq_ok, withOperator_eq_ok, withMode_eq_ok] at hd
    obtain ⟨-, hb, m, hm, ⟨⟩⟩ := hd
    exact ⟨by rw [Instr.header, fieldOf_toFin, fieldOf_mk (by decide), hm]; rfl, rfl, rfl⟩
  | noteoff =>
    simp only [decodeOperands, withNote_eq_ok] at hd
    obtain ⟨hb, ⟨⟩⟩ := hd
    exact ⟨by rw [Instr.header, fieldOf_mk (by decide)]; rfl, rfl, rfl⟩
  | noteon =>
    simp only [decodeOperands, withNote_eq_ok, withVelocity_eq_ok] at hd
    obtain ⟨hb, hc, ⟨⟩⟩ := hd
    exact ⟨by rw [Instr.header, fieldOf_mk (by decide), fieldOf_mk (by decide)]; rfl, rfl, rfl⟩

/-- With the reserved fields zero, the header read is the whole header. -/
theorem OperandsRead.header_eq (hi : OperandsRead op h p i) (hop : op.code = h.opField)
    (hres : reservedZero op h = true) : i.header = h := by
  obtain ⟨ha, hb, hc⟩ := reservedZero_iff.1 hres
  have field_eq : ∀ {used : Bool} {f : BitVec 8}, (used = false → f = 0#8) → (if used then f else 0#8) = f := by
    intro used f hf
    cases used with
    | false => exact (hf rfl).symm
    | true => rfl
  rw [hi.header, field_eq ha, field_eq hb, field_eq hc, hop, mkHeader_fields]

/-- With enough words behind the header, the payload read is the first of them. -/
theorem OperandsRead.payload_eq (hi : OperandsRead op h p i) (hlen : op.payloads ≤ p.length) :
    i.payload = p.take op.payloads := by
  rw [hi.payload]
  refine List.ext_getElem (by simpa using hlen) fun k hk hk' => ?_
  have hkp : k < p.length := hk'.trans_le (List.length_take_le' _ _)
  simp [hkp]

theorem OperandsRead.wf (hi : OperandsRead op h p i) (hin : OperandsInRange nv op h) : i.wf nv = true := by
  rw [Instr.wf, hi.voice]
  cases hu : op.usesA with
  | false => rfl
  | true => exact decide_eq_true (hin.voice hu)

/-- A header that decodes is the header of the command it decodes to. -/
theorem header_of_decode_ok (hd : decode nv h rest = .ok i) : i.header = h := by
  obtain ⟨op, hop, -, hres, ho⟩ := decode_ok hd
  exact (operandsRead_of_decodeOperands ho).header_eq hop hres

end Decoded

/-- Settles O8: the header's fields and the payload's words are those the operands were read from, and check (4) of R94
put the voice in the pool. -/
theorem encodeInvertsDecode : Obligations.EncodeInvertsDecode := by
  intro nv h rest i hd
  obtain ⟨op, hop, hlen, hres, ho⟩ := decode_ok hd
  have hi := operandsRead_of_decodeOperands ho
  have hpayloads : i.length - 1 = op.payloads := by
    rw [← opcode_length, decodeOperands_opcode ho, Opcode.length, Nat.add_sub_cancel_left]
  rw [hpayloads, encode, hi.header_eq hop hres, hi.payload_eq hlen]
  exact ⟨rfl, hlen, hi.wf (operandsInRange_of_decodeOperands ho)⟩

/-! ### The step at a legal command -/

/-- Settles O4: the fetch finds the command. -/
theorem stepRunsTheDecodedCommand : Obligations.StepRunsTheDecodedCommand := by
  intro s h rest i hd hx
  simp only [step, fetch, hd, hx]

/-- Settles O5: behind the words before it the stream begins with the encoding, which decodes to the command. -/
theorem encodedCommandRuns : Obligations.EncodedCommandRuns := by
  intro s i pre post hprog hpc hwf
  refine stepRunsTheDecodedCommand s i.header (i.payload ++ post) i ?_ (decodeInvertsEncode _ i post hwf)
  rw [hprog, hpc, List.append_assoc, List.drop_left]
  rfl

/-! ### The match and mask columns (R84) -/

namespace Opcode

/-- The mask of a field of which the low `n` bits are free. -/
def maskField (n : Nat) : BitVec 8 := BitVec.allOnes 8 <<< n

/-- How many low bits of the fields `a`, `b`, `c` a row leaves free: those its operand's range needs (R81, R90). -/
def freeBits : Opcode → Nat × Nat × Nat
  | .reset | .render | .clrcache => (0, 0, 0)
  | .setalg => (8, 0, 8)
  | .setratio | .setlevel | .settune | .setenv | .setmidx => (8, 3, 0)
  | .setmode => (8, 3, 1)
  | .qactive => (8, 0, 0)
  | .noteoff => (0, 7, 0)
  | .noteon => (0, 7, 7)

theorem maskWord_eq (op : Opcode) : op.maskWord =
    mkHeader 0xFF#8 (maskField op.freeBits.1) (maskField op.freeBits.2.1) (maskField op.freeBits.2.2) := by
  cases op <;> rfl

theorem matchWord_eq (op : Opcode) : op.matchWord = mkHeader op.code 0#8 0#8 0#8 := by cases op <;> rfl

/-- A value that fits into the free bits of a field is masked away. -/
theorem and_maskField {n : Nat} {b : BitVec 8} (h : b.toNat < 2 ^ n) : b &&& maskField n = 0#8 := by
  apply BitVec.eq_of_getLsbD_eq
  intro k hk
  by_cases hkn : k < n
  · simp [maskField, hkn]
  · have hbit : b.getLsbD k = false :=
      Nat.testBit_lt_two_pow (h.trans_le (Nat.pow_le_pow_right (by decide) (by omega)))
    simp [hbit]

theorem fieldOf_and_maskField {m n : Nat} (hm : m ≤ 256) (hmn : m ≤ 2 ^ n) (x : Fin m) :
    fieldOf x &&& maskField n = 0#8 :=
  and_maskField (by rw [toNat_fieldOf hm]; exact x.isLt.trans_le hmn)

theorem modeField_and_maskField (m : ModType) : m.field &&& maskField 1 = 0#8 := by cases m <;> rfl

/-- Every command's header selects its row: the mask leaves the operands' bits out. -/
theorem header_and_maskWord (i : Instr) : i.header &&& i.opcode.maskWord = i.opcode.matchWord := by
  rw [maskWord_eq, matchWord_eq]
  cases i <;>
    simp [Instr.header, Instr.opcode, mkHeader_and, freeBits, code, fieldOf_and_maskField, modeField_and_maskField]

/-- What a row selects has the row's code. -/
theorem code_of_and_maskWord {op : Opcode} {h : Word} (hs : h &&& op.maskWord = op.matchWord) :
    op.code = h.opField := by
  rw [← mkHeader_fields h, maskWord_eq, matchWord_eq, mkHeader_and] at hs
  have hop := congrArg Word.opField hs
  simp only [opField_mkHeader] at hop
  rw [← hop]
  exact BitVec.and_allOnes

end Opcode

/-- Settles O9: a decoded header is its command's own, and what a row selects has the row's code, which no two rows
share. -/
theorem opcodeMapIsUnambiguous : Obligations.OpcodeMapIsUnambiguous := by
  refine ⟨fun nv h rest i hd => ?_, fun h p q hp hq => ?_⟩
  · rw [← header_of_decode_ok hd]
    exact Opcode.header_and_maskWord i
  · have hcode : p.code = q.code := (Opcode.code_of_and_maskWord hp).trans (Opcode.code_of_and_maskWord hq).symm
    exact Option.some.inj ((ofCode_code p).symm.trans ((ofCode_eq_some _ _).2 hcode.symm))

/-! ### Bytes (20_memory.md R63, R64) -/

/-- The four bytes of a word, the most significant first, are the word. -/
theorem wordsOfBytes_bytesOfWord_append (w : Word) (bs : List Byte) :
    wordsOfBytes (bytesOfWord w ++ bs) = (w :: (wordsOfBytes bs).1, (wordsOfBytes bs).2) := by
  have hw : w.extractLsb' 24 8 ++ w.extractLsb' 16 8 ++ w.extractLsb' 8 8 ++ w.extractLsb' 0 8 = w :=
    mkHeader_fields w
  simp only [bytesOfWord, List.cons_append, List.nil_append, wordsOfBytes, hw]

/-- Fewer than four bytes are no word. -/
theorem wordsOfBytes_of_short {frag : List Byte} (h : frag.length < 4) : wordsOfBytes frag = ([], frag) := by
  match frag, h with
  | [], _ | [_], _ | [_, _], _ | [_, _, _], _ => rfl

/-- Settles O14, by induction on the words. -/
theorem bytesCarryWordsLittleEndian : Obligations.BytesCarryWordsLittleEndian := by
  intro ws frag hfrag
  induction ws with
  | nil => exact wordsOfBytes_of_short hfrag
  | cons w ws ih => rw [List.flatMap_cons, List.append_assoc, wordsOfBytes_bytesOfWord_append, ih]

end Sys2Proof

/-! PROOFS. RENDER after RENDER (70_reset_and_hazards.md R271): every operator the first reached is cached, so the
second evaluates none and adds the same samples. -/

namespace Sys2Proof.Machine

/-! ### A fault raised again -/

/-- To raise a fault whose bit is set, after a first fault was recorded, changes nothing (60_exceptions.md R234). -/
theorem State.raise_of_raised {s : State} {c : Cause} (hbit : setFaultBit s.fault c = s.fault) (hf : s.ffirst ≠ 0) :
    s.raise c = s := by
  simp [State.raise, hbit, hf]

/-! ### One voice -/

section Again

variable {c : EvalEnv}

/-- Where nothing is in progress a sum over operators caches each of them with the value it added, so that the sum over
the operators it leaves, or that later calls leave, is the same and evaluates nothing. -/
theorem sumModulators_again (is : List OpIx) (st : Number × Six Operator) (d : Six Operator)
    (hquiet : ∀ k, (st.2.get k).inProgress = false)
    (hd : Evaluated c (sumModulators c.num (getSample c) is st).2 d) :
    sumModulators c.num (getSample c) is (st.1, d) = ((sumModulators c.num (getSample c) is st).1, d) := by
  induction is generalizing st with
  | nil => rfl
  | cons j is ih =>
    rw [sumModulators_cons] at hd
    have hcall := getSample_evaluated c st.2 j
    obtain ⟨hcached, hvalue⟩ := getSample_caches (c := c) (hquiet j)
    have hkept : d.get j = (getSample c st.2 j).2.get j :=
      ((sumModulators_evaluated (getSample_evaluated c) is _).trans hd).of_cached j hcached
    have hagain : getSample c d j = ((getSample c st.2 j).1, d) := by
      rw [getSample_of_cached (by rwa [hkept]), hkept, hvalue]
    rw [sumModulators_cons, sumModulators_cons, hagain]
    refine ih (c.num.add st.1 (getSample c st.2 j).1, (getSample c st.2 j).2) (fun k => ?_) hd
    exact Bool.eq_false_iff.2 fun hp => absurd (hcall.inProgress_before k hp) (by simp [hquiet k])

/-- A voice rendered again gives the same sample and stays as it is. -/
theorem Voice.render_again {v : Voice} (hquiet : ∀ k, (v.op.get k).inProgress = false) :
    (v.render c).voice.render c = v.render c := by
  by_cases h : v.carriers = []
  · rw [render_of_no_carrier c v h, render_of_no_carrier c v h]
  · have hcarriers : (v.render c).voice.carriers = v.carriers :=
      List.filter_congr fun i _ => (v.render_evaluated c).carrier i
    have hsum : sumCarriers c v.carriers (v.render c).voice.op =
        ((sumCarriers c v.carriers v.op).1, (v.render c).voice.op) := by
      rw [render_of_carrier c v h]
      exact sumModulators_again v.carriers (c.num.zero, v.op) _ hquiet (.refl c _)
    rw [render_of_carrier c _ (by rwa [hcarriers]), hcarriers, hsum, render_of_carrier c v h]

end Again

/-! ### The pool -/

section Render

variable {s : State}

theorem renderAll_evalEnv (s : State) : (renderAll s).evalEnv = s.evalEnv := by
  obtain ⟨⟨hcfg, -, -, -, hfs, -, -⟩, -⟩ := effect_frame .render s
  change (renderAll s).cfg = s.cfg at hcfg
  change (renderAll s).fs = s.fs at hfs
  rw [State.evalEnv, State.evalEnv, State.num, State.num, hcfg, hfs]

/-- Every voice of the pool rendered again answers what it answered. -/
theorem renderVoices_again (hquiet : ∀ v i o, s.operator? v i = some o → o.inProgress = false) :
    renderVoices (renderAll s) = renderVoices s := by
  have hvoices : (renderAll s).voices = s.voices.map fun vc => (vc.render s.evalEnv).voice := by
    simp [renderAll, renderVoices]
  rw [renderVoices, renderAll_evalEnv, hvoices, List.map_map]
  refine List.map_congr_left fun vc hvc => Voice.render_again fun k => ?_
  obtain ⟨v, hv⟩ := List.mem_iff_getElem?.1 hvc
  exact hquiet v k _ ((s.operator?_eq_some v k).2 ⟨vc, hv, rfl⟩)

/-- RENDER's fault is raised already when it is raised again. -/
theorem raiseNoCarriers_again (s : State) (len : Nat) :
    raiseNoCarriers (renderVoices s) ((renderAll s).advance len) = (renderAll s).advance len := by
  have hframe := renderAll_eq s
  rw [raiseNoCarriers_eq]
  by_cases hany : (renderVoices s).any (·.noCarrier) = true
  · rw [if_pos hany] at hframe ⊢
    refine State.raise_of_raised ?_ ?_
    · rw [State.advance_fault, hframe]
      exact setFaultBit_idem s.fault .noCarrier
    · rw [State.advance_ffirst, hframe]
      exact (s.raise_faults .noCarrier).2
  · rw [if_neg hany]

/-- RENDER's effect after RENDER: `OUT` appended to its trace once more, and nothing else. -/
theorem renderAll_again (hquiet : ∀ v i o, s.operator? v i = some o → o.inProgress = false) (len : Nat) :
    renderAll ((renderAll s).advance len) =
      { (renderAll s).advance len with outS := (renderAll s).outS ++ [(renderAll s).out] } := by
  have hvoices : renderVoices ((renderAll s).advance len) = renderVoices s := renderVoices_again hquiet
  have hnum : ((renderAll s).advance len).num = s.num := congrArg EvalEnv.num (renderAll_evalEnv s)
  rw [renderAll, hvoices, raiseNoCarriers_again, hnum]
  rfl

end Render

end Sys2Proof.Machine

namespace Sys2Proof

open Machine

/-- Settles O38: the second RENDER finds every voice as rendering leaves it. -/
theorem renderWithoutClrcacheRepeats : Obligations.RenderWithoutClrcacheRepeats := by
  intro s t hinit hquiet h
  obtain rfl : (renderAll s).advance 1 = t := Host.Outcome.next.inj ((exec_render hinit).symm.trans h)
  have hinit' : ((renderAll s).advance 1).init = true := (effect_frame .render s).1.init.trans hinit
  rw [exec_render hinit', renderAll_again hquiet]
  rfl

end Sys2Proof

/-! PROOFS. The end of every run (70_reset_and_hazards.md R268) and the sticky fault registers (60_exceptions.md
R234). -/

namespace Sys2Proof

/-- Every command has at least its header word (30_encoding.md R83). -/
theorem Instr.length_pos (i : Instr) : 0 < i.length := by cases i <;> exact Nat.succ_pos _

end Sys2Proof

namespace Sys2Proof.Machine

/-- Before the end of the stream a step answers a state further in the same stream. -/
theorem step_advances {s : State} (h : s.pc < s.progLen) :
    ∃ t, step s = .next t ∧ s.pc < t.pc ∧ t.pc ≤ s.progLen := by
  rcases step_cases s with ⟨_, _, i, -, -, hlen, e⟩ | ⟨pc, hlt, hle, e⟩ | ⟨hend, -⟩
  · obtain ⟨t, ht⟩ := exec_total i s
    obtain ⟨r, hr, rfl⟩ := exec_registers ht
    have hpc : (r.advance i.length).pc = s.pc + i.length := by rw [State.advance_pc, hr.pc_eq]
    have hpos := i.length_pos
    exact ⟨_, e.trans ht, by omega, by omega⟩
  · exact ⟨_, e, hlt, hle⟩
  · exact absurd h (not_lt.2 hend)

/-- As many steps as words are left, or more, end at the end of the stream. -/
theorem core_run_to_end (k : Nat) : ∀ s : State, s.pc ≤ s.progLen → s.progLen - s.pc ≤ k →
    ∃ t, Host.Core.run Sys2Proof.core k s = .next t ∧ t.pc = s.progLen ∧ t.prog = s.prog := by
  induction k with
  | zero => exact fun s hpc hk => ⟨s, rfl, by omega, rfl⟩
  | succ k ih =>
    intro s hpc hk
    rcases hpc.eq_or_lt with hend | hlt
    · rw [core_run_succ (step_of_end hend.ge)]
      exact ih s hpc (by omega)
    · obtain ⟨t, hstep, hgt, hle⟩ := step_advances hlt
      obtain ⟨-, hprog, hfrag, -⟩ := step_keeps_setup hstep
      have hlen := State.progLen_congr hprog hfrag
      obtain ⟨u, hrun, hu, huprog⟩ := ih t (by omega) (by omega)
      exact ⟨u, (core_run_succ hstep k).trans hrun, hu.trans hlen, huprog.trans hprog⟩

/-! ### Faults -/

/-- A step raises one fault at most. -/
theorem step_faults {s t : State} (h : step s = .next t) : FaultsOf s t := by
  rcases step_next_cases h with ⟨i, -, hi⟩ | ⟨pc, -, rfl⟩ | rfl
  · exact exec_faults hi
  · exact .inr ⟨.illegal, rfl, rfl, rfl, rfl⟩
  · exact .refl _

theorem FaultsOf.faultBit_sticky {s t : State} (h : FaultsOf s t) {c : Cause} (hc : s.faultBit c = true) :
    t.faultBit c = true := by
  rw [State.faultBit_eq_getLsbD] at hc ⊢
  rcases h with ⟨hfault, -⟩ | ⟨c', hfault, -⟩ <;> rw [hfault]
  · exact hc
  · rw [State.raise_fault, getLsbD_setFaultBit, hc, Bool.true_or]

theorem FaultsOf.keeps_first {s t : State} (h : FaultsOf s t) (hs : s.ffirst ≠ 0) :
    t.ffirst = s.ffirst ∧ t.fpc = s.fpc ∧ t.fword = s.fword := by
  rcases h with ⟨-, h⟩ | ⟨c, -, h⟩
  · exact h
  · simpa only [State.raise_ffirst, State.raise_fpc, State.raise_fword, if_neg hs] using h

end Sys2Proof.Machine

namespace Sys2Proof

open Machine

/-- Settles O15, by induction on the number of steps: each one before the end goes on in the stream. -/
theorem everyProgramRunsToItsEnd : Obligations.EveryProgramRunsToItsEnd :=
  fun s hpc => ⟨fun hend => step_of_end hend.ge, core_run_to_end _ s hpc le_rfl⟩

/-- Settles O17: what one raise at most does to the fault registers. -/
theorem faultsAreSticky : Obligations.FaultsAreSticky :=
  fun _ _ h => ⟨fun _ => (step_faults h).faultBit_sticky, (step_faults h).keeps_first⟩

end Sys2Proof

/-! PROOFS. SETLEVEL, SETMIDX, SETMODE (42_operator.md R151, R153, R154) and what SETALG wires from an admissible table
(43_algorithm.md R172, R177). -/

namespace Sys2Proof

open Machine

/-- Settles O25: either command's effect is the write of one field of the operator it names. -/
theorem setlevelAndSetmidxArePlainWrites : Obligations.SetlevelAndSetmidxArePlainWrites := fun _ v i w _ hinit ho =>
  ⟨exec_of_effect_modifyOp (c := .setlevel v i w) (by simp) rfl rfl hinit ho,
    exec_of_effect_modifyOp (c := .setmidx v i w) (by simp) rfl rfl hinit ho⟩

/-- Settles O27, mode by mode. -/
theorem setmodeSwitchesModulation : Obligations.SetmodeSwitchesModulation := by
  intro s v i m o hinit ho
  cases m with
  | pm =>
    obtain ⟨t, hexec, hpool, hop, ht⟩ := exec_of_effect_modifyOp (c := .setmode v i .pm) (by simp) rfl rfl hinit ho
    exact ⟨t, hexec, hpool, hop, by simp, fun _ => ht⟩
  | fm =>
    obtain ⟨t, hexec, hpool, hop, ht⟩ := exec_of_effect_modifyOp (c := .setmode v i .fm) (by simp) rfl rfl hinit ho
    exact ⟨t, hexec, hpool, hop, fun _ => ht, by simp⟩

/-- One slot at most has the feedback of a description. -/
theorem Machine.feedback_wire_unique (d : AlgDesc) (ops : Six Operator) {i j : OpIx}
    (hi : ((wire d ops).get i).feedback = true) (hj : ((wire d ops).get j).feedback = true) : i = j := by
  rw [get_wire] at hi hj
  exact Option.some.inj ((beq_iff_eq.1 hi).symm.trans (beq_iff_eq.1 hj))

/-- Settles O29: the voice gets the wiring of the table's entry. -/
theorem admissibleTablesGiveACarrier : Obligations.AdmissibleTablesGiveACarrier := by
  intro s v alg hinit hv halg htable
  have hlt : v.val < s.voices.length := of_decide_eq_true hv
  have hvoice : s.voice? v.val = some s.voices[v.val] := List.getElem?_eq_getElem hlt
  exact ⟨_, _, exec_setalg hinit hv, voice?_setAlgorithm_of_lt halg hvoice,
    exists_carrier_wire (AlgTable.get_admissible htable _) _, fun _ _ => feedback_wire_unique _ _⟩

end Sys2Proof

/-! PROOFS. The state after power-on (10_state.md R47; 70_reset_and_hazards.md R260). -/

namespace Sys2Proof.Machine

section PowerOn

variable {cfg : Config} {nv v : Nat} {i : OpIx} {o : Operator}

theorem numVoices_powerOn (cfg : Config) (nv : Nat) : (State.powerOn cfg nv).numVoices = nv := List.length_replicate

@[simp] theorem Voice.get_powerOn (N : NumOps) (i : OpIx) : (Voice.powerOn N).op.get i = .powerOn N := by
  fin_cases i <;> rfl

theorem operator?_powerOn :
    (State.powerOn cfg nv).operator? v i = if v < nv then some (.powerOn cfg.num.ops) else none := by
  simp only [State.operator?, State.voice?, State.powerOn, List.getElem?_replicate]
  split <;> simp

theorem eq_powerOn_of_operator? (h : (State.powerOn cfg nv).operator? v i = some o) : o = .powerOn cfg.num.ops := by
  rw [operator?_powerOn] at h
  split at h
  · exact (Option.some.inj h).symm
  · cases h

theorem powerOn_inv (cfg : Config) {nv : Nat} (hpos : 0 < nv) (hle : nv ≤ 256) : (State.powerOn cfg nv).Inv where
  pool := by rw [numVoices_powerOn]; exact ⟨hpos, hle⟩
  pc := Nat.zero_le _
  map n v h := by
    have hnone : (State.powerOn cfg nv).noteMap.get n = none := NoteMap.get_empty n
    rw [hnone] at h
    cases h
  quiet v i o h := by rw [eq_powerOn_of_operator? h]; rfl
  phase hb v i o h := by
    rw [eq_powerOn_of_operator? h]
    exact ⟨.zero, congrArg (fun f => f.ops.zero) hb, fun _ => by decide⟩
  faults := iff_of_true rfl rfl

end PowerOn

end Sys2Proof.Machine

namespace Sys2Proof

open Machine

/-- Settles O1: no note is mapped, every operator is `Operator.powerOn`, and no fault is recorded. -/
theorem invariantHoldsAtPowerOn : Obligations.InvariantHoldsAtPowerOn :=
  ⟨fun cfg _ => powerOn_inv cfg, powerOn_inv Config.default (by decide) (by decide)⟩

/-- Settles O2, by the fields of `State.powerOn` and `Operator.powerOn`. -/
theorem powerOnValues : Obligations.PowerOnValues := by
  rintro cfg nv N rfl
  refine ⟨rfl, rfl, rfl, rfl, rfl, rfl, numVoices_powerOn cfg nv, fun v i hv => ⟨.powerOn cfg.num.ops, ?_, ?_⟩⟩
  · rw [operator?_powerOn, if_pos hv]
  · simp [Operator.powerOn, Envelope.powerOn]

end Sys2Proof

/-! PROOFS. Bit patterns of binary32 numbers (00_scope.md R11). -/

namespace Sys2Proof.Num32

/-- The word of a sign bit and 31 bits below it (00_scope.md R11). -/
def signedWord (neg : Bool) (m : Nat) : Word := BitVec.ofNat 32 (m + if neg then 2 ^ 31 else 0)

theorem exists_signedWord (w : Word) : ∃ neg m, m < 2 ^ 31 ∧ w = signedWord neg m := by
  have hw := w.isLt
  refine ⟨decide (2 ^ 31 ≤ w.toNat), w.toNat % 2 ^ 31, Nat.mod_lt _ (by decide), ?_⟩
  apply BitVec.eq_of_toNat_eq
  simp only [signedWord, BitVec.toNat_ofNat, decide_eq_true_eq]
  split <;> omega

section SignedWord

variable (neg : Bool) {m : Nat} (hm : m < 2 ^ 31)

include hm

theorem sign_signedWord : decide (2 ^ 31 ≤ (signedWord neg m).toNat) = neg := by
  simp only [signedWord, BitVec.toNat_ofNat]
  cases neg <;> simp <;> omega

theorem toNat_signedWord_mod : (signedWord neg m).toNat % 2 ^ 31 = m := by
  simp only [signedWord, BitVec.toNat_ofNat]
  cases neg <;> simp <;> omega

theorem ofBits_signedWord : ofBits (signedWord neg m) =
    if h : m < 0x7F800000 then .fin neg ⟨m, h⟩ else if m = 0x7F800000 then .inf neg else .nan := by
  simp only [ofBits, sign_signedWord neg hm, toNat_signedWord_mod neg hm]

theorem isNanWord_signedWord : isNanWord (signedWord neg m) = true ↔ 0x7F800000 < m := by
  rw [isNanWord, toNat_signedWord_mod neg hm, decide_eq_true_eq]

end SignedWord

theorem toBits_inf (neg : Bool) : (inf neg).toBits = signedWord neg 0x7F800000 := rfl

theorem toBits_fin (neg : Bool) (mag : Fin 0x7F800000) : (fin neg mag).toBits = signedWord neg mag.val := rfl

theorem ofBits_eq_nan {w : Word} : ofBits w = .nan ↔ isNanWord w = true := by
  obtain ⟨neg, m, hm, rfl⟩ := exists_signedWord w
  rw [ofBits_signedWord neg hm, isNanWord_signedWord neg hm]
  split
  · simp; omega
  · split <;> simp <;> omega

theorem ofBits_toBits (x : Num32) : ofBits x.toBits = x := by
  cases x with
  | nan => exact ofBits_eq_nan.2 isNanWord_nanWord
  | inf neg => rw [toBits_inf, ofBits_signedWord neg (by decide), dif_neg (by decide), if_pos rfl]
  | fin neg mag => rw [toBits_fin, ofBits_signedWord neg (mag.isLt.trans (by decide)), dif_pos mag.isLt]

theorem toBits_ofBits {w : Word} (h : isNanWord w = false) : (ofBits w).toBits = w := by
  obtain ⟨neg, m, hm, rfl⟩ := exists_signedWord w
  have hle : ¬0x7F800000 < m := mt (isNanWord_signedWord neg hm).2 (Bool.eq_false_iff.1 h)
  rw [ofBits_signedWord neg hm]
  split
  next => exact toBits_fin neg _
  next hlt =>
    obtain rfl : m = 0x7F800000 := by omega
    exact toBits_inf neg

end Sys2Proof.Num32

namespace Sys2Proof

/-- Settles O45, by the three kinds of number and the sign bit over the other 31. -/
theorem numbersTravelAsTheirBits : Obligations.NumbersTravelAsTheirBits := by
  rintro N rfl
  refine ⟨fun x => ?_, fun w hw => ?_, fun w => ?_⟩
  · rw [NumOps.binary32_toBits, NumOps.binary32_ofBits, Num32.ofBits_toBits]
  · rw [NumOps.binary32_ofBits, NumOps.binary32_toBits, Num32.toBits_ofBits hw]
  · rw [NumOps.binary32_ofBits, Number.b32.injEq, Num32.ofBits_eq_nan]

end Sys2Proof
